-- ==== Sys2Proof/Word.lean ====
section
/-! DEFINITION. The words of the FPCE: bytes, the 32-bit command word and the 64-bit data operand
(30_encoding.md R80). -/

namespace Sys2Proof

/-- A byte, an integer in `0..255` (00_scope.md R10). -/
abbrev Byte := BitVec 8

/-- The 32-bit command word `CMD` (30_encoding.md R80). -/
abbrev CmdWord := BitVec 32

/-- The 64-bit data operand `DATA`, a result value or an info word (30_encoding.md R80, 10_state.md R21). -/
abbrev DataWord := BitVec 64

end Sys2Proof
end

