-- ==== Sys2Proof/Config.lean ====
section
/-! DEFINITION. The static parameters of an FPCE (00_scope.md R6), the framing profiles
(43_frame_parser.md R200, R220) and the parameter set of the spec's own vectors (95_test_vectors.md).
What a parameter set must meet stands in WellFormed.lean. -/

namespace Sys2Proof

/-- Byte order of a multi-byte field of a binary frame (20_memory.md R64, 43_frame_parser.md R220). -/
inductive ByteOrder where
  | le
  | be
deriving DecidableEq, Repr

/-- `CK_KIND` of a binary profile: FLETCHER8 or CRC16 (43_frame_parser.md R220). -/
inductive BinCkKind where
  | fletcher8
  | crc16
deriving DecidableEq, Repr

/-- `CK_LOC`: the checksum stands after the payload or inside the header (43_frame_parser.md R220). -/
inductive CkLoc where
  | trailer
  | header
deriving DecidableEq, Repr

/-- A BINARY profile (43_frame_parser.md R220); its constraints are `BinProfile.wf` (R221). -/
structure BinProfile where
  /-- `SYNC`, the sync sequence that starts a frame. -/
  sync : List Byte
  /-- `HLEN`, header bytes after `SYNC`. -/
  hlen : Nat
  lenOff : Nat
  lenBytes : Nat
  lenOrder : ByteOrder
  /-- `LEN_ADJ`, subtracted from the length field to give the payload length. -/
  lenAdj : Nat
  /-- `LEN_MULT`, the length field must be a multiple of it. -/
  lenMult : Nat
  idOff : Nat
  idBytes : Nat
  idOrder : ByteOrder
  idMask : Nat
  ckKind : BinCkKind
  /-- `CK_ORDER`, byte order of a CRC16 checksum, unused for FLETCHER8. -/
  ckOrder : ByteOrder
  ckLoc : CkLoc
  /-- `CK_OFF`, position of a HEADER checksum, unused for TRAILER. -/
  ckOff : Nat
  /-- `CK_START`: the checksum covers `HDR[CK_START..HLEN) ++ payload`. -/
  ckStart : Nat
deriving DecidableEq, Repr

/-- The framing profile of a protocol: TEXT has no fields of its own (43_frame_parser.md R200, R220). -/
inductive Profile where
  | text
  | binary (p : BinProfile)
deriving DecidableEq, Repr

/-- `WMAX`, the largest generic cursor width (00_scope.md R6: the value column fixes it; log 6, DEDUCED). -/
def wMax : Nat := 64

/-- `ID_MAX`, the longest message id the registry stores (00_scope.md R6; log 6, DEDUCED). -/
def idMax : Nat := 8

/-- The static parameters of an FPCE (00_scope.md R6). They are not state (10_state.md R53): no step changes them. -/
structure Config where
  /-- `HB_CAP`, bytes of each host buffer. -/
  hbCap : Nat
  /-- `FX_MAX`, most octets of an extensible field. -/
  fxMax : Nat
  /-- `BUF_CAP`, bytes of the frame parser's accumulation buffer. -/
  bufCap : Nat
  /-- `NOCK_EMIT`, whether a text frame without a checksum is put on the frame output. -/
  nockEmit : Bool
  /-- `ID_SKIP`, leading bytes of a text address field dropped from the id. -/
  idSkip : Nat
  /-- `REG_CAP`, number of registry entries. -/
  regCap : Nat
  /-- `PROFILES`: the profile of protocol index `p` is entry `p`, absent where there is none. -/
  profiles : List (Option Profile)
  /-- `PROTO_ID[k]`, the protocol index of instance `k`; its length is `N_INST` (log 6, DEDUCED). -/
  protoId : List (BitVec 8)
deriving DecidableEq, Repr

/-- `N_INST`, the number of FP instances (00_scope.md R6). -/
def Config.nInst (c : Config) : Nat := c.protoId.length

/-- `PROFILES[proto]`, or absent (00_scope.md R6). -/
def Config.profile? (c : Config) (proto : BitVec 8) : Option Profile :=
  (c.profiles[proto.toNat]?).getD none

/-- The profile instance `k` is bound to, `PROFILES[PROTO_ID[k]]` (00_scope.md R6, 60_exceptions.md R312). -/
def Config.instProfile? (c : Config) (k : Nat) : Option Profile :=
  match c.protoId[k]? with
  | some proto => c.profile? proto
  | none => none

/-- The reference profile UBX (43_frame_parser.md R228). -/
def Profile.ubx : BinProfile :=
  { sync := [0xB5, 0x62], hlen := 4, lenOff := 2, lenBytes := 2, lenOrder := .le, lenAdj := 0,
    lenMult := 1, idOff := 0, idBytes := 2, idOrder := .be, idMask := 0xFFFF, ckKind := .fletcher8,
    ckOrder := .le, ckLoc := .trailer, ckOff := 0, ckStart := 0 }

/-- The reference profile SBF (43_frame_parser.md R228). -/
def Profile.sbf : BinProfile :=
  { sync := [0x24, 0x40], hlen := 6, lenOff := 4, lenBytes := 2, lenOrder := .le, lenAdj := 8,
    lenMult := 4, idOff := 2, idBytes := 2, idOrder := .le, idMask := 0x1FFF, ckKind := .crc16,
    ckOrder := .le, ckLoc := .header, ckOff := 0, ckStart := 2 }

/-- The parameter set of the spec's own vectors (95_test_vectors.md, "Test parameters"): instance 0 is NMEA,
1 is UBX and 2 is SBF. DESIGN CHOICE (log 1, unsafe): `State.reset` is built from it. -/
def Config.reference : Config :=
  { hbCap := 64, fxMax := 16, bufCap := 80, nockEmit := true, idSkip := 0, regCap := 4,
    profiles := [some .text, some (.binary Profile.ubx), some (.binary Profile.sbf)],
    protoId := [0, 1, 2] }

end Sys2Proof
end

