-- ==== Sys2Proof/Syntax.lean ====
section
/-! DEFINITION. The command set, one constructor per row of spec/opcode_table.json (30_encoding.md R87),
with the operand fields R82 to R86 give each. -/

namespace Sys2Proof

/-- `CUR_MODE`: a read-only view for decode or a mutable view for encode (10_state.md R25, 20_memory.md R71). -/
inductive ViewMode where
  | ro
  | rw
deriving DecidableEq, Repr

/-- The source operand of CUR.OPEN (40_bitcursor.md R110): `L` is read for the host buffer only. -/
inductive ViewSource where
  | hostBuffer (len : BitVec 32)
  | frameOutput
deriving DecidableEq, Repr

/-- One command with its operands. Operand bits are held as the encoding has them; what a value outside an
operand's legal range does is the meaning's to say (30_encoding.md R82, R86, R88). -/
inductive Instr where
  /-- 0x00, R91. -/
  | nop
  /-- 0x10, R110. -/
  | curOpen (mode : ViewMode) (src : ViewSource)
  /-- 0x11, R111. -/
  | curClose
  /-- 0x12, R117. -/
  | curRdu (w : BitVec 8)
  /-- 0x13, R118. -/
  | curRds (w : BitVec 8)
  /-- 0x14, R119. -/
  | curWru (w : BitVec 8) (value : DataWord)
  /-- 0x15, R120. -/
  | curWrs (w : BitVec 8) (value : DataWord)
  /-- 0x16, R121. -/
  | curRdb8
  /-- 0x17, R122. -/
  | curRdb16
  /-- 0x18, R123. -/
  | curRdb32
  /-- 0x19, R124. -/
  | curWrb8 (value : DataWord)
  /-- 0x1A, R125. -/
  | curWrb16 (value : DataWord)
  /-- 0x1B, R126. -/
  | curWrb32 (value : DataWord)
  /-- 0x1C, R130. -/
  | curSkip (bits : DataWord)
  /-- 0x1D, R131. -/
  | curTell
  /-- 0x20, R150. -/
  | fxClear
  /-- 0x21, R151. -/
  | fxGet (index : BitVec 16)
  /-- 0x22, R152. -/
  | fxSet (v : Bool) (index : BitVec 16)
  /-- 0x23, R155. -/
  | fxDeser
  /-- 0x24, R160. -/
  | fxSer
  /-- 0x25, R165. -/
  | fxSize
  /-- 0x30, R180. -/
  | ckCompute (kind : BitVec 4) (start count : BitVec 32)
  /-- 0x31, R181; `order` is `W[4]`. -/
  | ckFormat (order : Bool) (kind : BitVec 4) (value : BitVec 16)
  /-- 0x32, R182. -/
  | ckCheck (kind : BitVec 4) (rx : BitVec 16) (start count : BitVec 32)
  /-- 0x40, R210. -/
  | fpPush (b : Byte)
  /-- 0x41, R211. -/
  | fpReset
  /-- 0x42, R240. -/
  | fpWrap (start : Byte) (count : BitVec 32)
  /-- 0x50, R263; the id is the first `m` bytes of `idData` (R86). -/
  | regAdd (proto : BitVec 8) (handle : BitVec 8) (m : BitVec 4) (idData : DataWord)
  /-- 0x51, R264. -/
  | regSeal
  /-- 0x52, R265. -/
  | regLookup (proto : BitVec 8) (m : BitVec 4) (idData : DataWord)
  /-- 0x53, R266. -/
  | regDispatch
deriving DecidableEq, Repr

end Sys2Proof
end

