-- ==== Sys2Proof/WellFormed.lean ====
section
/-! DEFINITION. The checks of the spec on static data: which command words are legal whatever the state
(30_encoding.md R88, R89, R90), and which parameter sets an FPCE can be built from (00_scope.md R6, R7;
43_frame_parser.md R220, R221). -/

namespace Sys2Proof

/-- The reserved bits that depend on another operand are zero (30_encoding.md R88, R89; 60_exceptions.md R305):
the order bit of CK.FORMAT with a kind other than CRC16, and `IMM[15:8]` of CK.CHECK with XOR8. Every other reserved bit has
no place in an `Instr`. (FP.WRAP's `W` under a BINARY profile depends on the instance, not on the word alone.) -/
def Instr.wf : Instr → Bool
  | .ckFormat order kind _ => !order || kind == 2
  | .ckCheck kind rx _ _ => kind != 0 || rx.extractLsb' 8 8 == 0
  | _ => true

/-- Two byte ranges of the header do not overlap. -/
def rangesApart (offA lenA offB lenB : Nat) : Bool :=
  offA + lenA ≤ offB || offB + lenB ≤ offA

/-- The field ranges of 43_frame_parser.md R220 and the well-formedness of R221. -/
def BinProfile.wf (p : BinProfile) : Bool :=
  1 ≤ p.sync.length && p.sync.length ≤ 4 && 1 ≤ p.hlen && p.hlen ≤ 16
  && (p.lenBytes == 1 || p.lenBytes == 2 || p.lenBytes == 4)
  && 1 ≤ p.lenMult
  && 1 ≤ p.idBytes && p.idBytes ≤ idMax
  && p.lenOff + p.lenBytes ≤ p.hlen && p.idOff + p.idBytes ≤ p.hlen
  && p.lenAdj < 2 ^ (8 * p.lenBytes) && p.idMask < 2 ^ (8 * p.idBytes)
  && p.ckStart ≤ p.hlen
  && (p.ckLoc == .trailer
      || (p.ckOff + 2 ≤ p.ckStart
          && rangesApart p.ckOff 2 p.lenOff p.lenBytes
          && rangesApart p.ckOff 2 p.idOff p.idBytes))

/-- Every TEXT profile is well formed (43_frame_parser.md R200). -/
def Profile.wf : Profile → Bool
  | .text => true
  | .binary p => p.wf

/-- A parameter set is well formed (00_scope.md R6, R7): the constraints of R6's value column, each present profile
well formed, each instance's profile present, and at most 256 protocol indices. -/
def Config.wf (c : Config) : Bool :=
  1 ≤ c.hbCap && c.hbCap < 2 ^ 32
  && 1 ≤ c.fxMax && c.fxMax ≤ 9362
  && 1 ≤ c.bufCap && c.bufCap < 2 ^ 32
  && 1 ≤ c.regCap && c.regCap ≤ 256
  && c.profiles.length ≤ 256
  && c.profiles.all (fun e => match e with | some p => p.wf | none => true)
  && 1 ≤ c.nInst
  && c.protoId.all (fun proto => (c.profile? proto).isSome)

end Sys2Proof
end

