-- ==== Sys2Proof/Machine/State.lean ====
section
/-! DEFINITION. The state of the FPCE (10_state.md), its host's inputs, the response record, the reasons a step can
stop, the launch from a parameter set and the state after reset. -/

namespace Sys2Proof.Machine

/-- The status codes of 60_exceptions.md R300; `Status.code` gives each its number. -/
inductive Status where
  | sOk
  | sUnrecognized
  | eInsufficientBuffer
  | eInvalidWidth
  | eNoCursor
  | eReadOnly
  | eFxMalformed
  | eFxTruncated
  | eFxCapacity
  | eBadKind
  | eRange
  | eWrapLength
  | eRegSealed
  | eRegNotSealed
  | eRegDuplicate
  | eRegFull
  | eNoFrame
  | eIllegalCommand
  | eBadId
deriving DecidableEq, Repr

/-- A Frame record (10_state.md R40). -/
structure Frame where
  id : List Byte
  payload : List Byte
  checksumValid : Bool
deriving DecidableEq, Repr

/-- The response record of a command (10_state.md R21). -/
structure Response where
  status : Status
  value : DataWord
  bytes : List Byte
  frame : Option Frame
deriving DecidableEq, Repr

/-- Bytes by address, in one canonical form (`Memory.wf`): addresses strictly rising, no entry equal to what an
unlisted address reads as (`Memory.unlisted`). -/
structure Memory where
  cells : List Host.Cell
deriving DecidableEq, Repr

/-- The cursor unit of one instance (10_state.md R25): `CUR_OPEN`, `CUR_MODE`, `CUR_LEN`, `CUR_OFF`. -/
structure CursorUnit where
  isOpen : Bool
  mode : ViewMode
  len : Nat
  off : Nat
deriving DecidableEq, Repr

/-- The extensible-field unit of one instance (10_state.md R27): `FX_N` and `FX_OCT[0..FX_MAX)`. -/
structure FieldUnit where
  n : Nat
  oct : List Byte
deriving DecidableEq, Repr

/-- `FP_ST` (10_state.md R30): the six TEXT states, then the BINARY states; `bSync k` has `k` sync bytes matched. -/
inductive ParserState where
  | sync
  | accumulating
  | checksum1
  | checksum2
  | expectCr
  | expectLf
  | bSync (k : Nat)
  | bHeader
  | bPayload
  | bTrailer
deriving DecidableEq, Repr

/-- The frame-parser unit of one instance (10_state.md R30 to R33): `FP_ST`, `FP_BUF`, `FP_CNT`, `FP_CKRX`, `FP_HDR`,
`FP_HCNT`, `FP_PLEN`, `FP_TRL`, `FP_TCNT`. -/
structure ParserUnit where
  st : ParserState
  buf : List Byte
  cnt : Nat
  ckrx : BitVec 8
  hdr : List Byte
  hcnt : Nat
  plen : Nat
  trl : List Byte
  tcnt : Nat
deriving DecidableEq, Repr

/-- The frame output of one instance (10_state.md R41): `FO_VALID` and `FO`. -/
structure FrameOutput where
  valid : Bool
  frame : Frame
deriving DecidableEq, Repr

/-- One FP instance: its cursor, field, parser, frame output and host buffer (10_state.md R23, 20_memory.md R60). -/
structure Instance where
  cur : CursorUnit
  fx : FieldUnit
  fp : ParserUnit
  fo : FrameOutput
  hb : Memory
deriving DecidableEq, Repr

/-- A registry entry `REG_E[j]` (10_state.md R50, 44_registry_dispatch.md R260). -/
structure RegEntry where
  proto : BitVec 8
  id : List Byte
  handle : BitVec 8
deriving DecidableEq, Repr

/-- The shared registry (10_state.md R50): `REG_SEALED`, `REG_N`, `REG_E[0..REG_CAP)`. -/
structure Registry where
  isSealed : Bool
  n : Nat
  entries : List RegEntry
deriving DecidableEq, Repr

/-- What the host can do to the FPCE (log 2). -/
inductive HostInput where
  /-- A command on the command port of instance `port` (10_state.md R20, R22; 60_exceptions.md R312). -/
  | command (port : Nat) (cmd : CmdWord) (data : DataWord)
  /-- The host writes one byte of an instance's host buffer between commands (20_memory.md R72, 70_reset_and_hazards.md R352). -/
  | writeByte (port : Nat) (addr : Nat) (b : Byte)
  /-- A hardware reset (70_reset_and_hazards.md R340). -/
  | hardReset
deriving DecidableEq, Repr

/-- The state of an FPCE. `cfg`, `inbox`, `port` and `rsp` are the model's own fields: the static parameters
(log 1), the host's inputs not yet taken (log 2), the command port in use and the last response (log 3). -/
structure State where
  cfg : Config
  insts : List Instance
  reg : Registry
  inbox : List HostInput
  port : Nat
  rsp : Response
deriving DecidableEq, Repr

/-- The model's own stops; none is an effect the spec describes. Each is safe: the model stops where the spec has
no such event. -/
inductive Fault where
  /-- An input names an instance `k >= N_INST`, which no FPCE has (60_exceptions.md R312). Raised by the step and by a
  meaning that needs the issuing instance. Safe (log 8). -/
  | noSuchPort (port : Nat)
  /-- The host writes an address outside `HB[0..HB_CAP)`, which does not exist (20_memory.md R70). Raised by the step.
  Safe (log 7). -/
  | hostAddress (addr : Nat)
  /-- `FP_ST` holds a state of the other profile kind, which 10_state.md R30 excludes and no run reaches. Raised by
  FP.PUSH. Safe (log 9). -/
  | foreignParserState
deriving DecidableEq, Repr

/-- The model's refusals. -/
inductive Refusal where
  /-- The instruction has no meaning in this model. Raised by `exec`'s refused arms. Safe. -/
  | notModelled (mnemonic : String)
  /-- The instance or key names a protocol whose profile is absent: an ill-formed parameter set, of which no FPCE is built
  (00_scope.md R7). Raised by FP.PUSH, FP.RESET, FP.WRAP and REG.DISPATCH. Safe (log 8). -/
  | noProfile
deriving DecidableEq, Repr

/-- The reset values of the cursor unit (10_state.md R25); a closed cursor has this one form (90_conflicts.md C10). -/
def CursorUnit.closed : CursorUnit := { isOpen := false, mode := .ro, len := 0, off := 0 }

/-- The empty field: `FX_N = 0`, every stored octet 0 (10_state.md R27). -/
def FieldUnit.empty (c : Config) : FieldUnit := { n := 0, oct := List.replicate c.fxMax 0 }

/-- The start state of a parser (10_state.md R30). -/
def ParserState.start : Profile → ParserState
  | .text => .sync
  | .binary _ => .bSync 0

/-- `HLEN`, the length of `FP_HDR`; a TEXT profile has no header (10_state.md R33). -/
def Profile.headerLen : Profile → Nat
  | .text => 0
  | .binary p => p.hlen

/-- The reset values of the parser unit (10_state.md R30 to R33). -/
def ParserUnit.initial (c : Config) (p : Profile) : ParserUnit :=
  { st := ParserState.start p, buf := List.replicate c.bufCap 0, cnt := 0, ckrx := 0,
    hdr := List.replicate (Profile.headerLen p) 0, hcnt := 0, plen := 0, trl := [0, 0], tcnt := 0 }

/-- `FO = {[], [], 0}` (10_state.md R41). -/
def Frame.empty : Frame := { id := [], payload := [], checksumValid := false }

/-- The reset values of the frame output (10_state.md R41). -/
def FrameOutput.initial : FrameOutput := { valid := false, frame := Frame.empty }

/-- Instance `k` right after a hardware reset, with host buffer `hb` (70_reset_and_hazards.md R340). Where the parameter
set gives `k` no profile, of which no FPCE is built (R7), the TEXT values stand. -/
def Instance.initial (c : Config) (k : Nat) (hb : Memory) : Instance :=
  { cur := CursorUnit.closed, fx := FieldUnit.empty c,
    fp := ParserUnit.initial c ((c.instProfile? k).getD .text),
    fo := FrameOutput.initial, hb := hb }

/-- `REG_E[j] = {0, [], 0}` (10_state.md R50). -/
def RegEntry.blank : RegEntry := { proto := 0, id := [], handle := 0 }

/-- The reset values of the registry (10_state.md R50). -/
def Registry.initial (c : Config) : Registry :=
  { isSealed := false, n := 0, entries := List.replicate c.regCap RegEntry.blank }

/-- The response field before any command has run. DESIGN CHOICE (log 3, unsafe): no response has been given. -/
def Response.idle : Response := { status := .sOk, value := 0, bytes := [], frame := none }

/-- A host buffer with every byte 0, as in the spec's vectors (95_test_vectors.md, "Launch state"). -/
def Memory.empty : Memory := { cells := [] }

/-- The state right after power-on reset with parameters `c`: the reset values of 70_reset_and_hazards.md R340, and
`hbs[k]` the launch contents of instance `k`'s host buffer (20_memory.md R61), all 0 where the list gives none. -/
def State.launch (c : Config) (hbs : List Memory) : State :=
  { cfg := c,
    insts := (List.range c.nInst).map (fun k => Instance.initial c k ((hbs[k]?).getD Memory.empty)),
    reg := Registry.initial c,
    inbox := [], port := 0, rsp := Response.idle }

/-- Building an FPCE: an ill-formed parameter set is refused (00_scope.md R7). -/
def State.build (c : Config) (hbs : List Memory) : Option State :=
  if c.wf then some (State.launch c hbs) else none

/-- The machine right after reset: the reset values of 70_reset_and_hazards.md R340 under the parameter set and the
all-zero host buffers of the spec's vectors. DESIGN CHOICE (log 1 and log 4, unsafe): the spec leaves the
parameters and the host-buffer contents to the launch. -/
def State.reset : State := State.launch Config.reference []

end Sys2Proof.Machine
end

