-- ==== Sys2Proof/Machine/Ops.lean ====
section
/-! DEFINITION. The shared operations: bytes and bits of the host buffer (20_memory.md R60, R63; 40_bitcursor.md R113,
R115), byte order (43_frame_parser.md R223, R227), the response of a command and the error response that takes the place of
a trap (60_exceptions.md R302, R307), running a command on the issuing instance, and the host's inputs (log 2). -/

namespace Sys2Proof.Machine

/-! ### Bytes of a host buffer -/

/-- What a byte that no cell lists reads as. DESIGN CHOICE (log 4): the list form alone; a launch may hold any contents. -/
def Memory.unlisted : Byte := 0

/-- The canonical form: addresses strictly rising and no cell holding what an unlisted address reads as. -/
abbrev Memory.wf (m : Memory) : Prop :=
  m.cells.Pairwise (fun a b => a.1 < b.1) ∧ ∀ c ∈ m.cells, c.2 ≠ Memory.unlisted

/-- Every listed address is below `cap`. -/
abbrev Memory.below (cap : Nat) (m : Memory) : Prop := ∀ c ∈ m.cells, c.1 < cap

/-- The byte at `a` in a list of cells. -/
def readCells (a : Nat) : List Host.Cell → Byte
  | [] => Memory.unlisted
  | c :: cs => if c.1 = a then c.2 else readCells a cs

/-- `HB[a]` (00_scope.md R9). -/
def Memory.read (m : Memory) (a : Nat) : Byte := readCells a m.cells

/-- The cells with `b` at `a`, in canonical form again. -/
def writeCells (a : Nat) (b : Byte) : List Host.Cell → List Host.Cell
  | [] => if b = Memory.unlisted then [] else [(a, b)]
  | c :: cs =>
    if a < c.1 then (if b = Memory.unlisted then c :: cs else (a, b) :: c :: cs)
    else if a = c.1 then (if b = Memory.unlisted then cs else (a, b) :: cs)
    else c :: writeCells a b cs

/-- `HB[a] <- b` (00_scope.md R9). -/
def Memory.write (m : Memory) (a : Nat) (b : Byte) : Memory := { cells := writeCells a b m.cells }

/-- `MemRead(a, n) = HB[a..a+n)` (00_scope.md R9). -/
def Memory.readBytes (m : Memory) (a : Nat) : Nat → List Byte
  | 0 => []
  | n + 1 => m.read a :: m.readBytes (a + 1) n

/-- `MemWrite(a, len s, s)`: `HB[a+k] <- s[k]` for each `k` (00_scope.md R9). -/
def Memory.writeBytes (m : Memory) (a : Nat) : List Byte → Memory
  | [] => m
  | b :: bs => (m.write a b).writeBytes (a + 1) bs

/-! ### Bits of a host buffer -/

/-- The mask of bit position `p` inside its byte, MSB first: `0x80 >> (p mod 8)` (00_scope.md R8). -/
def bitMask (p : Nat) : Byte := 0x80#8 >>> (p % 8)

/-- `bit(p) = (HB[p div 8] >> (7 - p mod 8)) and 1` (20_memory.md R63, 40_bitcursor.md R113). -/
def Memory.bit (m : Memory) (p : Nat) : Nat := (m.read (p / 8)).toNat / 2 ^ (7 - p % 8) % 2

/-- `getbits(o, w)`, the sum of `bit(o + k) * 2^(w-1-k)` over `k` in `0..w-1` (40_bitcursor.md R113), summed from the
most significant bit. -/
def Memory.getBits (m : Memory) (o : Nat) : Nat → Nat
  | 0 => 0
  | w + 1 => 2 * m.getBits o w + m.bit (o + w)

/-- Bit `p` of the buffer set to `v`, the other bits of its byte kept (40_bitcursor.md R115). -/
def Memory.putBit (m : Memory) (p : Nat) (v : Bool) : Memory :=
  m.write (p / 8) ((m.read (p / 8) &&& (0xFF#8 ^^^ bitMask p)) ||| (if v then bitMask p else 0))

/-- The first `k` rounds of `putbits(o, w, u)`: round `k` sets bit `o + k` to `(u >> (w-1-k)) and 1`
(40_bitcursor.md R115). -/
def Memory.putFirstBits (m : Memory) (o w u : Nat) : Nat → Memory
  | 0 => m
  | k + 1 => (m.putFirstBits o w u k).putBit (o + k) (u.testBit (w - 1 - k))

/-- `putbits(o, w, u)` (40_bitcursor.md R115). -/
def Memory.putBits (m : Memory) (o w u : Nat) : Memory := m.putFirstBits o w u w

/-- Whole octets written one after another from bit offset `o`, each by `putbits(_, 8, _)` (41_extensible_field.md R160). -/
def Memory.putOctets (m : Memory) (o : Nat) : List Byte → Memory
  | [] => m
  | b :: bs => (m.putBits o 8 b.toNat).putOctets (o + 8) bs

/-! ### Byte sequences and byte order -/

/-- `s[off..off+n)` (00_scope.md R9). -/
def slice (s : List Byte) (off n : Nat) : List Byte := (s.drop off).take n

/-- `s` with `s[off..off+len v) <- v` (00_scope.md R9). -/
def splice (s : List Byte) (off : Nat) (v : List Byte) : List Byte :=
  s.take off ++ v ++ s.drop (off + v.length)

/-- The big-endian value of a byte sequence (43_frame_parser.md R223). -/
def beValue (s : List Byte) : Nat := s.foldl (fun v b => v * 256 + b.toNat) 0

/-- The value of a byte sequence in the given order (20_memory.md R64). -/
def valueOf : ByteOrder → List Byte → Nat
  | .be, s => beValue s
  | .le, s => beValue s.reverse

/-- `field(h, off, n, order)` (43_frame_parser.md R223). -/
def fieldValue (h : List Byte) (off n : Nat) (order : ByteOrder) : Nat := valueOf order (slice h off n)

/-- `be_bytes(v, n)`: the low `n` bytes of `v`, most significant first (43_frame_parser.md R227). -/
def beBytes (v : Nat) : Nat → List Byte
  | 0 => []
  | n + 1 => beBytes (v / 256) n ++ [BitVec.ofNat 8 v]

/-- The `n` bytes of `v` in the given order (43_frame_parser.md R242). -/
def bytesOf (order : ByteOrder) (v n : Nat) : List Byte :=
  match order with
  | .be => beBytes v n
  | .le => (beBytes v n).reverse

/-! ### Responses and errors -/

/-- `respond(S_OK, value)` with every other field at its default (00_scope.md R9, 10_state.md R21). -/
def Response.ok (value : DataWord) : Response := { status := .sOk, value := value, bytes := [], frame := none }

/-- The response of an error: info word in `value`, no bytes, no frame (60_exceptions.md R301, R302). -/
def Response.error (e : Status) (info : DataWord) : Response :=
  { status := e, value := info, bytes := [], frame := none }

/-- A command that completes: its response is returned (10_state.md R21). -/
def State.respond (s : State) (r : Response) : Host.Outcome State Fault Refusal := .next { s with rsp := r }

/-- `raise E(info)` (60_exceptions.md R302): the FPCE's one exception operation. It saves nothing and transfers control
nowhere (R307): only the response changes. There is no return from it (R307). -/
def State.raise (s : State) (e : Status) (info : DataWord) : Host.Outcome State Fault Refusal :=
  s.respond (Response.error e info)

/-- `zext_64(v)` of a natural (00_scope.md R9). -/
def zext64 (v : Nat) : DataWord := BitVec.ofNat 64 v

/-- `sext_64(v, w)` as its 64-bit two's-complement image: `v - 2^w` where bit `w-1` of `v` is 1, else `v` (00_scope.md R9). -/
def sext64 (v w : Nat) : DataWord :=
  BitVec.ofInt 64 (if v.testBit (w - 1) then (v : Int) - 2 ^ w else (v : Int))

/-- What a command does to the instance it is issued to: it completes with a new instance and a response, or it raises an
error, which by R302 comes with no new state. -/
inductive Reply where
  | done (x : Instance) (r : Response)
  | error (e : Status) (info : DataWord)
deriving DecidableEq, Repr

/-- The issuing instance replaced (60_exceptions.md R312). -/
def State.setInst (s : State) (x : Instance) : State := { s with insts := s.insts.set s.port x }

/-- The registry replaced (10_state.md R50). -/
def State.setReg (s : State) (g : Registry) : State := { s with reg := g }

/-- The instance whose command port the command came by (60_exceptions.md R312), handed to `f`. -/
def State.withInst (s : State) (f : Instance → Host.Outcome State Fault Refusal) :
    Host.Outcome State Fault Refusal :=
  match s.insts[s.port]? with
  | some x => f x
  | none => .fault (.noSuchPort s.port)

/-- A reply carried out: the issuing instance replaced and the response returned, or the error raised. -/
def State.commit (s : State) : Reply → Host.Outcome State Fault Refusal
  | .done x r => (s.setInst x).respond r
  | .error e info => s.raise e info

/-- A command that acts on the issuing instance alone. -/
def State.runInst (s : State) (f : Instance → Reply) : Host.Outcome State Fault Refusal :=
  s.withInst (fun x => s.commit (f x))

/-- The profile of the issuing instance, `PROFILES[PROTO_ID[k]]`, handed to `f` (00_scope.md R6). -/
def State.withProfile (s : State) (f : Profile → Host.Outcome State Fault Refusal) :
    Host.Outcome State Fault Refusal :=
  match s.cfg.instProfile? s.port with
  | some p => f p
  | none => .refused .noProfile

/-! ### The host's inputs -/

/-- A host write of one byte of `HB` of instance `k` (20_memory.md R60, R72; 70_reset_and_hazards.md R352). -/
def State.hostWrite (s : State) (k a : Nat) (b : Byte) : Host.Outcome State Fault Refusal :=
  match s.insts[k]? with
  | some x =>
    if a < s.cfg.hbCap then .next { s with insts := s.insts.set k { x with hb := x.hb.write a b } }
    else .fault (.hostAddress a)
  | none => .fault (.noSuchPort k)

/-- A hardware reset (70_reset_and_hazards.md R340, 10_state.md R54): every register at its reset value, the host buffers
and the static configuration kept. The model's output fields `port` and `rsp` go back to their launch values
(log 5, DESIGN CHOICE). -/
def State.hardReset (s : State) : State :=
  { State.launch s.cfg (s.insts.map (fun x => x.hb)) with inbox := s.inbox }

end Sys2Proof.Machine
end

