-- ==== Sys2Proof/Machine/Flags.lean ====
section
/-! DEFINITION. Status codes (60_exceptions.md R300) and the status bits of 10_state.md R52 with what sets and clears each:
FO_VALID, CUR_OPEN, CUR_MODE, REG_SEALED, the push result. There is no condition-code register. -/

namespace Sys2Proof.Machine

/-- The number of a status (60_exceptions.md R300). -/
def Status.code : Status → BitVec 8
  | .sOk => 0x00
  | .sUnrecognized => 0x01
  | .eInsufficientBuffer => 0x81
  | .eInvalidWidth => 0x82
  | .eNoCursor => 0x83
  | .eReadOnly => 0x84
  | .eFxMalformed => 0x85
  | .eFxTruncated => 0x86
  | .eFxCapacity => 0x87
  | .eBadKind => 0x88
  | .eRange => 0x89
  | .eWrapLength => 0x8A
  | .eRegSealed => 0x8B
  | .eRegNotSealed => 0x8C
  | .eRegDuplicate => 0x8D
  | .eRegFull => 0x8E
  | .eNoFrame => 0x8F
  | .eIllegalCommand => 0x90
  | .eBadId => 0x91

/-- A code with bit 7 = 1 is an error (60_exceptions.md R300). -/
def Status.isError (e : Status) : Bool := (Status.code e).getLsbD 7

/-- The numeric value of a status bit. -/
def bit01 (b : Bool) : DataWord := if b then 1 else 0

/-- `FO_VALID <- 0`; `FO` keeps the last frame (10_state.md R41, 43_frame_parser.md R210). -/
def FrameOutput.drop (o : FrameOutput) : FrameOutput := { o with valid := false }

/-- What a push leaves on the frame output: the emitted frame with `FO_VALID = 1`, or `FO_VALID = 0`
(10_state.md R41, 43_frame_parser.md R210). -/
def FrameOutput.afterPush (o : FrameOutput) : Option Frame → FrameOutput
  | some f => { valid := true, frame := f }
  | none => o.drop

/-- `CUR_OPEN <- 1; CUR_MODE <- mode; CUR_LEN <- L; CUR_OFF <- 0` (40_bitcursor.md R110). -/
def CursorUnit.view (mode : ViewMode) (len : Nat) : CursorUnit := { isOpen := true, mode := mode, len := len, off := 0 }

/-- `REG_SEALED <- 1` (44_registry_dispatch.md R264). -/
def Registry.seal (g : Registry) : Registry := { g with isSealed := true }

end Sys2Proof.Machine
end

