-- ==== Sys2Proof/Decode.lean ====
section
/-! DEFINITION. The decoder of command words (30_encoding.md R80 to R91), total on every (CMD, DATA) pair and rejecting
by name; after it the encoder, written from the same rows of R87; and the match/mask rows of
spec/opcode_table.json, the second form R90 gives of the same rule. -/

namespace Sys2Proof

/-- Why a command word is illegal (30_encoding.md R90). Both are answered `E_ILLEGAL_COMMAND`. -/
inductive Illegal where
  /-- `OPC` is not in the table of R87. -/
  | unassignedOpcode (opc : BitVec 8)
  /-- A bit that R87 marks reserved unconditionally is not zero. -/
  | reservedBits (cmd : CmdWord)
deriving DecidableEq, Repr

/-- `OPC = CMD[31:24]` (30_encoding.md R80). -/
def opcOf (cmd : CmdWord) : BitVec 8 := cmd.extractLsb' 24 8

/-- `W = CMD[23:16]` (30_encoding.md R80). -/
def wOf (cmd : CmdWord) : BitVec 8 := cmd.extractLsb' 16 8

/-- `IMM = CMD[15:0]` (30_encoding.md R80). -/
def immOf (cmd : CmdWord) : BitVec 16 := cmd.extractLsb' 0 16

/-- The command word with the given fields (30_encoding.md R80). -/
def mkCmd (opc w : BitVec 8) (imm : BitVec 16) : CmdWord := (opc ++ w ++ imm : BitVec (8 + 8 + 16))

/-- `i` where the row's reserved bits are zero, else the rejection of R90. -/
def whenZero (reservedAreZero : Bool) (cmd : CmdWord) (i : Instr) : Except Illegal Instr :=
  if reservedAreZero then .ok i else .error (.reservedBits cmd)

/-- `mode = W[0]` of CUR.OPEN (30_encoding.md R87). -/
def modeOfBit (b : BitVec 1) : ViewMode := if b = 1 then .rw else .ro

/-- `src = W[1]` of CUR.OPEN, with `L = DATA[31:0]` for the host buffer (30_encoding.md R85, R87). -/
def sourceOfBit (b : BitVec 1) (data : DataWord) : ViewSource :=
  if b = 1 then .frameOutput else .hostBuffer (data.extractLsb' 0 32)

/-- The decoder (30_encoding.md R87): one line per row, the row's reserved bits checked. Kinds 3 to 15, widths and id
lengths out of range and the reserved bits that depend on an operand are no rejection here (R82, R86, R88;
60_exceptions.md R305). -/
def decode (cmd : CmdWord) (data : DataWord) : Except Illegal Instr :=
  let w := wOf cmd
  let imm := immOf cmd
  let noOperand := w == 0 && imm == 0
  match opcOf cmd with
  | 0x00#8 => whenZero noOperand cmd .nop
  | 0x10#8 => whenZero (w.extractLsb' 2 6 == 0 && imm == 0) cmd
      (.curOpen (modeOfBit (w.extractLsb' 0 1)) (sourceOfBit (w.extractLsb' 1 1) data))
  | 0x11#8 => whenZero noOperand cmd .curClose
  | 0x12#8 => whenZero (imm == 0) cmd (.curRdu w)
  | 0x13#8 => whenZero (imm == 0) cmd (.curRds w)
  | 0x14#8 => whenZero (imm == 0) cmd (.curWru w data)
  | 0x15#8 => whenZero (imm == 0) cmd (.curWrs w data)
  | 0x16#8 => whenZero noOperand cmd .curRdb8
  | 0x17#8 => whenZero noOperand cmd .curRdb16
  | 0x18#8 => whenZero noOperand cmd .curRdb32
  | 0x19#8 => whenZero noOperand cmd (.curWrb8 data)
  | 0x1A#8 => whenZero noOperand cmd (.curWrb16 data)
  | 0x1B#8 => whenZero noOperand cmd (.curWrb32 data)
  | 0x1C#8 => whenZero noOperand cmd (.curSkip data)
  | 0x1D#8 => whenZero noOperand cmd .curTell
  | 0x20#8 => whenZero noOperand cmd .fxClear
  | 0x21#8 => whenZero (w == 0) cmd (.fxGet imm)
  | 0x22#8 => whenZero (w.extractLsb' 1 7 == 0) cmd (.fxSet (w.extractLsb' 0 1 == 1) imm)
  | 0x23#8 => whenZero noOperand cmd .fxDeser
  | 0x24#8 => whenZero noOperand cmd .fxSer
  | 0x25#8 => whenZero noOperand cmd .fxSize
  | 0x30#8 => whenZero (w.extractLsb' 4 4 == 0 && imm == 0) cmd
      (.ckCompute (w.extractLsb' 0 4) (data.extractLsb' 0 32) (data.extractLsb' 32 32))
  | 0x31#8 => whenZero (w.extractLsb' 5 3 == 0 && imm == 0) cmd
      (.ckFormat (w.extractLsb' 4 1 == 1) (w.extractLsb' 0 4) (data.extractLsb' 0 16))
  | 0x32#8 => whenZero (w.extractLsb' 4 4 == 0) cmd
      (.ckCheck (w.extractLsb' 0 4) imm (data.extractLsb' 0 32) (data.extractLsb' 32 32))
  | 0x40#8 => whenZero (w == 0 && imm.extractLsb' 8 8 == 0) cmd (.fpPush (imm.extractLsb' 0 8))
  | 0x41#8 => whenZero noOperand cmd .fpReset
  | 0x42#8 => whenZero (imm == 0) cmd (.fpWrap w (data.extractLsb' 0 32))
  | 0x50#8 => whenZero (imm.extractLsb' 4 4 == 0) cmd
      (.regAdd w (imm.extractLsb' 8 8) (imm.extractLsb' 0 4) data)
  | 0x51#8 => whenZero noOperand cmd .regSeal
  | 0x52#8 => whenZero (imm.extractLsb' 4 12 == 0) cmd (.regLookup w (imm.extractLsb' 0 4) data)
  | 0x53#8 => whenZero noOperand cmd .regDispatch
  | opc => .error (.unassignedOpcode opc)

/-! ### The encoder -/

/-- The `W` field of CUR.OPEN: `W[7:2] = 0`, `W[1] = src`, `W[0] = mode` (30_encoding.md R87). -/
def openField (mode : ViewMode) (src : ViewSource) : BitVec 8 :=
  let srcBit : BitVec 1 := match src with
    | .hostBuffer _ => 0
    | .frameOutput => 1
  let modeBit : BitVec 1 := match mode with
    | .ro => 0
    | .rw => 1
  (0#6 ++ srcBit ++ modeBit : BitVec (6 + 1 + 1))

/-- The command word of an instruction (30_encoding.md R87). -/
def encodeCmd : Instr → CmdWord
  | .nop => mkCmd 0x00 0 0
  | .curOpen mode src => mkCmd 0x10 (openField mode src) 0
  | .curClose => mkCmd 0x11 0 0
  | .curRdu w => mkCmd 0x12 w 0
  | .curRds w => mkCmd 0x13 w 0
  | .curWru w _ => mkCmd 0x14 w 0
  | .curWrs w _ => mkCmd 0x15 w 0
  | .curRdb8 => mkCmd 0x16 0 0
  | .curRdb16 => mkCmd 0x17 0 0
  | .curRdb32 => mkCmd 0x18 0 0
  | .curWrb8 _ => mkCmd 0x19 0 0
  | .curWrb16 _ => mkCmd 0x1A 0 0
  | .curWrb32 _ => mkCmd 0x1B 0 0
  | .curSkip _ => mkCmd 0x1C 0 0
  | .curTell => mkCmd 0x1D 0 0
  | .fxClear => mkCmd 0x20 0 0
  | .fxGet index => mkCmd 0x21 0 index
  | .fxSet v index => mkCmd 0x22 (0#7 ++ BitVec.ofBool v : BitVec (7 + 1)) index
  | .fxDeser => mkCmd 0x23 0 0
  | .fxSer => mkCmd 0x24 0 0
  | .fxSize => mkCmd 0x25 0 0
  | .ckCompute kind _ _ => mkCmd 0x30 (0#4 ++ kind : BitVec (4 + 4)) 0
  | .ckFormat order kind _ => mkCmd 0x31 (0#3 ++ BitVec.ofBool order ++ kind : BitVec (3 + 1 + 4)) 0
  | .ckCheck kind rx _ _ => mkCmd 0x32 (0#4 ++ kind : BitVec (4 + 4)) rx
  | .fpPush b => mkCmd 0x40 0 (0#8 ++ b : BitVec (8 + 8))
  | .fpReset => mkCmd 0x41 0 0
  | .fpWrap start _ => mkCmd 0x42 start 0
  | .regAdd proto handle m _ => mkCmd 0x50 proto (handle ++ 0#4 ++ m : BitVec (8 + 4 + 4))
  | .regSeal => mkCmd 0x51 0 0
  | .regLookup proto m _ => mkCmd 0x52 proto (0#12 ++ m : BitVec (12 + 4))
  | .regDispatch => mkCmd 0x53 0 0

/-- A 64-bit operand from its two halves (30_encoding.md R85). -/
def mkData (hi lo : BitVec 32) : DataWord := (hi ++ lo : BitVec (32 + 32))

/-- The data operand of an instruction, with the bits the command ignores at 0 (30_encoding.md R83 to R86). -/
def encodeData : Instr → DataWord
  | .curOpen _ (.hostBuffer len) => mkData 0 len
  | .curWru _ v => v
  | .curWrs _ v => v
  | .curWrb8 v => v
  | .curWrb16 v => v
  | .curWrb32 v => v
  | .curSkip n => n
  | .ckCompute _ start count => mkData count start
  | .ckFormat _ _ v => v.setWidth 64
  | .ckCheck _ _ start count => mkData count start
  | .fpWrap _ count => mkData 0 count
  | .regAdd _ _ _ idData => idData
  | .regLookup _ _ idData => idData
  | .nop | .curOpen _ .frameOutput | .curClose | .curRdu _ | .curRds _ | .curRdb8 | .curRdb16
  | .curRdb32 | .curTell | .fxClear | .fxGet _ | .fxSet _ _ | .fxDeser | .fxSer | .fxSize
  | .fpPush _ | .fpReset | .regSeal | .regDispatch => 0

/-- The `(CMD, DATA)` pair of an instruction (30_encoding.md R92: each command assembles to exactly one pair). -/
def encode (i : Instr) : CmdWord × DataWord := (encodeCmd i, encodeData i)

/-! ### The opcode table -/

/-- The match and mask of every row of spec/opcode_table.json, in its order (30_encoding.md R90). -/
def opcodeTable : List (CmdWord × CmdWord) :=
  [(0x00000000, 0xFFFFFFFF), (0x10000000, 0xFFFCFFFF), (0x11000000, 0xFFFFFFFF), (0x12000000, 0xFF00FFFF),
   (0x13000000, 0xFF00FFFF), (0x14000000, 0xFF00FFFF), (0x15000000, 0xFF00FFFF), (0x16000000, 0xFFFFFFFF),
   (0x17000000, 0xFFFFFFFF), (0x18000000, 0xFFFFFFFF), (0x19000000, 0xFFFFFFFF), (0x1A000000, 0xFFFFFFFF),
   (0x1B000000, 0xFFFFFFFF), (0x1C000000, 0xFFFFFFFF), (0x1D000000, 0xFFFFFFFF)]
  ++ [(0x20000000, 0xFFFFFFFF), (0x21000000, 0xFFFF0000), (0x22000000, 0xFFFE0000), (0x23000000, 0xFFFFFFFF),
   (0x24000000, 0xFFFFFFFF), (0x25000000, 0xFFFFFFFF), (0x30000000, 0xFFF0FFFF), (0x31000000, 0xFFE0FFFF),
   (0x32000000, 0xFFF00000), (0x40000000, 0xFFFFFF00), (0x41000000, 0xFFFFFFFF), (0x42000000, 0xFF00FFFF),
   (0x50000000, 0xFF0000F0), (0x51000000, 0xFFFFFFFF), (0x52000000, 0xFF00FFF0), (0x53000000, 0xFFFFFFFF)]

/-- Some row of the opcode table matches the word: `(CMD and mask) = match` (30_encoding.md R90). -/
def inOpcodeTable (cmd : CmdWord) : Bool := opcodeTable.any (fun row => cmd &&& row.2 == row.1)

/-! ### The words as the opcode table numbers their bits -/

/-- The pair a table word stands for: CMD is bits 31..0 and DATA counts on from it, bits 95..32; bits from `nbits` up
are 0 (30_encoding.md R80, R81; log 14, DEDUCED). -/
def wordsOfTableWord (nbits w : Nat) : CmdWord × DataWord :=
  let bits := w % 2 ^ nbits
  (BitVec.ofNat 32 bits, BitVec.ofNat 64 (bits / 2 ^ 32))

/-- The instruction the decoder reads from a table word, or none where it rejects the word. -/
def decodeTableWord (nbits w : Nat) : Option Instr :=
  match decode (wordsOfTableWord nbits w).1 (wordsOfTableWord nbits w).2 with
  | .ok i => some i
  | .error _ => none

end Sys2Proof
end

