-- ==== Sys2Proof/Machine/Operands.lean ====
section
/-! DEFINITION. Operand assembly (30_encoding.md R82 to R86, R88) and the info word of an illegal command (R90). -/

namespace Sys2Proof.Machine

/-- The checksum kinds (30_encoding.md R88). -/
inductive CkKind where
  | xor8
  | fletcher8
  | crc16
deriving DecidableEq, Repr

/-- The kind a code names; codes 3 to 15 name none (30_encoding.md R88). -/
def kindOfCode (code : BitVec 4) : Option CkKind :=
  if code = 0 then some .xor8
  else if code = 1 then some .fletcher8
  else if code = 2 then some .crc16
  else none

/-- `id[k] = DATA[63-8k : 56-8k]` (30_encoding.md R86). -/
def idByte (idData : DataWord) (k : Nat) : Byte := idData.extractLsb' (56 - 8 * k) 8

/-- The message-id operand: the first `m` bytes of DATA, most significant first, for `m <= ID_MAX` (30_encoding.md R86). -/
def idOperand (m : BitVec 4) (idData : DataWord) : List Byte := (List.range m.toNat).map (idByte idData)

/-- The info word of `E_ILLEGAL_COMMAND`, `zext_64(CMD)` (30_encoding.md R90). Every bit of CMD is an operand or fixed by R87,
so the encoder gives the word back (log 10, DEDUCED). -/
def commandInfo (i : Instr) : DataWord := (encodeCmd i).setWidth 64

/-- A range operand lies inside HB: `start + n <= HB_CAP` (30_encoding.md R85, 42_checksum.md R180). -/
def rangeFits (c : Config) (start count : BitVec 32) : Bool := start.toNat + count.toNat ≤ c.hbCap

end Sys2Proof.Machine
end

