-- ==== Sys2Proof/Machine/Checksum.lean ====
section
/-! DEFINITION. The checksum algorithms and their wire forms (42_checksum.md R170 to R176) and the checksum unit's commands
(R180 to R182). The frame parser and FP.WRAP use the same functions (R183). -/

namespace Sys2Proof.Machine

/-- XOR8: the XOR of all bytes, 0 for none (42_checksum.md R170). -/
def xor8 (s : List Byte) : BitVec 8 := s.foldl (fun v b => v ^^^ b) 0

/-- One byte of FLETCHER8: `A + x`, then `B + A`, mod 256 (42_checksum.md R175). -/
def fletcherByte (ab : BitVec 8 × BitVec 8) (x : Byte) : BitVec 8 × BitVec 8 := (ab.1 + x, ab.2 + (ab.1 + x))

/-- FLETCHER8: `A * 256 + B` (42_checksum.md R175). -/
def fletcher8 (s : List Byte) : BitVec 16 :=
  let ab := s.foldl fletcherByte (0, 0)
  (ab.1 ++ ab.2 : BitVec (8 + 8))

/-- One bit of CRC16: a shift, and the polynomial 0x1021 where bit 15 was 1 (42_checksum.md R176). -/
def crcBit (c : BitVec 16) : BitVec 16 := if c.getLsbD 15 then (c <<< 1) ^^^ 0x1021 else c <<< 1

/-- `k` bits of CRC16. -/
def crcBits : Nat → BitVec 16 → BitVec 16
  | 0, c => c
  | k + 1, c => crcBits k (crcBit c)

/-- One byte of CRC16 (42_checksum.md R176). -/
def crcByte (c : BitVec 16) (x : Byte) : BitVec 16 := crcBits 8 (c ^^^ (x ++ 0#8 : BitVec (8 + 8)))

/-- CRC16: CCITT, initial value 0, no reflection, no final XOR (42_checksum.md R176). -/
def crc16 (s : List Byte) : BitVec 16 := s.foldl crcByte 0

/-- The high byte, `v[15:8]`. -/
def highByte (v : BitVec 16) : Byte := v.extractLsb' 8 8

/-- The low byte, `v[7:0]`. -/
def lowByte (v : BitVec 16) : Byte := v.extractLsb' 0 8

/-- `hexu(x)` of a nibble: upper-case digits (42_checksum.md R171). -/
def hexu (x : BitVec 4) : Byte :=
  if x.toNat ≤ 9 then BitVec.ofNat 8 (0x30 + x.toNat) else BitVec.ofNat 8 (0x41 + (x.toNat - 10))

/-- `format_xor8(v)`, high nibble first (42_checksum.md R171). -/
def formatXor8 (v : BitVec 8) : List Byte := [hexu (v.extractLsb' 4 4), hexu (v.extractLsb' 0 4)]

/-- `hexval(c)`, upper and lower case, or not a hex digit (42_checksum.md R172). -/
def hexval (c : Byte) : Option Nat :=
  if 0x30 ≤ c.toNat ∧ c.toNat ≤ 0x39 then some (c.toNat - 0x30)
  else if 0x41 ≤ c.toNat ∧ c.toNat ≤ 0x46 then some (c.toNat - 0x41 + 10)
  else if 0x61 ≤ c.toNat ∧ c.toNat ≤ 0x66 then some (c.toNat - 0x61 + 10)
  else none

/-- The two bytes of a 16-bit checksum: high first for big-endian, low first for little-endian (42_checksum.md R176). -/
def wire16 (order : ByteOrder) (v : BitVec 16) : List Byte :=
  match order with
  | .be => [highByte v, lowByte v]
  | .le => [lowByte v, highByte v]

/-- `compute(bytes)` of a kind, as a 64-bit value (42_checksum.md R180). -/
def checksumOf : CkKind → List Byte → DataWord
  | .xor8, s => (xor8 s).setWidth 64
  | .fletcher8, s => (fletcher8 s).setWidth 64
  | .crc16, s => (crc16 s).setWidth 64

/-- `format(checksum_value)` of a kind (42_checksum.md R181). -/
def formatOf (kind : CkKind) (order : Bool) (v : BitVec 16) : List Byte :=
  match kind with
  | .xor8 => formatXor8 (lowByte v)
  | .fletcher8 => wire16 .be v
  | .crc16 => wire16 (if order then .be else .le) v

/-- CK.COMPUTE (42_checksum.md R180). -/
def execCkCompute (kind : BitVec 4) (start count : BitVec 32) (s : State) : Host.Outcome State Fault Refusal :=
  s.runInst (fun x =>
    match kindOfCode kind with
    | none => .error .eBadKind (kind.setWidth 64)
    | some k =>
      if !rangeFits s.cfg start count then .error .eRange (start.setWidth 64)
      else .done x (Response.ok (checksumOf k (x.hb.readBytes start.toNat count.toNat))))

/-- CK.FORMAT (42_checksum.md R181): the kind is checked before the order bit. -/
def execCkFormat (order : Bool) (kind : BitVec 4) (value : BitVec 16) (s : State) :
    Host.Outcome State Fault Refusal :=
  match kindOfCode kind with
  | none => s.raise .eBadKind (kind.setWidth 64)
  | some k =>
    if k != .crc16 && order then s.raise .eIllegalCommand (commandInfo (.ckFormat order kind value))
    else s.respond { Response.ok 0 with bytes := formatOf k order value }

/-- CK.CHECK (42_checksum.md R182): a mismatch is `S_OK` with value 0 (R177). -/
def execCkCheck (kind : BitVec 4) (rx : BitVec 16) (start count : BitVec 32) (s : State) :
    Host.Outcome State Fault Refusal :=
  s.runInst (fun x =>
    match kindOfCode kind with
    | none => .error .eBadKind (kind.setWidth 64)
    | some k =>
      if k == .xor8 && highByte rx != 0 then .error .eIllegalCommand (commandInfo (.ckCheck kind rx start count))
      else if !rangeFits s.cfg start count then .error .eRange (start.setWidth 64)
      else .done x (Response.ok
        (bit01 (checksumOf k (x.hb.readBytes start.toNat count.toNat) == rx.setWidth 64))))

end Sys2Proof.Machine
end

