-- ==== Sys2Proof/Machine/Cursor.lean ====
section
/-! DEFINITION. The cursor unit's commands (40_bitcursor.md): the access check R112, the generic reads and writes,
the byte-aligned helpers, and the position commands. -/

namespace Sys2Proof.Machine

/-- The access check (40_bitcursor.md R112): the error of the first check that fails, in the order of R305, or none. -/
def accessError (c : CursorUnit) (w : Nat) (isWrite widthChecked : Bool) : Option (Status × DataWord) :=
  if !c.isOpen then some (.eNoCursor, 0)
  else if widthChecked && !(1 ≤ w && w ≤ wMax) then some (.eInvalidWidth, zext64 w)
  else if isWrite && c.mode == .ro then some (.eReadOnly, zext64 c.off)
  else if c.off + w > 8 * c.len then some (.eInsufficientBuffer, zext64 c.off)
  else none

/-- `CUR_OFF <- CUR_OFF + w` (10_state.md R26). -/
def Instance.advance (x : Instance) (w : Nat) : Instance := { x with cur := { x.cur with off := x.cur.off + w } }

/-- A cursor read of `w` bits, its field turned into the result by `result` (40_bitcursor.md R117, R118, R121 to R123). -/
def readField (w : Nat) (widthChecked : Bool) (result : Nat → DataWord) (x : Instance) : Reply :=
  match accessError x.cur w false widthChecked with
  | some e => .error e.1 e.2
  | none => .done (x.advance w) (Response.ok (result (x.hb.getBits x.cur.off w)))

/-- A cursor write of `trunc_w(u)` in `w` bits (40_bitcursor.md R119, R120, R124 to R126). -/
def writeField (w : Nat) (widthChecked : Bool) (u : Nat) (x : Instance) : Reply :=
  match accessError x.cur w true widthChecked with
  | some e => .error e.1 e.2
  | none => .done (({ x with hb := x.hb.putBits x.cur.off w (u % 2 ^ w) } : Instance).advance w) (Response.ok 0)

/-- A view of `len` bytes is opened (40_bitcursor.md R110). -/
def Instance.openView (x : Instance) (mode : ViewMode) (len : Nat) : Reply :=
  .done { x with cur := CursorUnit.view mode len } (Response.ok (zext64 len))

/-- CUR.OPEN with source HB (40_bitcursor.md R110). -/
def openHostBuffer (c : Config) (mode : ViewMode) (len : Nat) (x : Instance) : Reply :=
  if len > c.hbCap then .error .eRange (zext64 len) else x.openView mode len

/-- CUR.OPEN with source FO (40_bitcursor.md R110): the held payload is copied into `HB[0..L)` and opened read-only. -/
def openFrameOutput (c : Config) (mode : ViewMode) (x : Instance) : Reply :=
  if mode = .rw then .error .eReadOnly 0
  else if !x.fo.valid then .error .eNoFrame 0
  else if x.fo.frame.payload.length > c.hbCap then .error .eRange (zext64 x.fo.frame.payload.length)
  else ({ x with hb := x.hb.writeBytes 0 x.fo.frame.payload } : Instance).openView mode x.fo.frame.payload.length

/-- CUR.OPEN (40_bitcursor.md R110). -/
def execCurOpen (mode : ViewMode) (src : ViewSource) (s : State) : Host.Outcome State Fault Refusal :=
  match src with
  | .hostBuffer len => s.runInst (openHostBuffer s.cfg mode len.toNat)
  | .frameOutput => s.runInst (openFrameOutput s.cfg mode)

/-- CUR.CLOSE (40_bitcursor.md R111): legal with no view open. -/
def execCurClose (s : State) : Host.Outcome State Fault Refusal :=
  s.runInst (fun x => .done { x with cur := CursorUnit.closed } (Response.ok 0))

/-- CUR.RDU (40_bitcursor.md R117). -/
def execCurRdu (w : BitVec 8) (s : State) : Host.Outcome State Fault Refusal :=
  s.runInst (readField w.toNat true zext64)

/-- CUR.RDS (40_bitcursor.md R118): the field sign-extended to 64 bits. -/
def execCurRds (w : BitVec 8) (s : State) : Host.Outcome State Fault Refusal :=
  s.runInst (readField w.toNat true (fun v => sext64 v w.toNat))

/-- CUR.WRU (40_bitcursor.md R119). -/
def execCurWru (w : BitVec 8) (value : DataWord) (s : State) : Host.Outcome State Fault Refusal :=
  s.runInst (writeField w.toNat true value.toNat)

/-- CUR.WRS (40_bitcursor.md R120): `trunc_w` of the signed value is `trunc_w(DATA)`, as R120 derives. -/
def execCurWrs (w : BitVec 8) (value : DataWord) (s : State) : Host.Outcome State Fault Refusal :=
  s.runInst (writeField w.toNat true (value.toInt % 2 ^ w.toNat).toNat)

/-- CUR.RDB8 (40_bitcursor.md R121). -/
def execCurRdb8 (s : State) : Host.Outcome State Fault Refusal := s.runInst (readField 8 false zext64)

/-- CUR.RDB16 (40_bitcursor.md R122). -/
def execCurRdb16 (s : State) : Host.Outcome State Fault Refusal := s.runInst (readField 16 false zext64)

/-- CUR.RDB32 (40_bitcursor.md R123). -/
def execCurRdb32 (s : State) : Host.Outcome State Fault Refusal := s.runInst (readField 32 false zext64)

/-- CUR.WRB8 (40_bitcursor.md R124). -/
def execCurWrb8 (value : DataWord) (s : State) : Host.Outcome State Fault Refusal :=
  s.runInst (writeField 8 false value.toNat)

/-- CUR.WRB16 (40_bitcursor.md R125). -/
def execCurWrb16 (value : DataWord) (s : State) : Host.Outcome State Fault Refusal :=
  s.runInst (writeField 16 false value.toNat)

/-- CUR.WRB32 (40_bitcursor.md R126). -/
def execCurWrb32 (value : DataWord) (s : State) : Host.Outcome State Fault Refusal :=
  s.runInst (writeField 32 false value.toNat)

/-- CUR.SKIP (40_bitcursor.md R130): allowed on a read-only view, any count that stays inside the view. -/
def execCurSkip (bits : DataWord) (s : State) : Host.Outcome State Fault Refusal :=
  s.runInst (fun x =>
    match accessError x.cur bits.toNat false false with
    | some e => .error e.1 e.2
    | none => .done (x.advance bits.toNat) (Response.ok 0))

/-- CUR.TELL (40_bitcursor.md R131). -/
def execCurTell (s : State) : Host.Outcome State Fault Refusal :=
  s.runInst (fun x => if !x.cur.isOpen then .error .eNoCursor 0 else .done x (Response.ok (zext64 x.cur.off)))

end Sys2Proof.Machine
end

