-- ==== Sys2Proof/Machine/Field.lean ====
section
/-! DEFINITION. The extensible-field unit's commands (41_extensible_field.md), over the octet layout R140 and the logical
index mapping R141. -/

namespace Sys2Proof.Machine

/-- The FX (continuation) bit of an octet, its least significant bit (41_extensible_field.md R140, 90_conflicts.md C1). -/
def fxMask : Byte := 0x01

/-- The data bits of an octet (41_extensible_field.md R140, R142). -/
def dataMask : Byte := 0xFE

/-- The mask of logical index `i` inside its octet, `0x80 >> (i mod 7)` (41_extensible_field.md R141). -/
def logicalMask (i : Nat) : Byte := 0x80#8 >>> (i % 7)

/-- `FX_OCT[j]`. -/
def FieldUnit.octet (f : FieldUnit) (j : Nat) : Byte := f.oct.getD j 0

/-- The octets of the field, `FX_OCT[0..FX_N)` (10_state.md R27). -/
def FieldUnit.octets (f : FieldUnit) : List Byte := f.oct.take f.n

/-- `logical_bit_count`, the number of indices FX.GET answers with a value (10_state.md R28). -/
def FieldUnit.logicalBitCount (f : FieldUnit) : Nat := 7 * f.n

/-- Field equality (41_extensible_field.md R142): the same octet count and the same data bits, the FX bits not compared. -/
def FieldUnit.same (f g : FieldUnit) : Bool :=
  f.n == g.n && f.octets.map (· &&& dataMask) == g.octets.map (· &&& dataMask)

/-- The result of FX.GET: 0 unset, 2 false, 3 true (41_extensible_field.md R151). -/
def FieldUnit.get (f : FieldUnit) (i : Nat) : DataWord :=
  if i / 7 ≥ f.n then 0
  else zext64 (2 + (f.octet (i / 7)).toNat / 2 ^ (7 - i % 7) % 2)

/-- The field with octets up to `j` materialized as zeros (41_extensible_field.md R152). -/
def FieldUnit.grow (f : FieldUnit) (j : Nat) : FieldUnit :=
  if j ≥ f.n then
    { n := j + 1, oct := f.oct.take f.n ++ List.replicate (j + 1 - f.n) 0 ++ f.oct.drop (j + 1) }
  else f

/-- Logical bit `i` of a materialized octet written (41_extensible_field.md R152). -/
def FieldUnit.putLogical (f : FieldUnit) (i : Nat) (v : Bool) : FieldUnit :=
  let b := (f.octet (i / 7) &&& (0xFF#8 ^^^ logicalMask i)) ||| (if v then logicalMask i else 0)
  { f with oct := f.oct.set (i / 7) b }

/-- The field after FX.SET (41_extensible_field.md R152). -/
def FieldUnit.setBit (f : FieldUnit) (i : Nat) (v : Bool) : FieldUnit := (f.grow (i / 7)).putLogical i v

/-- The field holding exactly the given octets, the stored octets past them 0 (41_extensible_field.md R155). -/
def FieldUnit.ofOctets (c : Config) (octs : List Byte) : FieldUnit :=
  { n := octs.length, oct := octs ++ List.replicate (c.fxMax - octs.length) 0 }

/-- How reading a chain ends (41_extensible_field.md R155); the number is a bit offset. -/
inductive ChainEnd where
  | complete (octs : List Byte) (off : Nat)
  | noOctet (off : Nat)
  | truncated (off : Nat)
  | malformed (off : Nat)
deriving DecidableEq, Repr

/-- The reading loop of FX.DESER (41_extensible_field.md R155): `room` more octets may be read, `octs` have been read. -/
def readChain (m : Memory) (limit : Nat) : (room : Nat) → (off : Nat) → (octs : List Byte) → ChainEnd
  | 0, off, _ => .malformed off
  | room + 1, off, octs =>
    if off + 8 > limit then (if octs.isEmpty then .noOctet off else .truncated off)
    else
      let b : Byte := BitVec.ofNat 8 (m.getBits off 8)
      if b &&& fxMask = 0 then .complete (octs ++ [b]) (off + 8)
      else readChain m limit room (off + 8) (octs ++ [b])

/-- The octets on the wire: the FX bit forced to 1 in all but the last and to 0 in the last (41_extensible_field.md R160). -/
def wireOctets : List Byte → List Byte
  | [] => []
  | [b] => [b &&& dataMask]
  | b :: c :: rest => ((b &&& dataMask) ||| fxMask) :: wireOctets (c :: rest)

/-- FX.CLEAR (41_extensible_field.md R150). -/
def execFxClear (s : State) : Host.Outcome State Fault Refusal :=
  s.runInst (fun x => .done { x with fx := FieldUnit.empty s.cfg } (Response.ok 0))

/-- FX.GET (41_extensible_field.md R151): an index beyond the field is unset, not an error. -/
def execFxGet (index : BitVec 16) (s : State) : Host.Outcome State Fault Refusal :=
  s.runInst (fun x => .done x (Response.ok (x.fx.get index.toNat)))

/-- FX.SET (41_extensible_field.md R152). -/
def execFxSet (v : Bool) (index : BitVec 16) (s : State) : Host.Outcome State Fault Refusal :=
  s.runInst (fun x =>
    if index.toNat / 7 ≥ s.cfg.fxMax then .error .eFxCapacity (zext64 index.toNat)
    else
      let f := x.fx.setBit index.toNat v
      .done { x with fx := f } (Response.ok (zext64 f.n)))

/-- FX.DESER on the issuing instance (41_extensible_field.md R155). -/
def deserialize (c : Config) (x : Instance) : Reply :=
  if !x.cur.isOpen then .error .eNoCursor 0
  else match readChain x.hb (8 * x.cur.len) c.fxMax x.cur.off [] with
    | .complete octs off =>
      .done { x with fx := FieldUnit.ofOctets c octs, cur := { x.cur with off := off } }
        (Response.ok (zext64 octs.length))
    | .noOctet off => .error .eInsufficientBuffer (zext64 off)
    | .truncated off => .error .eFxTruncated (zext64 off)
    | .malformed off => .error .eFxMalformed (zext64 off)

/-- FX.DESER (41_extensible_field.md R155). -/
def execFxDeser (s : State) : Host.Outcome State Fault Refusal := s.runInst (deserialize s.cfg)

/-- FX.SER on the issuing instance (41_extensible_field.md R160): the stored octets stay, the wire copy carries the forced
FX bits, and the empty field writes nothing. -/
def serialize (x : Instance) : Reply :=
  if !x.cur.isOpen then .error .eNoCursor 0
  else if x.cur.mode = .ro then .error .eReadOnly (zext64 x.cur.off)
  else if x.cur.off + 8 * x.fx.n > 8 * x.cur.len then .error .eInsufficientBuffer (zext64 x.cur.off)
  else .done (({ x with hb := x.hb.putOctets x.cur.off (wireOctets x.fx.octets) } : Instance).advance (8 * x.fx.n))
    (Response.ok (zext64 x.fx.n))

/-- FX.SER (41_extensible_field.md R160). -/
def execFxSer (s : State) : Host.Outcome State Fault Refusal := s.runInst serialize

/-- FX.SIZE (41_extensible_field.md R165). -/
def execFxSize (s : State) : Host.Outcome State Fault Refusal :=
  s.runInst (fun x => .done x (Response.ok (zext64 x.fx.n)))

end Sys2Proof.Machine
end

