-- ==== Sys2Proof/Machine/Nop.lean ====
section
/-! DEFINITION. NOP, the only hint (30_encoding.md R91). -/

namespace Sys2Proof.Machine

/-- NOP changes no state and responds `S_OK` (30_encoding.md R91). -/
def execNop (s : State) : Host.Outcome State Fault Refusal := s.respond (Response.ok 0)

end Sys2Proof.Machine
end

