-- ==== Sys2Proof/Machine/TextParser.lean ====
section
/-! DEFINITION. The TEXT state machine that FP.PUSH runs (43_frame_parser.md R200 to R209) on the parser unit alone. -/

namespace Sys2Proof.Machine

/-- What one byte does to the parser: its next state, the push result and the emitted frame (43_frame_parser.md R210). -/
structure PushStep where
  fp : ParserUnit
  ok : Bool
  frame : Option Frame
deriving DecidableEq, Repr

/-- A byte that emits nothing. -/
def PushStep.quiet (fp : ParserUnit) : PushStep := { fp := fp, ok := false, frame := none }

/-- `'$'` (00_scope.md R11). -/
def chDollar : Byte := 0x24
/-- `'!'` (00_scope.md R11). -/
def chBang : Byte := 0x21
/-- `'*'` (00_scope.md R11). -/
def chStar : Byte := 0x2A
/-- `','` (00_scope.md R11). -/
def chComma : Byte := 0x2C
/-- CR (00_scope.md R11). -/
def chCr : Byte := 0x0D
/-- LF (00_scope.md R11). -/
def chLf : Byte := 0x0A

/-- `b` is in `START = ('$', '!')` (43_frame_parser.md R200). -/
def isStart (b : Byte) : Bool := b == chDollar || b == chBang

/-- The bytes accumulated so far, `FP_BUF[0..FP_CNT)` (10_state.md R31). -/
def ParserUnit.accumulated (fp : ParserUnit) : List Byte := fp.buf.take fp.cnt

/-- The address field: the bytes before the first `','` (43_frame_parser.md R207). -/
def addressField : List Byte → List Byte
  | [] => []
  | b :: bs => if b = chComma then [] else b :: addressField bs

/-- `text_id(P) = P[min(ID_SKIP, c)..c)` (43_frame_parser.md R207). -/
def textId (c : Config) (p : List Byte) : List Byte := (addressField p).drop c.idSkip

/-- A start byte clears the frame in progress and begins a new one (43_frame_parser.md R201, R206). -/
def textStart (fp : ParserUnit) : ParserUnit := { fp with st := .accumulating, cnt := 0, ckrx := 0 }

/-- Back to `Sync` with the counters cleared (43_frame_parser.md R204, R205, R209). -/
def textIdle (fp : ParserUnit) : ParserUnit := { fp with st := .sync, cnt := 0, ckrx := 0 }

/-- Abort: nothing is emitted and the byte is consumed (43_frame_parser.md R209). -/
def textAbort (fp : ParserUnit) : PushStep := PushStep.quiet (textIdle fp)

/-- The frame a text payload makes (43_frame_parser.md R204, R205). -/
def textFrame (c : Config) (p : List Byte) (checksumValid : Bool) : Frame :=
  { id := textId c p, payload := p, checksumValid := checksumValid }

/-- State `Accumulating`, a byte not in `START` (43_frame_parser.md R202, R205, R208). -/
def textAccumulate (c : Config) (fp : ParserUnit) (b : Byte) : PushStep :=
  if b = chStar then PushStep.quiet { fp with st := .checksum1 }
  else if b = chCr then
    { fp := textIdle fp, ok := false,
      frame := if c.nockEmit then some (textFrame c fp.accumulated false) else none }
  else if fp.cnt = c.bufCap then textAbort fp
  else PushStep.quiet { fp with buf := fp.buf.set fp.cnt b, cnt := fp.cnt + 1 }

/-- State `Checksum1`, a byte not in `START` (43_frame_parser.md R203). -/
def textChecksum1 (fp : ParserUnit) (b : Byte) : PushStep :=
  match hexval b with
  | some h => PushStep.quiet { fp with st := .checksum2, ckrx := BitVec.ofNat 8 (h * 16) }
  | none => textAbort fp

/-- State `Checksum2`, a byte not in `START` (43_frame_parser.md R203). -/
def textChecksum2 (fp : ParserUnit) (b : Byte) : PushStep :=
  match hexval b with
  | some h => PushStep.quiet { fp with st := .expectCr, ckrx := fp.ckrx + BitVec.ofNat 8 h }
  | none => textAbort fp

/-- State `ExpectCr`, a byte not in `START` (43_frame_parser.md R204). -/
def textExpectCr (fp : ParserUnit) (b : Byte) : PushStep :=
  if b = chCr then PushStep.quiet { fp with st := .expectLf } else textAbort fp

/-- State `ExpectLf`, a byte not in `START`: the checksum is validated and the frame emitted (43_frame_parser.md R204). -/
def textExpectLf (c : Config) (fp : ParserUnit) (b : Byte) : PushStep :=
  if b = chLf then
    if xor8 fp.accumulated = fp.ckrx then
      { fp := textIdle fp, ok := true, frame := some (textFrame c fp.accumulated true) }
    else PushStep.quiet (textIdle fp)
  else textAbort fp

/-- `text_step(b)` (43_frame_parser.md R201 to R209): a start byte is taken before everything else (R206). None where
`FP_ST` is no TEXT state (10_state.md R30; log 9). -/
def textStep (c : Config) (fp : ParserUnit) (b : Byte) : Option PushStep :=
  match fp.st with
  | .sync => some (PushStep.quiet (if isStart b then textStart fp else fp))
  | .accumulating => some (if isStart b then PushStep.quiet (textStart fp) else textAccumulate c fp b)
  | .checksum1 => some (if isStart b then PushStep.quiet (textStart fp) else textChecksum1 fp b)
  | .checksum2 => some (if isStart b then PushStep.quiet (textStart fp) else textChecksum2 fp b)
  | .expectCr => some (if isStart b then PushStep.quiet (textStart fp) else textExpectCr fp b)
  | .expectLf => some (if isStart b then PushStep.quiet (textStart fp) else textExpectLf c fp b)
  | .bSync _ | .bHeader | .bPayload | .bTrailer => none

end Sys2Proof.Machine
end

