-- ==== Sys2Proof/Machine/BinaryParser.lean ====
section
/-! DEFINITION. The BINARY state machine that FP.PUSH runs (43_frame_parser.md R222 to R227) on the parser unit alone. -/

namespace Sys2Proof.Machine

/-- `babort()` (43_frame_parser.md R226): back to `BSync(0)`, the counters 0. -/
def binIdle (fp : ParserUnit) : ParserUnit := { fp with st := .bSync 0, hcnt := 0, cnt := 0, plen := 0, tcnt := 0 }

/-- The raw value of the length field of a header (43_frame_parser.md R223). -/
def rawLength (p : BinProfile) (hdr : List Byte) : Nat := fieldValue hdr p.lenOff p.lenBytes p.lenOrder

/-- `bin_id(h)` (43_frame_parser.md R227). -/
def binId (p : BinProfile) (hdr : List Byte) : List Byte :=
  beBytes (fieldValue hdr p.idOff p.idBytes p.idOrder &&& p.idMask) p.idBytes

/-- The bytes a checksum covers, `HDR[CK_START..HLEN) ++ payload` (43_frame_parser.md R220, R226). -/
def covered (p : BinProfile) (hdr payload : List Byte) : List Byte := hdr.drop p.ckStart ++ payload

/-- The checksum of a binary frame (43_frame_parser.md R226). -/
def binChecksum (p : BinProfile) (s : List Byte) : BitVec 16 :=
  match p.ckKind with
  | .fletcher8 => fletcher8 s
  | .crc16 => crc16 s

/-- The byte order of the two checksum bytes on the wire: FLETCHER8 always high first, CRC16 by `CK_ORDER`
(43_frame_parser.md R226, R242). -/
def ckWireOrder (p : BinProfile) : ByteOrder :=
  match p.ckKind with
  | .fletcher8 => .be
  | .crc16 => p.ckOrder

/-- The two received checksum bytes (43_frame_parser.md R226). -/
def receivedChecksum (p : BinProfile) (fp : ParserUnit) : List Byte :=
  match p.ckLoc with
  | .trailer => fp.trl.take 2
  | .header => slice fp.hdr p.ckOff 2

/-- `bvalidate()` (43_frame_parser.md R226). -/
def binValidate (p : BinProfile) (fp : ParserUnit) : PushStep :=
  let payload := fp.buf.take fp.plen
  if (binChecksum p (covered p (fp.hdr.take p.hlen) payload)).toNat = valueOf (ckWireOrder p) (receivedChecksum p fp) then
    { fp := binIdle fp, ok := true,
      frame := some { id := binId p fp.hdr, payload := payload, checksumValid := true } }
  else PushStep.quiet (binIdle fp)

/-- `end_payload()` (43_frame_parser.md R224). -/
def binEndPayload (p : BinProfile) (fp : ParserUnit) : PushStep :=
  match p.ckLoc with
  | .trailer => PushStep.quiet { fp with st := .bTrailer, tcnt := 0 }
  | .header => binValidate p fp

/-- State `BSync(k)` (43_frame_parser.md R222). -/
def binSync (p : BinProfile) (k : Nat) (fp : ParserUnit) (b : Byte) : PushStep :=
  if p.sync[k]? = some b then
    if k + 1 = p.sync.length then PushStep.quiet { fp with st := .bHeader, hcnt := 0, cnt := 0, tcnt := 0 }
    else PushStep.quiet { fp with st := .bSync (k + 1) }
  else if k > 0 ∧ p.sync[0]? = some b then PushStep.quiet { fp with st := .bSync 1 }
  else PushStep.quiet { fp with st := .bSync 0 }

/-- A complete header (43_frame_parser.md R223). -/
def binHeaderDone (c : Config) (p : BinProfile) (fp : ParserUnit) : PushStep :=
  let raw := rawLength p fp.hdr
  if raw < p.lenAdj ∨ raw % p.lenMult ≠ 0 ∨ raw - p.lenAdj > c.bufCap then PushStep.quiet (binIdle fp)
  else if raw - p.lenAdj = 0 then binEndPayload p { fp with plen := 0 }
  else PushStep.quiet { fp with plen := raw - p.lenAdj, st := .bPayload }

/-- State `BHeader` (43_frame_parser.md R223). -/
def binHeader (c : Config) (p : BinProfile) (fp : ParserUnit) (b : Byte) : PushStep :=
  let fp' := { fp with hdr := fp.hdr.set fp.hcnt b, hcnt := fp.hcnt + 1 }
  if fp'.hcnt = p.hlen then binHeaderDone c p fp' else PushStep.quiet fp'

/-- State `BPayload` (43_frame_parser.md R224): a sync byte inside the payload is stored like any other. -/
def binPayload (p : BinProfile) (fp : ParserUnit) (b : Byte) : PushStep :=
  let fp' := { fp with buf := fp.buf.set fp.cnt b, cnt := fp.cnt + 1 }
  if fp'.cnt = fp'.plen then binEndPayload p fp' else PushStep.quiet fp'

/-- State `BTrailer` (43_frame_parser.md R225). -/
def binTrailer (p : BinProfile) (fp : ParserUnit) (b : Byte) : PushStep :=
  let fp' := { fp with trl := fp.trl.set fp.tcnt b, tcnt := fp.tcnt + 1 }
  if fp'.tcnt = 2 then binValidate p fp' else PushStep.quiet fp'

/-- `bin_step(b)` (43_frame_parser.md R222 to R227). None where `FP_ST` is no BINARY state (10_state.md R30; log 9). -/
def binStep (c : Config) (p : BinProfile) (fp : ParserUnit) (b : Byte) : Option PushStep :=
  match fp.st with
  | .bSync k => some (binSync p k fp b)
  | .bHeader => some (binHeader c p fp b)
  | .bPayload => some (binPayload p fp b)
  | .bTrailer => some (binTrailer p fp b)
  | .sync | .accumulating | .checksum1 | .checksum2 | .expectCr | .expectLf => none

end Sys2Proof.Machine
end

