-- ==== Sys2Proof/Machine/Parser.lean ====
section
/-! DEFINITION. The frame-parser unit's commands FP.PUSH, FP.RESET and FP.WRAP, and outbound framing
(43_frame_parser.md R210, R211, R240 to R242). -/

namespace Sys2Proof.Machine

/-- The parser step of the instance's profile (43_frame_parser.md R210). -/
def parserStep (c : Config) (p : Profile) (fp : ParserUnit) (b : Byte) : Option PushStep :=
  match p with
  | .text => textStep c fp b
  | .binary bp => binStep c bp fp b

/-- The response of FP.PUSH: the push result in `value`, the emitted frame (43_frame_parser.md R210). -/
def PushStep.response (r : PushStep) : Response := { Response.ok (bit01 r.ok) with frame := r.frame }

/-- The instance after a push: the parser's next state, and FO_VALID with FO as the push leaves them (R210). -/
def Instance.afterPush (x : Instance) (r : PushStep) : Instance :=
  { x with fp := r.fp, fo := x.fo.afterPush r.frame }

/-- FP.PUSH (43_frame_parser.md R210). -/
def execFpPush (b : Byte) (s : State) : Host.Outcome State Fault Refusal :=
  s.withInst (fun x => s.withProfile (fun p =>
    match parserStep s.cfg p x.fp b with
    | some r => s.commit (.done (x.afterPush r) r.response)
    | none => .fault .foreignParserState))

/-- The parser registers after FP.RESET (43_frame_parser.md R211). -/
def ParserUnit.reset (p : Profile) (fp : ParserUnit) : ParserUnit :=
  { st := ParserState.start p, buf := List.replicate fp.buf.length 0, cnt := 0, ckrx := 0,
    hdr := List.replicate fp.hdr.length 0, hcnt := 0, plen := 0, trl := List.replicate fp.trl.length 0, tcnt := 0 }

/-- FP.RESET (43_frame_parser.md R211): `FO_VALID <- 0` and the parser registers cleared, nothing else. -/
def execFpReset (s : State) : Host.Outcome State Fault Refusal :=
  s.withInst (fun x => s.withProfile (fun p =>
    s.commit (.done { x with fp := x.fp.reset p, fo := x.fo.drop } (Response.ok 0))))

/-- `wrap_text(st, P)` (43_frame_parser.md R241). -/
def wrapText (st : Byte) (p : List Byte) : List Byte :=
  [st] ++ p ++ [chStar] ++ formatXor8 (xor8 p) ++ [chCr, chLf]

/-- The raw length-field value of a payload (43_frame_parser.md R242). -/
def wrapRaw (p : BinProfile) (payload : List Byte) : Nat := payload.length + p.lenAdj

/-- The header template with the length field filled in (43_frame_parser.md R242). -/
def wrapLengthHeader (p : BinProfile) (template payload : List Byte) : List Byte :=
  splice template p.lenOff (bytesOf p.lenOrder (wrapRaw p payload) p.lenBytes)

/-- The two wire bytes of the checksum of a framed payload (43_frame_parser.md R242). -/
def wrapChecksum (p : BinProfile) (template payload : List Byte) : List Byte :=
  wire16 (ckWireOrder p) (binChecksum p (covered p (wrapLengthHeader p template payload) payload))

/-- The header with the length and, for a HEADER profile, the checksum filled in (43_frame_parser.md R242). -/
def wrapHeader (p : BinProfile) (template payload : List Byte) : List Byte :=
  match p.ckLoc with
  | .header => splice (wrapLengthHeader p template payload) p.ckOff (wrapChecksum p template payload)
  | .trailer => wrapLengthHeader p template payload

/-- `TRL` of a framed payload: the checksum for a TRAILER profile, empty otherwise (30_encoding.md R96). -/
def wrapTrailer (p : BinProfile) (template payload : List Byte) : List Byte :=
  match p.ckLoc with
  | .header => []
  | .trailer => wrapChecksum p template payload

/-- `wrap_bin(T, P)`, or none where the length field cannot hold the raw length (43_frame_parser.md R242). -/
def wrapBin (p : BinProfile) (template payload : List Byte) : Option (List Byte) :=
  if wrapRaw p payload ≥ 2 ^ (8 * p.lenBytes) ∨ wrapRaw p payload % p.lenMult ≠ 0 then none
  else some (p.sync ++ wrapHeader p template payload ++ payload ++ wrapTrailer p template payload)

/-- The response of FP.WRAP: `value = len(out), bytes = out` (43_frame_parser.md R240). -/
def framedResponse (out : List Byte) : Response := { Response.ok (zext64 out.length) with bytes := out }

/-- FP.WRAP under a TEXT profile (43_frame_parser.md R240). -/
def wrapTextReply (c : Config) (start : Byte) (n : Nat) (x : Instance) : Reply :=
  if !isStart start then .error .eBadKind (start.setWidth 64)
  else if n > c.hbCap ∨ n > c.bufCap then .error .eRange (zext64 n)
  else .done x (framedResponse (wrapText start (x.hb.readBytes 0 n)))

/-- FP.WRAP under a BINARY profile (43_frame_parser.md R240, R242). -/
def wrapBinReply (c : Config) (p : BinProfile) (start : Byte) (count : BitVec 32) (x : Instance) : Reply :=
  let n := count.toNat
  if start != 0 then .error .eIllegalCommand (commandInfo (.fpWrap start count))
  else if n > c.hbCap ∨ n < p.hlen ∨ n - p.hlen > c.bufCap then .error .eRange (zext64 n)
  else
    let payload := x.hb.readBytes p.hlen (n - p.hlen)
    match wrapBin p (x.hb.readBytes 0 p.hlen) payload with
    | some out => .done x (framedResponse out)
    | none => .error .eWrapLength (zext64 (wrapRaw p payload))

/-- FP.WRAP (43_frame_parser.md R240): HB and the parser state stay. -/
def execFpWrap (start : Byte) (count : BitVec 32) (s : State) : Host.Outcome State Fault Refusal :=
  s.withInst (fun x => s.withProfile (fun p =>
    s.commit (match p with
      | .text => wrapTextReply s.cfg start count.toNat x
      | .binary bp => wrapBinReply s.cfg bp start count x)))

end Sys2Proof.Machine
end

