-- ==== Sys2Proof/Machine/Registry.lean ====
section
/-! DEFINITION. The registry's commands and the key match (44_registry_dispatch.md R261 to R266). -/

namespace Sys2Proof.Machine

/-- `fold(c)`: ASCII lower-case letters to upper case (44_registry_dispatch.md R261). -/
def foldCase (c : Byte) : Byte := if 0x61 ≤ c.toNat ∧ c.toNat ≤ 0x7A then c - 0x20 else c

/-- The ids of a key match under a profile: case-folded for TEXT, byte for byte for BINARY (44_registry_dispatch.md R261). -/
def idMatches (p : Profile) (a b : List Byte) : Bool :=
  match p with
  | .text => a.map foldCase == b.map foldCase
  | .binary _ => a == b

/-- Entry `e` matches the key `(proto, id)` (44_registry_dispatch.md R261). -/
def keyMatches (p : Profile) (proto : BitVec 8) (id : List Byte) (e : RegEntry) : Bool :=
  e.proto == proto && idMatches p e.id id

/-- The first entry of a list that meets `f`, with its index counted from `j`. -/
def findFrom (f : RegEntry → Bool) (j : Nat) : List RegEntry → Option (Nat × RegEntry)
  | [] => none
  | e :: es => if f e then some (j, e) else findFrom f (j + 1) es

/-- The entries in use, `REG_E[0..REG_N)` (10_state.md R50). -/
def Registry.used (g : Registry) : List RegEntry := g.entries.take g.n

/-- The least `j < REG_N` whose entry matches the key, with the entry (44_registry_dispatch.md R263, R265). -/
def Registry.find (g : Registry) (p : Profile) (proto : BitVec 8) (id : List Byte) : Option (Nat × RegEntry) :=
  findFrom (keyMatches p proto id) 0 g.used

/-- `REG_E[REG_N] <- e; REG_N <- REG_N + 1` (44_registry_dispatch.md R263). -/
def Registry.append (g : Registry) (e : RegEntry) : Registry := { g with n := g.n + 1, entries := g.entries.set g.n e }

/-- `REG_E[j].handle + 256 * j` (44_registry_dispatch.md R265). -/
def lookupValue (j : Nat) (e : RegEntry) : DataWord := zext64 (e.handle.toNat + 256 * j)

/-- `respond(S_UNRECOGNIZED)` (44_registry_dispatch.md R265). -/
def Response.unrecognized : Response := { Response.ok 0 with status := .sUnrecognized }

/-- The response of a lookup: the entry found or `S_UNRECOGNIZED` (44_registry_dispatch.md R265, R266). -/
def lookupResponse : Option (Nat × RegEntry) → Response
  | some (j, e) => Response.ok (lookupValue j e)
  | none => Response.unrecognized

/-- REG.ADD (44_registry_dispatch.md R263). -/
def execRegAdd (proto : BitVec 8) (handle : BitVec 8) (m : BitVec 4) (idData : DataWord) (s : State) :
    Host.Outcome State Fault Refusal :=
  if s.reg.isSealed then s.raise .eRegSealed 0
  else match s.cfg.profile? proto with
    | none => s.raise .eBadKind (proto.setWidth 64)
    | some p =>
      if m.toNat > idMax then s.raise .eBadId (m.setWidth 64)
      else match s.reg.find p proto (idOperand m idData) with
        | some (j, _) => s.raise .eRegDuplicate (zext64 j)
        | none =>
          if s.reg.n = s.cfg.regCap then s.raise .eRegFull (zext64 s.reg.n)
          else (s.setReg (s.reg.append { proto := proto, id := idOperand m idData, handle := handle })).respond
            (Response.ok (zext64 s.reg.n))

/-- REG.SEAL (44_registry_dispatch.md R264): idempotent. -/
def execRegSeal (s : State) : Host.Outcome State Fault Refusal :=
  (s.setReg s.reg.seal).respond (Response.ok (zext64 s.reg.n))

/-- REG.LOOKUP (44_registry_dispatch.md R265). -/
def execRegLookup (proto : BitVec 8) (m : BitVec 4) (idData : DataWord) (s : State) :
    Host.Outcome State Fault Refusal :=
  if !s.reg.isSealed then s.raise .eRegNotSealed 0
  else match s.cfg.profile? proto with
    | none => s.raise .eBadKind (proto.setWidth 64)
    | some p =>
      if m.toNat > idMax then s.raise .eBadId (m.setWidth 64)
      else s.respond (lookupResponse (s.reg.find p proto (idOperand m idData)))

/-- The dispatch of a held frame: an id longer than `ID_MAX` is unrecognized (44_registry_dispatch.md R266). -/
def dispatchResponse (g : Registry) (p : Profile) (proto : BitVec 8) (id : List Byte) : Response :=
  if id.length ≤ idMax then lookupResponse (g.find p proto id) else Response.unrecognized

/-- REG.DISPATCH (44_registry_dispatch.md R266): the key is `(PROTO_ID[k], FO.id)` of the issuing instance `k`. -/
def execRegDispatch (s : State) : Host.Outcome State Fault Refusal :=
  s.withInst (fun x =>
    if !s.reg.isSealed then s.raise .eRegNotSealed 0
    else if !x.fo.valid then s.raise .eNoFrame 0
    else s.withProfile (fun p =>
      s.respond (dispatchResponse s.reg p (s.cfg.protoId.getD s.port 0) x.fo.frame.id)))

end Sys2Proof.Machine
end

