-- ==== Sys2Proof/Machine/Dispatch.lean ====
section
/-! DEFINITION. One arm per command of 30_encoding.md R87, each one call of its meaning. -/

namespace Sys2Proof.Machine

def exec (i : Instr) (s : State) : Host.Outcome State Fault Refusal :=
  match i with
  | .nop => Sys2Proof.Machine.execNop s
  | .curOpen mode src => Sys2Proof.Machine.execCurOpen mode src s
  | .curClose => Sys2Proof.Machine.execCurClose s
  | .curRdu w => Sys2Proof.Machine.execCurRdu w s
  | .curRds w => Sys2Proof.Machine.execCurRds w s
  | .curWru w value => Sys2Proof.Machine.execCurWru w value s
  | .curWrs w value => Sys2Proof.Machine.execCurWrs w value s
  | .curRdb8 => Sys2Proof.Machine.execCurRdb8 s
  | .curRdb16 => Sys2Proof.Machine.execCurRdb16 s
  | .curRdb32 => Sys2Proof.Machine.execCurRdb32 s
  | .curWrb8 value => Sys2Proof.Machine.execCurWrb8 value s
  | .curWrb16 value => Sys2Proof.Machine.execCurWrb16 value s
  | .curWrb32 value => Sys2Proof.Machine.execCurWrb32 value s
  | .curSkip bits => Sys2Proof.Machine.execCurSkip bits s
  | .curTell => Sys2Proof.Machine.execCurTell s
  | .fxClear => Sys2Proof.Machine.execFxClear s
  | .fxGet index => Sys2Proof.Machine.execFxGet index s
  | .fxSet v index => Sys2Proof.Machine.execFxSet v index s
  | .fxDeser => Sys2Proof.Machine.execFxDeser s
  | .fxSer => Sys2Proof.Machine.execFxSer s
  | .fxSize => Sys2Proof.Machine.execFxSize s
  | .ckCompute kind start count => Sys2Proof.Machine.execCkCompute kind start count s
  | .ckFormat order kind value => Sys2Proof.Machine.execCkFormat order kind value s
  | .ckCheck kind rx start count => Sys2Proof.Machine.execCkCheck kind rx start count s
  | .fpPush b => Sys2Proof.Machine.execFpPush b s
  | .fpReset => Sys2Proof.Machine.execFpReset s
  | .fpWrap start count => Sys2Proof.Machine.execFpWrap start count s
  | .regAdd proto handle m idData => Sys2Proof.Machine.execRegAdd proto handle m idData s
  | .regSeal => Sys2Proof.Machine.execRegSeal s
  | .regLookup proto m idData => Sys2Proof.Machine.execRegLookup proto m idData s
  | .regDispatch => Sys2Proof.Machine.execRegDispatch s

end Sys2Proof.Machine
end

