-- ==== Sys2Proof/Machine/Step.lean ====
section
/-! DEFINITION. One step: the host's next input is taken (log 2). A command runs on the port it came by, an illegal word is
answered `E_ILLEGAL_COMMAND`; with no input waiting the FPCE waits (70_reset_and_hazards.md R340). -/

namespace Sys2Proof.Machine

/-- A command word on the port in use: the decoded instruction runs, or the word is illegal and the command ends with
`E_ILLEGAL_COMMAND` and `value = zext_64(CMD)` before anything else is checked (30_encoding.md R90, 60_exceptions.md R305). -/
def State.runCommand (s : State) (cmd : CmdWord) (data : DataWord) : Host.Outcome State Fault Refusal :=
  match decode cmd data with
  | .ok i => exec i s
  | .error _ => s.raise .eIllegalCommand (cmd.setWidth 64)

/-- The next input taken (10_state.md R20, R22). -/
def step (s : State) : Host.Outcome State Fault Refusal :=
  match s.inbox with
  | [] => .next s
  | .command k cmd data :: rest =>
    if k < s.insts.length then ({ s with inbox := rest, port := k } : State).runCommand cmd data
    else .fault (.noSuchPort k)
  | .writeByte k a b :: rest => ({ s with inbox := rest } : State).hostWrite k a b
  | .hardReset :: rest => .next ({ s with inbox := rest } : State).hardReset

/-- `s` with the given table word delivered next on the command port in use (log 2): the host's delivery of one command. -/
def State.withFetchWord (s : State) (nbits w : Nat) : State :=
  { s with inbox := .command s.port (wordsOfTableWord nbits w).1 (wordsOfTableWord nbits w).2 :: s.inbox }

end Sys2Proof.Machine
end

