-- ==== Sys2Proof/Machine/HostSequences.lean ====
section
/-! DEFINITION. The host's command sequences: several commands in order (10_state.md R22), the pseudo-commands fp.feed,
cur.skipb and decode (30_encoding.md R93), and the decode and encode entry points (44_registry_dispatch.md R267, R268). The
plug-in's own commands are an argument: per-message plug-ins are out of scope (00_scope.md R5). -/

namespace Sys2Proof.Machine

/-- Commands issued in order on the port in use: the responses and the state after, or none where one stops
(10_state.md R21, R22). -/
def runAll : List Instr → State → Option (List Response × State)
  | [], s => some ([], s)
  | i :: is, s =>
    match exec i s with
    | .next t => (runAll is t).map (fun r => (t.rsp :: r.1, r.2))
    | .fault _ => none
    | .refused _ => none

/-- `fp.feed "s"`: one fp.push per byte (30_encoding.md R93). -/
def feed (bytes : List Byte) : List Instr := bytes.map Instr.fpPush

/-- `cur.skipb n`: `cur.skip 8*n` (30_encoding.md R93), for `n < 2^61`, where `8*n` fits DATA (log 11). -/
def skipBytes (n : Nat) : Instr := .curSkip (zext64 (8 * n))

/-- `decode`: reg.dispatch, then cur.open ro, fo if the status is `S_OK` (30_encoding.md R93, steps 1 and 2 of
44_registry_dispatch.md R267). -/
def runDecode (s : State) : Host.Outcome State Fault Refusal :=
  match exec .regDispatch s with
  | .next t => if t.rsp.status = .sOk then exec (.curOpen .ro .frameOutput) t else .next t
  | o => o

/-- Steps 3 and 4 of the decode entry point, after `runDecode` opened the view: the plug-in's commands, then cur.close
(44_registry_dispatch.md R267). -/
def decodeBody (plugin : List Instr) : List Instr := plugin ++ [.curClose]

/-- A size as the 32-bit length operand of CUR.OPEN and FP.WRAP (30_encoding.md R85), or none where it does not fit: there is no
such command (log 18, DEDUCED). -/
def sizeOperand (n : Nat) : Option (BitVec 32) := if n < 2 ^ 32 then some (BitVec.ofNat 32 n) else none

/-- The encode entry point for a payload of `n` bytes (44_registry_dispatch.md R268): a mutable view of `N` bytes, for BINARY
with the host's header template skipped, the plug-in's commands, cur.close, fp.wrap. `start` is the TEXT start byte. None
where `N` has no length operand (log 18). -/
def encodeSequence (p : Profile) (start : Byte) (n : Nat) (plugin : List Instr) : Option (List Instr) :=
  match p with
  | .text => (sizeOperand n).map (fun len =>
      [.curOpen .rw (.hostBuffer len)] ++ plugin ++ [.curClose, .fpWrap start len])
  | .binary bp => (sizeOperand (bp.hlen + n)).map (fun len =>
      [.curOpen .rw (.hostBuffer len), skipBytes bp.hlen] ++ plugin ++ [.curClose, .fpWrap 0 len])

end Sys2Proof.Machine
end

