-- ==== Sys2Proof/Safety.lean ====
section
/-! DEFINITION. What a safe state of the FPCE is: the invariants of 10_state.md R25 to R50, and the words the statements
use. `State.Inv` is meant to hold of every launch from a well-formed parameter set and to be kept by every step. -/

namespace Sys2Proof.Machine

/-- `FP_ST` is a member of the enumeration the profile kind gives (10_state.md R30). -/
def ParserState.fits : Profile → ParserState → Bool
  | .text, .sync | .text, .accumulating | .text, .checksum1 | .text, .checksum2
  | .text, .expectCr | .text, .expectLf => true
  | .binary p, .bSync k => k < p.sync.length
  | .binary _, .bHeader | .binary _, .bPayload | .binary _, .bTrailer => true
  | _, _ => false

/-- The cursor invariant `0 <= CUR_OFF <= 8 * CUR_LEN` with `CUR_LEN <= HB_CAP` (10_state.md R25), and the one form of a
closed cursor (90_conflicts.md C10). -/
def CursorUnit.Inv (c : Config) (u : CursorUnit) : Prop :=
  u.len ≤ c.hbCap ∧ u.off ≤ 8 * u.len ∧ (u.isOpen = false → u = CursorUnit.closed)

/-- `FX_N` in `0..FX_MAX` and `FX_MAX` stored octets (10_state.md R27). -/
def FieldUnit.Inv (c : Config) (f : FieldUnit) : Prop := f.n ≤ c.fxMax ∧ f.oct.length = c.fxMax

/-- The profile's checksum stands after the payload (43_frame_parser.md R220). -/
def Profile.hasTrailer : Profile → Bool
  | .text => false
  | .binary p => p.ckLoc == .trailer

/-- The ranges of 10_state.md R30 to R33, with room left in the array each state stores into, and `BTrailer` under a TRAILER
profile only (43_frame_parser.md R224). -/
def ParserUnit.Inv (c : Config) (p : Profile) (fp : ParserUnit) : Prop :=
  ParserState.fits p fp.st = true ∧ fp.buf.length = c.bufCap ∧ fp.cnt ≤ c.bufCap
  ∧ fp.hdr.length = Profile.headerLen p ∧ fp.hcnt ≤ Profile.headerLen p
  ∧ fp.plen ≤ c.bufCap ∧ fp.trl.length = 2 ∧ fp.tcnt ≤ 2
  ∧ (fp.st = .bHeader → fp.hcnt < Profile.headerLen p ∧ fp.cnt = 0)
  ∧ (fp.st = .bPayload → fp.cnt < fp.plen)
  ∧ (fp.st = .bTrailer → fp.tcnt < 2 ∧ fp.cnt = fp.plen ∧ Profile.hasTrailer p = true)

/-- The lengths of a Frame record (10_state.md R40; a BINARY id has up to ID_MAX bytes whatever BUF_CAP is, log 12). -/
def Frame.Inv (c : Config) (f : Frame) : Prop := f.payload.length ≤ c.bufCap ∧ f.id.length ≤ max c.bufCap idMax

/-- The host buffer is canonical and inside `HB[0..HB_CAP)` (20_memory.md R60, R70). -/
def Memory.Inv (c : Config) (m : Memory) : Prop := m.wf ∧ m.below c.hbCap

/-- Every unit of an instance meets its invariant. -/
def Instance.Inv (c : Config) (p : Profile) (x : Instance) : Prop :=
  x.cur.Inv c ∧ x.fx.Inv c ∧ x.fp.Inv c p ∧ x.fo.frame.Inv c ∧ x.hb.Inv c

/-- `REG_N` in `0..REG_CAP`, `REG_CAP` entries, ids of at most ID_MAX bytes, and no key registered twice
(10_state.md R50; 44_registry_dispatch.md R263, R265). -/
def Registry.Inv (c : Config) (g : Registry) : Prop :=
  g.n ≤ c.regCap ∧ g.entries.length = c.regCap ∧ (∀ e ∈ g.entries, e.id.length ≤ idMax)
  ∧ (∀ e ∈ g.used, (c.profile? e.proto).isSome)
  ∧ g.used.Pairwise (fun a b => ∀ p, c.profile? b.proto = some p → keyMatches p b.proto b.id a = false)

/-- The invariant of the FPCE: a well-formed parameter set, one instance for each port, each instance and the registry
within the ranges of 10_state.md. -/
def State.Inv (s : State) : Prop :=
  s.cfg.wf = true ∧ s.insts.length = s.cfg.nInst ∧ s.port < s.insts.length
  ∧ (∀ k x, s.insts[k]? = some x → ∃ p, s.cfg.instProfile? k = some p ∧ x.Inv s.cfg p)
  ∧ s.reg.Inv s.cfg

/-- The answers of the pushes of a feed: the push result and the emitted frame of each (43_frame_parser.md R210). -/
def pushAnswers (rs : List Response) : List (DataWord × Option Frame) := rs.map (fun r => (r.value, r.frame))

/-- A TEXT wire frame with a checksum (30_encoding.md R95), its payload free of start bytes, `'*'` and CR and at most
`BUF_CAP` long, its two hex characters the XOR of the payload in either case (43_frame_parser.md R213). -/
def isTextWire (c : Config) (st : Byte) (p : List Byte) (h1 h2 : Byte) : Bool :=
  isStart st && p.all (fun b => !isStart b && b != chStar && b != chCr) && decide (p.length ≤ c.bufCap)
  && (match hexval h1, hexval h2 with
      | some a, some b => (xor8 p).toNat == 16 * a + b
      | _, _ => false)

/-- The bytes of a TEXT wire frame (30_encoding.md R95). -/
def textWire (st : Byte) (p : List Byte) (h1 h2 : Byte) : List Byte := [st] ++ p ++ [chStar, h1, h2, chCr, chLf]

/-- `j` holds no complete TEXT wire frame (43_frame_parser.md R213). -/
def NoTextWire (c : Config) (j : List Byte) : Prop :=
  ∀ st p h1 h2, isTextWire c st p h1 h2 = true → ¬ (textWire st p h1 h2 <:+: j)

/-! ### The words of the statements -/

/-- `x` is the instance the next command is issued to (60_exceptions.md R312). -/
def State.Runs (s : State) (x : Instance) : Prop := s.insts[s.port]? = some x

/-- `s` with the issuing instance replaced by `y` and the response `r` given; nothing else differs. -/
def State.after (s : State) (y : Instance) (r : Response) : State := { s.setInst y with rsp := r }

/-- `s` with the response of an error given and nothing else changed (60_exceptions.md R302). -/
def State.failed (s : State) (e : Status) (info : Nat) : State :=
  { s with rsp := { status := e, value := zext64 info, bytes := [], frame := none } }

/-- `x` with `CUR_OFF` at `off`. -/
def Instance.atOffset (x : Instance) (off : Nat) : Instance := { x with cur := { x.cur with off := off } }

/-- What a read or write command of `w` bits must answer: the first check that fails, in the order of 40_bitcursor.md R112,
or what `done` says. -/
def AccessAnswers (i : Instr) (s : State) (x : Instance) (w : Nat) (isWrite : Bool) (done : Prop) : Prop :=
  if x.cur.isOpen = false then exec i s = .next (s.failed .eNoCursor 0)
  else if w < 1 ∨ 64 < w then exec i s = .next (s.failed .eInvalidWidth w)
  else if isWrite = true ∧ x.cur.mode = .ro then exec i s = .next (s.failed .eReadOnly x.cur.off)
  else if 8 * x.cur.len < x.cur.off + w then exec i s = .next (s.failed .eInsufficientBuffer x.cur.off)
  else done

/-- The width an unsigned read reads (40_bitcursor.md R117, R121 to R123). -/
def Instr.unsignedRead : Instr → Option Nat
  | .curRdu w => some w.toNat
  | .curRdb8 => some 8
  | .curRdb16 => some 16
  | .curRdb32 => some 32
  | _ => none

/-- The width and the DATA operand of a cursor write (40_bitcursor.md R119, R120, R124 to R126). -/
def Instr.cursorWrite : Instr → Option (Nat × DataWord)
  | .curWru w v => some (w.toNat, v)
  | .curWrs w v => some (w.toNat, v)
  | .curWrb8 v => some (8, v)
  | .curWrb16 v => some (16, v)
  | .curWrb32 v => some (32, v)
  | _ => none

/-- The bits by which a successful command moves `CUR_OFF` (10_state.md R26), for commands other than CUR.OPEN and
CUR.CLOSE; `y` is the instance after it (FX.DESER moves by what it read). -/
def Instr.bitsMoved (i : Instr) (y : Instance) : Nat :=
  match i with
  | .curRdu w | .curRds w | .curWru w _ | .curWrs w _ => w.toNat
  | .curRdb8 | .curWrb8 _ => 8
  | .curRdb16 | .curWrb16 _ => 16
  | .curRdb32 | .curWrb32 _ => 32
  | .curSkip n => n.toNat
  | .fxDeser | .fxSer => 8 * y.fx.n
  | _ => 0

/-- The statuses a command may answer, from the "raised by" column of 60_exceptions.md R300. -/
def Instr.mayAnswer : Instr → List Status
  | .nop | .curClose | .fxClear | .fxGet _ | .fxSize | .fpPush _ | .fpReset | .regSeal => [.sOk]
  | .curOpen _ _ => [.sOk, .eReadOnly, .eNoFrame, .eRange]
  | .curRdu _ | .curRds _ => [.sOk, .eNoCursor, .eInvalidWidth, .eInsufficientBuffer]
  | .curWru _ _ | .curWrs _ _ => [.sOk, .eNoCursor, .eInvalidWidth, .eReadOnly, .eInsufficientBuffer]
  | .curRdb8 | .curRdb16 | .curRdb32 | .curSkip _ => [.sOk, .eNoCursor, .eInsufficientBuffer]
  | .curWrb8 _ | .curWrb16 _ | .curWrb32 _ | .fxSer => [.sOk, .eNoCursor, .eReadOnly, .eInsufficientBuffer]
  | .curTell => [.sOk, .eNoCursor]
  | .fxSet _ _ => [.sOk, .eFxCapacity]
  | .fxDeser => [.sOk, .eNoCursor, .eInsufficientBuffer, .eFxTruncated, .eFxMalformed]
  | .ckCompute _ _ _ => [.sOk, .eBadKind, .eRange]
  | .ckFormat _ _ _ => [.sOk, .eBadKind, .eIllegalCommand]
  | .ckCheck _ _ _ _ => [.sOk, .eBadKind, .eIllegalCommand, .eRange]
  | .fpWrap _ _ => [.sOk, .eBadKind, .eIllegalCommand, .eRange, .eWrapLength]
  | .regAdd _ _ _ _ => [.sOk, .eRegSealed, .eBadKind, .eBadId, .eRegDuplicate, .eRegFull]
  | .regLookup _ _ _ => [.sOk, .sUnrecognized, .eRegNotSealed, .eBadKind, .eBadId]
  | .regDispatch => [.sOk, .sUnrecognized, .eRegNotSealed, .eNoFrame]

/-- `s` after a push that leaves the parser unit at `fp`, answers `ok` and emits `fr` (43_frame_parser.md R210). -/
def State.pushed (s : State) (x : Instance) (fp : ParserUnit) (ok : Bool) (fr : Option Frame) : State :=
  s.after { x with fp := fp, fo := (match fr with
                                    | some f => { valid := true, frame := f }
                                    | none => { valid := false, frame := x.fo.frame }) }
    { status := .sOk, value := if ok then 1 else 0, bytes := [], frame := fr }

/-- The parser in state `st` with `FP_CNT` and `FP_CKRX` at 0 (43_frame_parser.md R201, R204 to R206, R209). -/
def ParserUnit.cleared (fp : ParserUnit) (st : ParserState) : ParserUnit := { fp with st := st, cnt := 0, ckrx := 0 }

/-- `list` is `old` with entry `at` replaced by `new` (00_scope.md R9, `x[i] <- v`). -/
def Replaced {α : Type} (old : List α) (at_ : Nat) (new : α) (list : List α) : Prop :=
  list.length = old.length ∧ list[at_]? = some new ∧ ∀ k, k ≠ at_ → list[k]? = old[k]?

/-- `P` is `HB[a..a+n)` (00_scope.md R9). -/
def Holds (m : Memory) (a n : Nat) (bytes : List Byte) : Prop :=
  bytes.length = n ∧ ∀ k, k < n → bytes[k]? = some (m.read (a + k))

/-- `id` is the message-id operand of length `m` in `data`: `id[k] = DATA[63-8k : 56-8k]` (30_encoding.md R86). -/
def IdBytes (data : DataWord) (m : Nat) (id : List Byte) : Prop :=
  id.length = m ∧ ∀ k, k < m → id[k]? = some (BitVec.ofNat 8 (data.toNat / 2 ^ (56 - 8 * k)))

/-- A command of the registry unit. -/
def Instr.isReg : Instr → Bool
  | .regAdd _ _ _ _ | .regSeal | .regLookup _ _ _ | .regDispatch => true
  | _ => false

/-- Entry `j < REG_N` of the registry is `e` and matches the key (44_registry_dispatch.md R263, R265). -/
def MatchesAt (g : Registry) (p : Profile) (proto : BitVec 8) (id : List Byte) (j : Nat) (e : RegEntry) : Prop :=
  j < g.n ∧ g.entries[j]? = some e ∧ keyMatches p proto id e = true

/-- No entry in use matches the key. -/
def Unmatched (g : Registry) (p : Profile) (proto : BitVec 8) (id : List Byte) : Prop :=
  ∀ j e, ¬ MatchesAt g p proto id j e

/-- The checksum of a binary frame with header `h` and payload `pl` (43_frame_parser.md R226). -/
def frameChecksum (p : BinProfile) (h pl : List Byte) : BitVec 16 :=
  if p.ckKind = .fletcher8 then fletcher8 (h.drop p.ckStart ++ pl) else crc16 (h.drop p.ckStart ++ pl)

/-- The 16-bit value of two received checksum bytes (43_frame_parser.md R226). -/
def receivedValue (p : BinProfile) (w0 w1 : Byte) : Nat :=
  if p.ckKind = .fletcher8 ∨ p.ckOrder = .be then w0.toNat * 256 + w1.toNat else w0.toNat + w1.toNat * 256

/-- What a push must answer when `bvalidate()` runs on the parser unit `fp` with the checksum bytes `w0 w1`
(43_frame_parser.md R226). -/
def ValidateAnswers (b : Byte) (s : State) (x : Instance) (p : BinProfile) (fp : ParserUnit) (w0 w1 : Byte) : Prop :=
  let idle : ParserUnit := { fp with st := .bSync 0, hcnt := 0, cnt := 0, plen := 0, tcnt := 0 }
  let payload := fp.buf.take fp.plen
  if (frameChecksum p fp.hdr payload).toNat = receivedValue p w0 w1 then
    exec (.fpPush b) s = .next (s.pushed x idle true
      (some { id := binId p fp.hdr, payload := payload, checksumValid := true }))
  else exec (.fpPush b) s = .next (s.pushed x idle false none)

/-- What a push must answer when `end_payload()` runs on the parser unit `fp` (43_frame_parser.md R224). -/
def EndPayloadAnswers (b : Byte) (s : State) (x : Instance) (p : BinProfile) (fp : ParserUnit) : Prop :=
  if p.ckLoc = .trailer then exec (.fpPush b) s = .next (s.pushed x { fp with st := .bTrailer, tcnt := 0 } false none)
  else ∀ w0 w1, fp.hdr[p.ckOff]? = some w0 → fp.hdr[p.ckOff + 1]? = some w1 → ValidateAnswers b s x p fp w0 w1

/-- `f` is the BINARY wire frame of `payload`: `wrap_bin(T, P)` for a template of `HLEN` bytes and a payload of at most `BUF_CAP`
bytes (30_encoding.md R96, 43_frame_parser.md R242). -/
def IsBinWire (c : Config) (p : BinProfile) (payload f : List Byte) : Prop :=
  ∃ template : List Byte, template.length = p.hlen ∧ payload.length ≤ c.bufCap ∧ wrapBin p template payload = some f

/-- The frame of `payload` in the BINARY wire frame `f`: the id is that of the header after `SYNC`
(43_frame_parser.md R226, R243). -/
def wireFrame (p : BinProfile) (payload f : List Byte) : Frame :=
  { id := binId p ((f.drop p.sync.length).take p.hlen), payload := payload, checksumValid := true }

/-- Feeding `j` to the port in use keeps its parser looking for a sync sequence and leaves it in `BSync(k)`
(43_frame_parser.md R214, R222). -/
def HuntsTo (t : State) (j : List Byte) (k : Nat) : Prop :=
  (∀ i, i ≤ j.length → ∃ rs u y n, runAll (feed (j.take i)) t = some (rs, u) ∧ u.Runs y ∧ y.fp.st = .bSync n)
  ∧ ∃ rs u y, runAll (feed j) t = some (rs, u) ∧ u.Runs y ∧ y.fp.st = .bSync k

/-- The push answers of a stream of `n` bytes of which exactly the last completes a frame, the checksum-valid `fr`. -/
def oneAtEnd (n : Nat) (fr : Frame) : List (DataWord × Option Frame) := List.replicate (n - 1) (0, none) ++ [(1, some fr)]

/-- Feeding `f1`, `j` and `f2` gives value 1 exactly on the last byte of each wire frame, with their frames
(43_frame_parser.md R213, R214). -/
def FindsBoth (s : State) (p : BinProfile) (pl1 f1 j pl2 f2 : List Byte) : Prop :=
  ∃ rs u, runAll (feed (f1 ++ j ++ f2)) s = some (rs, u)
    ∧ pushAnswers rs = oneAtEnd f1.length (wireFrame p pl1 f1) ++ oneAtEnd (j.length + f2.length) (wireFrame p pl2 f2)

/-- The constraints a BINARY profile must meet (43_frame_parser.md R220, R221). -/
def BinProfile.Constraints (p : BinProfile) : Prop :=
  (1 ≤ p.sync.length ∧ p.sync.length ≤ 4) ∧ (1 ≤ p.hlen ∧ p.hlen ≤ 16)
  ∧ (p.lenBytes = 1 ∨ p.lenBytes = 2 ∨ p.lenBytes = 4) ∧ 1 ≤ p.lenMult ∧ (1 ≤ p.idBytes ∧ p.idBytes ≤ 8)
  ∧ p.lenOff + p.lenBytes ≤ p.hlen ∧ p.idOff + p.idBytes ≤ p.hlen
  ∧ p.lenAdj < 2 ^ (8 * p.lenBytes) ∧ p.idMask < 2 ^ (8 * p.idBytes) ∧ p.ckStart ≤ p.hlen
  ∧ (p.ckLoc = .header → p.ckOff + 2 ≤ p.ckStart
      ∧ ∀ k, p.ckOff ≤ k → k < p.ckOff + 2 →
          ¬(p.lenOff ≤ k ∧ k < p.lenOff + p.lenBytes) ∧ ¬(p.idOff ≤ k ∧ k < p.idOff + p.idBytes))

/-- The constraints a parameter set must meet (00_scope.md R6, R7): a TEXT profile is always well formed
(43_frame_parser.md R200), and protocol indices are 0 to 255 (log 6). -/
def Config.Constraints (c : Config) : Prop :=
  (1 ≤ c.hbCap ∧ c.hbCap < 2 ^ 32) ∧ (1 ≤ c.fxMax ∧ c.fxMax ≤ 9362) ∧ (1 ≤ c.bufCap ∧ c.bufCap < 2 ^ 32)
  ∧ (1 ≤ c.regCap ∧ c.regCap ≤ 256) ∧ 1 ≤ c.nInst ∧ c.profiles.length ≤ 256
  ∧ (∀ (proto : BitVec 8) (p : BinProfile), c.profile? proto = some (.binary p) → BinProfile.Constraints p)
  ∧ ∀ k, k < c.nInst → ∃ p, c.instProfile? k = some p

/-! ### Storage that no command reads -/

/-- Equal but for octets past `FX_N` (10_state.md R27). -/
def FieldUnit.Alike (f g : FieldUnit) : Prop := f.n = g.n ∧ f.octets = g.octets

/-- Equal but for buffer bytes past `FP_CNT` (10_state.md R31). -/
def ParserUnit.Alike (a b : ParserUnit) : Prop := a.accumulated = b.accumulated ∧ { a with buf := [] } = { b with buf := [] }

/-- Equal but for the content of `FO` while `FO_VALID = 0` (43_frame_parser.md R210). -/
def FrameOutput.Alike (a b : FrameOutput) : Prop := a.valid = b.valid ∧ (a.valid = true → a.frame = b.frame)

/-- Equal but for what no command reads. -/
def Instance.Alike (x y : Instance) : Prop :=
  x.cur = y.cur ∧ x.hb = y.hb ∧ x.fx.Alike y.fx ∧ x.fp.Alike y.fp ∧ x.fo.Alike y.fo

/-- Equal but for entries past `REG_N` (10_state.md R51). -/
def Registry.Alike (g h : Registry) : Prop := g.isSealed = h.isSealed ∧ g.n = h.n ∧ g.used = h.used

/-- Two states that differ only in storage no command reads. -/
def State.Alike (s t : State) : Prop :=
  s.cfg = t.cfg ∧ s.inbox = t.inbox ∧ s.port = t.port ∧ s.rsp = t.rsp ∧ s.reg.Alike t.reg
  ∧ s.insts.length = t.insts.length
  ∧ ∀ (k : Nat) (x y : Instance), s.insts[k]? = some x → t.insts[k]? = some y → x.Alike y

end Sys2Proof.Machine
end

