-- ==== Sys2Proof/Certificates/Slice0/Obligations.lean ====
section
/-! DEFINITION. The statements for the provers. Each docstring names the rule of spec/ it formalises; a clause that rests on
a choice of the model names its log entry. -/

open Sys2Proof Sys2Proof.Machine

/-! ### Encoding and the step -/

/-- 30_encoding.md R82 to R87, R92: each command assembles to one pair, and the decoder reads the same command from it, with
every operand at every value its field admits. -/
def Obligations.DecodeOfEncode : Prop :=
  ∀ i : Instr, decode (encode i).1 (encode i).2 = .ok i

/-- 30_encoding.md R87, R90 and spec/opcode_table.json: the decoder accepts exactly the words some row of the table matches,
the encoder gives an accepted word back (so no bit of CMD is dropped), and the DATA bits the encoder leaves out are ignored. -/
def Obligations.DecoderAcceptsTheOpcodeTable : Prop :=
  ∀ (cmd : CmdWord) (data : DataWord),
    ((∃ i, decode cmd data = .ok i) ↔ inOpcodeTable cmd = true)
    ∧ ∀ i, decode cmd data = .ok i → encodeCmd i = cmd ∧ decode cmd (encodeData i) = .ok i

/-- 30_encoding.md R90, 60_exceptions.md R305 item 1: a word with an unassigned opcode or an unconditionally reserved bit set
ends with `E_ILLEGAL_COMMAND` and the word as info, and changes nothing but the response (taking the input and selecting the
port are the model's, log 2 and log 3). The opcodes R90 lists are in no row. -/
def Obligations.IllegalWordsAreAnswered : Prop :=
  (∀ (s : State) (k : Nat) (cmd : CmdWord) (data : DataWord) (rest : List HostInput),
    s.inbox = .command k cmd data :: rest → k < s.insts.length → inOpcodeTable cmd = false →
    step s = .next (({ s with inbox := rest, port := k } : State).failed .eIllegalCommand cmd.toNat))
  ∧ ∀ (cmd : CmdWord) (opc : Nat), opc = cmd.toNat / 2 ^ 24 →
      (0x01 ≤ opc ∧ opc ≤ 0x0F) ∨ (0x1E ≤ opc ∧ opc ≤ 0x1F) ∨ (0x26 ≤ opc ∧ opc ≤ 0x2F)
        ∨ (0x33 ≤ opc ∧ opc ≤ 0x3F) ∨ (0x43 ≤ opc ∧ opc ≤ 0x4F) ∨ 0x54 ≤ opc →
      inOpcodeTable cmd = false

/-- 10_state.md R20, R22: the command the host delivered next runs as the instruction its words decode to, on the instance of
its port; the step around it takes the input and selects the port (log 2, log 3). -/
def Obligations.StepRunsTheDecodedCommand : Prop :=
  ∀ (s : State) (k : Nat) (cmd : CmdWord) (data : DataWord) (rest : List HostInput) (i : Instr),
    s.inbox = .command k cmd data :: rest → k < s.insts.length → decode cmd data = .ok i →
    step s = exec i { s with inbox := rest, port := k }

/-- 30_encoding.md R87: words written out from the opcode map decode to the commands they stand for. -/
def Obligations.SampleWordsDecode : Prop :=
  decode 0x00000000 0 = .ok .nop
  ∧ decode 0x10010000 0x0000000000000002 = .ok (.curOpen .rw (.hostBuffer 2))
  ∧ decode 0x10020000 0 = .ok (.curOpen .ro .frameOutput)
  ∧ decode 0x12100000 0 = .ok (.curRdu 16)
  ∧ decode 0x22010008 0 = .ok (.fxSet true 8)
  ∧ decode 0x30020000 0x0000000900000000 = .ok (.ckCompute 2 0 9)
  ∧ decode 0x31120000 0x00000000000031C3 = .ok (.ckFormat true 2 0x31C3)
  ∧ decode 0x3200001D 0x0000002400000000 = .ok (.ckCheck 0 0x1D 0 36)
  ∧ decode 0x40000024 0 = .ok (.fpPush 0x24)
  ∧ decode 0x42210000 0x0000000000000005 = .ok (.fpWrap 0x21 5)
  ∧ decode 0x50000705 0x4750474253000000 = .ok (.regAdd 0 7 5 0x4750474253000000)
  ∧ decode 0x52010002 0x0107000000000000 = .ok (.regLookup 1 2 0x0107000000000000)

/-- 30_encoding.md R91. -/
def Obligations.NopChangesNothing : Prop :=
  ∀ s : State, exec .nop s = .next { s with rsp := { status := .sOk, value := 0, bytes := [], frame := none } }

/-- The host's side. With no input the FPCE waits (70_reset_and_hazards.md R340); a host write sets one byte of one host
buffer and nothing else (20_memory.md R60, R72). The stops are the model's (log 7, log 8): an address or a port that no
FPCE has. -/
def Obligations.HostInputsAreTaken : Prop :=
  (∀ s : State, s.inbox = [] → step s = .next s)
  ∧ (∀ (s : State) (k a : Nat) (b : Byte) (rest : List HostInput) (x : Instance),
      s.inbox = .writeByte k a b :: rest → s.insts[k]? = some x → x.hb.wf →
      if a < s.cfg.hbCap then
        ∃ m : Memory, step s = .next { s with inbox := rest, insts := s.insts.set k { x with hb := m } }
          ∧ m.wf ∧ m.read a = b ∧ ∀ a', a' ≠ a → m.read a' = x.hb.read a'
      else step s = .fault (.hostAddress a))
  ∧ (∀ (s : State) (k a : Nat) (b : Byte) (rest : List HostInput),
      s.inbox = .writeByte k a b :: rest → s.insts.length ≤ k → step s = .fault (.noSuchPort k))
  ∧ ∀ (s : State) (k : Nat) (cmd : CmdWord) (data : DataWord) (rest : List HostInput),
      s.inbox = .command k cmd data :: rest → s.insts.length ≤ k → step s = .fault (.noSuchPort k)

/-! ### Cursor unit -/

/-- 40_bitcursor.md R110: both sources, every error in its order, the view opened and, for a frame output, the payload copied
to `HB[0..L)` with every other byte kept. -/
def Obligations.CursorOpenOpensAView : Prop :=
  ∀ (s : State) (x : Instance) (mode : ViewMode), s.Runs x → x.hb.wf →
    (∀ len : BitVec 32,
      if s.cfg.hbCap < len.toNat then
        exec (.curOpen mode (.hostBuffer len)) s = .next (s.failed .eRange len.toNat)
      else exec (.curOpen mode (.hostBuffer len)) s =
        .next (s.after { x with cur := { isOpen := true, mode := mode, len := len.toNat, off := 0 } }
          (Response.ok (zext64 len.toNat))))
    ∧ (if mode = .rw then exec (.curOpen mode .frameOutput) s = .next (s.failed .eReadOnly 0)
       else if x.fo.valid = false then exec (.curOpen mode .frameOutput) s = .next (s.failed .eNoFrame 0)
       else if s.cfg.hbCap < x.fo.frame.payload.length then
         exec (.curOpen mode .frameOutput) s = .next (s.failed .eRange x.fo.frame.payload.length)
       else ∃ m : Memory,
         exec (.curOpen mode .frameOutput) s =
           .next (s.after { x with hb := m, cur := { isOpen := true, mode := .ro, len := x.fo.frame.payload.length, off := 0 } }
             (Response.ok (zext64 x.fo.frame.payload.length)))
         ∧ m.wf ∧ (∀ k b, x.fo.frame.payload[k]? = some b → m.read k = b)
         ∧ ∀ a, x.fo.frame.payload.length ≤ a → m.read a = x.hb.read a)

/-- 40_bitcursor.md R111, R130, R131. -/
def Obligations.CursorCloseSkipTell : Prop :=
  ∀ (s : State) (x : Instance), s.Runs x →
    exec .curClose s =
      .next (s.after { x with cur := { isOpen := false, mode := .ro, len := 0, off := 0 } } (Response.ok 0))
    ∧ (if x.cur.isOpen = false then exec .curTell s = .next (s.failed .eNoCursor 0)
       else exec .curTell s = .next (s.after x (Response.ok (zext64 x.cur.off))))
    ∧ ∀ n : DataWord,
      if x.cur.isOpen = false then exec (.curSkip n) s = .next (s.failed .eNoCursor 0)
      else if 8 * x.cur.len < x.cur.off + n.toNat then
        exec (.curSkip n) s = .next (s.failed .eInsufficientBuffer x.cur.off)
      else exec (.curSkip n) s = .next (s.after (x.atOffset (x.cur.off + n.toNat)) (Response.ok 0))

/-- 40_bitcursor.md R113, R117, R121, R122, R123: CUR.RDU and CUR.RDB8/16/32 answer the first failing check, or the `w` bits
from `CUR_OFF`, most significant first and zero-extended, and move `CUR_OFF` by `w`; nothing else changes. -/
def Obligations.UnsignedReadsTakeTheField : Prop :=
  ∀ (s : State) (x : Instance) (i : Instr) (w : Nat), s.Runs x → Instr.unsignedRead i = some w →
    AccessAnswers i s x w false
      (∃ v : DataWord,
        exec i s = .next (s.after (x.atOffset (x.cur.off + w)) (Response.ok v))
        ∧ (∀ k, k < w → (v.getLsbD (w - 1 - k)).toNat = x.hb.bit (x.cur.off + k))
        ∧ ∀ j, w ≤ j → v.getLsbD j = false)

/-- 40_bitcursor.md R118: CUR.RDS answers the first failing check, or the field with its first bit copied into every bit from
`w` up. -/
def Obligations.SignedReadsExtendTheSign : Prop :=
  ∀ (s : State) (x : Instance) (w : BitVec 8), s.Runs x →
    AccessAnswers (.curRds w) s x w.toNat false
      (∃ v : DataWord,
        exec (.curRds w) s = .next (s.after (x.atOffset (x.cur.off + w.toNat)) (Response.ok v))
        ∧ (∀ k, k < w.toNat → (v.getLsbD (w.toNat - 1 - k)).toNat = x.hb.bit (x.cur.off + k))
        ∧ ∀ j, w.toNat ≤ j → j < 64 → (v.getLsbD j).toNat = x.hb.bit x.cur.off)

/-- 40_bitcursor.md R115, R116, R119, R120, R124, R125, R126: a cursor write answers the first failing check, or stores the
low `w` bits of DATA at `CUR_OFF`, most significant first, keeps every other bit and every byte the field does not touch, and
moves `CUR_OFF` by `w`. -/
def Obligations.CursorWritesStoreTheField : Prop :=
  ∀ (s : State) (x : Instance) (i : Instr) (w : Nat) (v : DataWord), s.Runs x → x.hb.wf →
    Instr.cursorWrite i = some (w, v) →
    AccessAnswers i s x w true
      (∃ m : Memory,
        exec i s = .next (s.after { x.atOffset (x.cur.off + w) with hb := m } (Response.ok 0))
        ∧ m.wf
        ∧ (∀ k, k < w → m.bit (x.cur.off + k) = (v.getLsbD (w - 1 - k)).toNat)
        ∧ (∀ q, q < x.cur.off ∨ x.cur.off + w ≤ q → m.bit q = x.hb.bit q)
        ∧ ∀ a, 8 * a + 8 ≤ x.cur.off ∨ x.cur.off + w ≤ 8 * a → m.read a = x.hb.read a)

/-- 20_memory.md R63 (mixed widths), 40_bitcursor.md R121 to R126: at a byte-aligned offset `8a` the helpers read and write the
bytes `HB[a]`, `HB[a+1]`, … big-endian. -/
def Obligations.ByteAlignedHelpersMoveBytes : Prop :=
  ∀ (s : State) (x : Instance) (a : Nat), s.Runs x → x.hb.wf → x.cur.isOpen = true → x.cur.off = 8 * a →
    (a + 1 ≤ x.cur.len → exec .curRdb8 s =
      .next (s.after (x.atOffset (8 * a + 8)) (Response.ok (zext64 (x.hb.read a).toNat))))
    ∧ (a + 2 ≤ x.cur.len → exec .curRdb16 s =
      .next (s.after (x.atOffset (8 * a + 16))
        (Response.ok (zext64 ((x.hb.read a).toNat * 256 + (x.hb.read (a + 1)).toNat)))))
    ∧ (a + 4 ≤ x.cur.len → exec .curRdb32 s =
      .next (s.after (x.atOffset (8 * a + 32))
        (Response.ok (zext64 ((x.hb.read a).toNat * 2 ^ 24 + (x.hb.read (a + 1)).toNat * 2 ^ 16
          + (x.hb.read (a + 2)).toNat * 2 ^ 8 + (x.hb.read (a + 3)).toNat)))))
    ∧ (x.cur.mode = .rw → ∀ v : DataWord,
        (a + 1 ≤ x.cur.len → exec (.curWrb8 v) s =
          .next (s.after { x.atOffset (8 * a + 8) with hb := x.hb.writeBytes a [BitVec.ofNat 8 v.toNat] } (Response.ok 0)))
        ∧ (a + 2 ≤ x.cur.len → exec (.curWrb16 v) s =
          .next (s.after { x.atOffset (8 * a + 16) with
              hb := x.hb.writeBytes a [BitVec.ofNat 8 (v.toNat / 2 ^ 8), BitVec.ofNat 8 v.toNat] } (Response.ok 0)))
        ∧ (a + 4 ≤ x.cur.len → exec (.curWrb32 v) s =
          .next (s.after { x.atOffset (8 * a + 32) with
              hb := x.hb.writeBytes a [BitVec.ofNat 8 (v.toNat / 2 ^ 24), BitVec.ofNat 8 (v.toNat / 2 ^ 16),
                BitVec.ofNat 8 (v.toNat / 2 ^ 8), BitVec.ofNat 8 v.toNat] } (Response.ok 0))))

/-- 40_bitcursor.md R127. -/
def Obligations.HelpersEqualTheGenericAccess : Prop :=
  ∀ (s : State) (v : DataWord),
    exec .curRdb8 s = exec (.curRdu 8) s ∧ exec .curRdb16 s = exec (.curRdu 16) s
    ∧ exec .curRdb32 s = exec (.curRdu 32) s ∧ exec (.curWrb8 v) s = exec (.curWru 8 v) s
    ∧ exec (.curWrb16 v) s = exec (.curWru 16 v) s ∧ exec (.curWrb32 v) s = exec (.curWru 32 v) s

/-- 40_bitcursor.md R128: a field written at any offset, the view of the same length opened again in either mode, the offset
skipped to and the field read back. -/
def Obligations.CursorFieldRoundTrip : Prop :=
  ∀ (s : State) (x : Instance) (w : BitVec 8) (len : BitVec 32) (mode : ViewMode), s.Inv → s.Runs x →
    x.cur.isOpen = true → x.cur.mode = .rw → x.cur.len = len.toNat → 1 ≤ w.toNat → w.toNat ≤ 64 →
    x.cur.off + w.toNat ≤ 8 * x.cur.len →
    (∀ u : DataWord, u.toNat < 2 ^ w.toNat →
      ∃ rs t, runAll [.curWru w u, .curOpen mode (.hostBuffer len), .curSkip (zext64 x.cur.off), .curRdu w] s = some (rs, t)
        ∧ rs = [Response.ok 0, Response.ok (zext64 len.toNat), Response.ok 0, Response.ok u])
    ∧ (∀ v : DataWord, -(2 : Int) ^ (w.toNat - 1) ≤ v.toInt → v.toInt < 2 ^ (w.toNat - 1) →
      ∃ rs t, runAll [.curWrs w v, .curOpen mode (.hostBuffer len), .curSkip (zext64 x.cur.off), .curRds w] s = some (rs, t)
        ∧ rs = [Response.ok 0, Response.ok (zext64 len.toNat), Response.ok 0, Response.ok v])

/-- 10_state.md R26: a command other than CUR.OPEN and CUR.CLOSE adds exactly its width to `CUR_OFF` when it succeeds and leaves
it unchanged when it fails; CUR.OPEN and CUR.CLOSE set it to 0. -/
def Obligations.CursorOffsetMovesByTheWidth : Prop :=
  ∀ (i : Instr) (s t : State) (x y : Instance), s.Runs x → t.Runs y → exec i s = .next t →
    if Status.isError t.rsp.status = true then y.cur = x.cur
    else match i with
      | .curOpen _ _ => y.cur.off = 0
      | .curClose => y.cur.off = 0
      | i => y.cur.isOpen = x.cur.isOpen ∧ y.cur.len = x.cur.len ∧ y.cur.mode = x.cur.mode
          ∧ y.cur.off = x.cur.off + Instr.bitsMoved i y

/-! ### Extensible-field unit -/

/-- 41_extensible_field.md R150, R151, R165. -/
def Obligations.FxClearGetSize : Prop :=
  ∀ (s : State) (x : Instance), s.Runs x → x.fx.Inv s.cfg →
    exec .fxClear s = .next (s.after { x with fx := { n := 0, oct := List.replicate s.cfg.fxMax 0 } } (Response.ok 0))
    ∧ exec .fxSize s = .next (s.after x (Response.ok (zext64 x.fx.n)))
    ∧ ∀ i : BitVec 16,
      if x.fx.n ≤ i.toNat / 7 then exec (.fxGet i) s = .next (s.after x (Response.ok 0))
      else ∃ o : Byte, x.fx.oct[i.toNat / 7]? = some o
        ∧ exec (.fxGet i) s = .next (s.after x (Response.ok (if o.getLsbD (7 - i.toNat % 7) then 3 else 2)))

/-- 41_extensible_field.md R152: an index past `FX_MAX` octets is refused; otherwise octets up to the index's are materialized
as zeros and exactly one bit is written, the FX bits and every other octet kept. -/
def Obligations.FxSetWritesOneBit : Prop :=
  ∀ (s : State) (x : Instance) (v : Bool) (i : BitVec 16), s.Runs x → x.fx.Inv s.cfg →
    if s.cfg.fxMax ≤ i.toNat / 7 then exec (.fxSet v i) s = .next (s.failed .eFxCapacity i.toNat)
    else ∃ f : FieldUnit,
      exec (.fxSet v i) s = .next (s.after { x with fx := f } (Response.ok (zext64 f.n)))
      ∧ f.n = max x.fx.n (i.toNat / 7 + 1) ∧ f.oct.length = s.cfg.fxMax
      ∧ ∀ (k : Nat) (o old : Byte), f.oct[k]? = some o → x.fx.oct[k]? = some old → ∀ d, d < 8 →
          o.getLsbD (7 - d) =
            if k = i.toNat / 7 ∧ d = i.toNat % 7 then v
            else if x.fx.n ≤ k ∧ k ≤ i.toNat / 7 then false
            else old.getLsbD (7 - d)

/-- 41_extensible_field.md R155: how FX.DESER ends, by the FX bits `bit(o+8j+7)` of the octets from `CUR_OFF`. On success the
octets read are stored as read, those past them are 0 and the host buffer stays. -/
def Obligations.FxDeserReadsTheChain : Prop :=
  ∀ (s : State) (x : Instance), s.Runs x → 1 ≤ s.cfg.fxMax →
    (x.cur.isOpen = false → exec .fxDeser s = .next (s.failed .eNoCursor 0))
    ∧ (x.cur.isOpen = true →
      (8 * x.cur.len < x.cur.off + 8 → exec .fxDeser s = .next (s.failed .eInsufficientBuffer x.cur.off))
      ∧ (∀ n, 1 ≤ n → n ≤ s.cfg.fxMax → x.cur.off + 8 * n ≤ 8 * x.cur.len →
          (∀ j, j < n → x.hb.bit (x.cur.off + 8 * j + 7) = if j + 1 < n then 1 else 0) →
          ∃ f : FieldUnit,
            exec .fxDeser s = .next (s.after { x.atOffset (x.cur.off + 8 * n) with fx := f } (Response.ok (zext64 n)))
            ∧ f.n = n ∧ f.oct.length = s.cfg.fxMax
            ∧ ∀ (j : Nat) (o : Byte), f.oct[j]? = some o → ∀ d, d < 8 →
                (o.getLsbD (7 - d)).toNat = if j < n then x.hb.bit (x.cur.off + 8 * j + d) else 0)
      ∧ (∀ n, 1 ≤ n → n < s.cfg.fxMax → x.cur.off + 8 * n ≤ 8 * x.cur.len → 8 * x.cur.len < x.cur.off + 8 * n + 8 →
          (∀ j, j < n → x.hb.bit (x.cur.off + 8 * j + 7) = 1) →
          exec .fxDeser s = .next (s.failed .eFxTruncated (x.cur.off + 8 * n)))
      ∧ (x.cur.off + 8 * s.cfg.fxMax ≤ 8 * x.cur.len →
          (∀ j, j < s.cfg.fxMax → x.hb.bit (x.cur.off + 8 * j + 7) = 1) →
          exec .fxDeser s = .next (s.failed .eFxMalformed (x.cur.off + 8 * s.cfg.fxMax))))

/-- 41_extensible_field.md R160, R166: FX.SER answers the first failing check, or writes the data bits of each octet with FX
bit 1 in all but the last and 0 in the last, keeps every other bit and byte of the host buffer and the stored field. -/
def Obligations.FxSerWritesTheChain : Prop :=
  ∀ (s : State) (x : Instance), s.Runs x → x.fx.Inv s.cfg → x.hb.wf →
    if x.cur.isOpen = false then exec .fxSer s = .next (s.failed .eNoCursor 0)
    else if x.cur.mode = .ro then exec .fxSer s = .next (s.failed .eReadOnly x.cur.off)
    else if 8 * x.cur.len < x.cur.off + 8 * x.fx.n then exec .fxSer s = .next (s.failed .eInsufficientBuffer x.cur.off)
    else ∃ m : Memory,
      exec .fxSer s = .next (s.after { x.atOffset (x.cur.off + 8 * x.fx.n) with hb := m } (Response.ok (zext64 x.fx.n)))
      ∧ m.wf
      ∧ (∀ (j : Nat) (o : Byte), j < x.fx.n → x.fx.oct[j]? = some o → ∀ d, d < 7 →
          m.bit (x.cur.off + 8 * j + d) = (o.getLsbD (7 - d)).toNat)
      ∧ (∀ j, j < x.fx.n → m.bit (x.cur.off + 8 * j + 7) = if j + 1 < x.fx.n then 1 else 0)
      ∧ (∀ q, q < x.cur.off ∨ x.cur.off + 8 * x.fx.n ≤ q → m.bit q = x.hb.bit q)
      ∧ ∀ a, 8 * a + 8 ≤ x.cur.off ∨ x.cur.off + 8 * x.fx.n ≤ 8 * a → m.read a = x.hb.read a

/-- 41_extensible_field.md R167: a non-empty field serialized into a mutable view, read back through a view that holds those
bytes, is equal in octet count and data bits (R142); and a chain that continues at octet `FX_MAX` is malformed. -/
def Obligations.FxFieldRoundTrip : Prop :=
  (∀ (s : State) (x : Instance) (len : BitVec 32) (mode : ViewMode), s.Inv → s.Runs x →
    x.cur.isOpen = true → x.cur.mode = .rw → 1 ≤ x.fx.n → x.cur.off + 8 * x.fx.n ≤ 8 * x.cur.len →
    x.cur.off + 8 * x.fx.n ≤ 8 * len.toNat → len.toNat ≤ s.cfg.hbCap →
    ∃ rs t y, runAll [.fxSer, .curOpen mode (.hostBuffer len), .curSkip (zext64 x.cur.off), .fxDeser] s = some (rs, t)
      ∧ rs.map (·.status) = [.sOk, .sOk, .sOk, .sOk] ∧ t.Runs y ∧ y.fx.n = x.fx.n
      ∧ ∀ (j : Nat) (o o' : Byte), j < x.fx.n → x.fx.oct[j]? = some o → y.fx.oct[j]? = some o' → o' &&& 0xFE = o &&& 0xFE)
  ∧ ∀ (s : State) (x : Instance), s.Inv → s.Runs x → x.cur.isOpen = true →
      x.cur.off + 8 * s.cfg.fxMax ≤ 8 * x.cur.len →
      (∀ j, j < s.cfg.fxMax → x.hb.bit (x.cur.off + 8 * j + 7) = 1) →
      exec .fxDeser s = .next (s.failed .eFxMalformed (x.cur.off + 8 * s.cfg.fxMax))

/-! ### Checksum unit -/

/-- 42_checksum.md R180. -/
def Obligations.CkComputeGivesTheChecksum : Prop :=
  ∀ (s : State) (x : Instance) (kind : BitVec 4) (start n : BitVec 32), s.Runs x →
    if 2 < kind.toNat then exec (.ckCompute kind start n) s = .next (s.failed .eBadKind kind.toNat)
    else if s.cfg.hbCap < start.toNat + n.toNat then
      exec (.ckCompute kind start n) s = .next (s.failed .eRange start.toNat)
    else ∃ bytes, Holds x.hb start.toNat n.toNat bytes
      ∧ exec (.ckCompute kind start n) s = .next (s.after x (Response.ok (zext64
          (if kind = 0 then (xor8 bytes).toNat else if kind = 1 then (fletcher8 bytes).toNat else (crc16 bytes).toNat))))

/-- 42_checksum.md R182: with XOR8 the upper byte of the received value must be 0; a mismatch is value 0, no error. -/
def Obligations.CkCheckComparesTheChecksum : Prop :=
  ∀ (s : State) (x : Instance) (kind : BitVec 4) (rx : BitVec 16) (start n : BitVec 32), s.Runs x →
    if 2 < kind.toNat then exec (.ckCheck kind rx start n) s = .next (s.failed .eBadKind kind.toNat)
    else if kind = 0 ∧ 256 ≤ rx.toNat then
      exec (.ckCheck kind rx start n) s = .next (s.failed .eIllegalCommand (0x32000000 + rx.toNat))
    else if s.cfg.hbCap < start.toNat + n.toNat then
      exec (.ckCheck kind rx start n) s = .next (s.failed .eRange start.toNat)
    else ∃ bytes, Holds x.hb start.toNat n.toNat bytes
      ∧ exec (.ckCheck kind rx start n) s = .next (s.after x (Response.ok
          (if (if kind = 0 then (xor8 bytes).toNat else if kind = 1 then (fletcher8 bytes).toNat else (crc16 bytes).toNat)
              = rx.toNat then 1 else 0)))

/-- 42_checksum.md R181: the kind is checked before the order bit, and the output has 2 bytes. -/
def Obligations.CkFormatRendersTheWireForm : Prop :=
  ∀ (s : State) (order : Bool) (kind : BitVec 4) (v : BitVec 16),
    if 2 < kind.toNat then exec (.ckFormat order kind v) s = .next (s.failed .eBadKind kind.toNat)
    else if kind ≠ 2 ∧ order = true then
      exec (.ckFormat order kind v) s = .next (s.failed .eIllegalCommand (0x31100000 + kind.toNat * 2 ^ 16))
    else exec (.ckFormat order kind v) s = .next { s with rsp :=
      { status := .sOk, value := 0, frame := none,
        bytes :=
          if kind = 0 then [hexu (BitVec.ofNat 4 (v.toNat / 16)), hexu (BitVec.ofNat 4 v.toNat)]
          else if kind = 1 ∨ order = true then [BitVec.ofNat 8 (v.toNat / 256), BitVec.ofNat 8 v.toNat]
          else [BitVec.ofNat 8 v.toNat, BitVec.ofNat 8 (v.toNat / 256)] } }

/-- 42_checksum.md R171, R172: two upper-case digits, high nibble first; both cases are read, nothing else is a digit. -/
def Obligations.HexDigitsReadBack : Prop :=
  (∀ v : BitVec 8, ∃ h l : Byte, formatXor8 v = [h, l]
    ∧ hexval h = some (v.toNat / 16) ∧ hexval l = some (v.toNat % 16)
    ∧ ∀ d ∈ [h, l], (0x30 ≤ d.toNat ∧ d.toNat ≤ 0x39) ∨ (0x41 ≤ d.toNat ∧ d.toNat ≤ 0x46))
  ∧ ∀ c : Byte, hexval c =
      if 0x30 ≤ c.toNat ∧ c.toNat ≤ 0x39 then some (c.toNat - 0x30)
      else if 0x41 ≤ c.toNat ∧ c.toNat ≤ 0x46 then some (c.toNat - 0x41 + 10)
      else if 0x61 ≤ c.toNat ∧ c.toNat ≤ 0x66 then some (c.toNat - 0x61 + 10)
      else none

/-- 42_checksum.md R170, R175, R176: what each checksum is, and the laws that follow. XOR8 is 0 for no bytes, a byte for itself
and the XOR of the two for a concatenation, which is R170 whole. FLETCHER8 is the sum of the bytes and the sum weighted by the
distance from the end, each mod 256. CRC16 starts at 0, and one more byte takes it through R176's eight rounds with the polynomial
0x1021, which is R176 whole; it is linear over the XOR of equally long sequences, a sequence followed by its own checksum, high
byte first, has checksum 0, and R176's check value holds. -/
def Obligations.ChecksumsInClosedForm : Prop :=
  (xor8 [] = 0 ∧ (∀ b : Byte, xor8 [b] = b) ∧ ∀ a b : List Byte, xor8 (a ++ b) = xor8 a ^^^ xor8 b)
  ∧ (∀ a : List Byte, (fletcher8 a).toNat =
      (a.map (·.toNat)).sum % 256 * 256 + (a.mapIdx (fun k b => (a.length - k) * b.toNat)).sum % 256)
  ∧ crc16 [] = 0
  ∧ (∀ (a : List Byte) (b : Byte), ∃ c : Nat → Nat,
      c 0 = (crc16 a).toNat ^^^ (b.toNat * 256)
      ∧ (∀ k, k < 8 → c (k + 1) =
          if (c k).testBit 15 then ((c k * 2) ^^^ 0x1021) % 65536 else c k * 2 % 65536)
      ∧ (crc16 (a ++ [b])).toNat = c 8)
  ∧ crc16 [0x31, 0x32, 0x33, 0x34, 0x35, 0x36, 0x37, 0x38, 0x39] = 0x31C3
  ∧ (∀ a b : List Byte, a.length = b.length → crc16 (a.zipWith (· ^^^ ·) b) = crc16 a ^^^ crc16 b)
  ∧ ∀ a : List Byte, crc16 (a ++ [BitVec.ofNat 8 ((crc16 a).toNat / 256), BitVec.ofNat 8 (crc16 a).toNat]) = 0

/-- 42_checksum.md R170, R175, R176: a change of one byte changes the checksum, whatever the kind. -/
def Obligations.OneByteErrorChangesTheChecksum : Prop :=
  ∀ (kind : CkKind) (before after : List Byte) (b b' : Byte), b ≠ b' →
    checksumOf kind (before ++ b :: after) ≠ checksumOf kind (before ++ b' :: after)

/-! ### Frame-parser unit -/

/-- 43_frame_parser.md R212 with R210: in every state, a push completes with `S_OK`, its value is 1 exactly when it emits a
frame with `checksum_valid = 1`, and it changes only the parser unit and the frame output. -/
def Obligations.PushResultLaw : Prop :=
  ∀ (s : State) (x : Instance) (b : Byte), s.Inv → s.Runs x →
    ∃ (fp : ParserUnit) (ok : Bool) (fr : Option Frame), exec (.fpPush b) s = .next (s.pushed x fp ok fr)
      ∧ (ok = true ↔ ∃ f, fr = some f ∧ f.checksumValid = true)

/-- 43_frame_parser.md R201, R206: in `Sync` every byte but a start byte is ignored, and in every TEXT state a start byte
abandons what was accumulated and starts a frame. -/
def Obligations.TextStartByteStartsAFrame : Prop :=
  ∀ (s : State) (x : Instance) (b : Byte), s.Runs x → s.cfg.instProfile? s.port = some .text →
    ParserState.fits .text x.fp.st = true →
    (b = 0x24 ∨ b = 0x21 → exec (.fpPush b) s = .next (s.pushed x (x.fp.cleared .accumulating) false none))
    ∧ (¬(b = 0x24 ∨ b = 0x21) → x.fp.st = .sync → exec (.fpPush b) s = .next (s.pushed x x.fp false none))

/-- 43_frame_parser.md R202, R205, R208: the four cases of `Accumulating` in their order. -/
def Obligations.TextAccumulatesBytes : Prop :=
  ∀ (s : State) (x : Instance) (b : Byte), s.Runs x → s.cfg.instProfile? s.port = some .text → x.fp.Inv s.cfg .text →
    x.fp.st = .accumulating → b ≠ 0x24 → b ≠ 0x21 →
    if b = 0x2A then exec (.fpPush b) s = .next (s.pushed x { x.fp with st := .checksum1 } false none)
    else if b = 0x0D then
      exec (.fpPush b) s = .next (s.pushed x (x.fp.cleared .sync) false
        (if s.cfg.nockEmit = true then
          some { id := textId s.cfg (x.fp.buf.take x.fp.cnt), payload := x.fp.buf.take x.fp.cnt, checksumValid := false }
         else none))
    else if x.fp.cnt = s.cfg.bufCap then exec (.fpPush b) s = .next (s.pushed x (x.fp.cleared .sync) false none)
    else ∃ buf, Replaced x.fp.buf x.fp.cnt b buf
      ∧ exec (.fpPush b) s = .next (s.pushed x { x.fp with buf := buf, cnt := x.fp.cnt + 1 } false none)

/-- 43_frame_parser.md R203, R204: the two checksum characters, CR, LF and the validation; any other byte aborts to `Sync`. -/
def Obligations.TextChecksumAndTerminators : Prop :=
  ∀ (s : State) (x : Instance) (b : Byte), s.Runs x → s.cfg.instProfile? s.port = some .text → b ≠ 0x24 → b ≠ 0x21 →
    (x.fp.st = .checksum1 → match hexval b with
      | some h => exec (.fpPush b) s =
          .next (s.pushed x { x.fp with st := .checksum2, ckrx := BitVec.ofNat 8 (h * 16) } false none)
      | none => exec (.fpPush b) s = .next (s.pushed x (x.fp.cleared .sync) false none))
    ∧ (x.fp.st = .checksum2 → match hexval b with
      | some h => exec (.fpPush b) s =
          .next (s.pushed x { x.fp with st := .expectCr, ckrx := x.fp.ckrx + BitVec.ofNat 8 h } false none)
      | none => exec (.fpPush b) s = .next (s.pushed x (x.fp.cleared .sync) false none))
    ∧ (x.fp.st = .expectCr →
      if b = 0x0D then exec (.fpPush b) s = .next (s.pushed x { x.fp with st := .expectLf } false none)
      else exec (.fpPush b) s = .next (s.pushed x (x.fp.cleared .sync) false none))
    ∧ (x.fp.st = .expectLf →
      if b = 0x0A ∧ xor8 (x.fp.buf.take x.fp.cnt) = x.fp.ckrx then
        exec (.fpPush b) s = .next (s.pushed x (x.fp.cleared .sync) true
          (some { id := textId s.cfg (x.fp.buf.take x.fp.cnt), payload := x.fp.buf.take x.fp.cnt, checksumValid := true }))
      else exec (.fpPush b) s = .next (s.pushed x (x.fp.cleared .sync) false none))

/-- 43_frame_parser.md R207, R227: the text id is the bytes before the first comma without the first `ID_SKIP`; a binary id is
the masked id field's bytes, most significant first. -/
def Obligations.MessageIdsOfFrames : Prop :=
  (∀ (c : Config) (pre rest : List Byte), 0x2C ∉ pre →
    textId c pre = pre.drop (min c.idSkip pre.length)
    ∧ textId c (pre ++ 0x2C :: rest) = pre.drop (min c.idSkip pre.length))
  ∧ ∀ (p : BinProfile) (h : List Byte), (binId p h).length = p.idBytes
    ∧ ∀ i, i < p.idBytes → (binId p h)[i]? =
        some (BitVec.ofNat 8 ((fieldValue h p.idOff p.idBytes p.idOrder &&& p.idMask) / 256 ^ (p.idBytes - 1 - i)))

/-- 43_frame_parser.md R222. -/
def Obligations.BinarySyncHunts : Prop :=
  ∀ (s : State) (x : Instance) (p : BinProfile) (b : Byte) (k : Nat), s.Runs x →
    s.cfg.instProfile? s.port = some (.binary p) → x.fp.st = .bSync k → k < p.sync.length →
    if p.sync[k]? = some b then
      if k + 1 = p.sync.length then
        exec (.fpPush b) s = .next (s.pushed x { x.fp with st := .bHeader, hcnt := 0, cnt := 0, tcnt := 0 } false none)
      else exec (.fpPush b) s = .next (s.pushed x { x.fp with st := .bSync (k + 1) } false none)
    else if 0 < k ∧ p.sync[0]? = some b then
      exec (.fpPush b) s = .next (s.pushed x { x.fp with st := .bSync 1 } false none)
    else exec (.fpPush b) s = .next (s.pushed x { x.fp with st := .bSync 0 } false none)

/-- 43_frame_parser.md R223, with `end_payload()` and `bvalidate()` of R224 and R226 where the payload is empty; a field's value
is the sum of its bytes, weighted in its order. -/
def Obligations.BinaryHeaderGivesTheLength : Prop :=
  (∀ (h : List Byte) (off n : Nat), off + n ≤ h.length →
    fieldValue h off n .be = ((List.range n).map (fun i => (h.getD (off + i) 0).toNat * 256 ^ (n - 1 - i))).sum
    ∧ fieldValue h off n .le = ((List.range n).map (fun i => (h.getD (off + i) 0).toNat * 256 ^ i)).sum)
  ∧ ∀ (s : State) (x : Instance) (p : BinProfile) (b : Byte), s.Runs x →
    s.cfg.instProfile? s.port = some (.binary p) → p.wf = true → x.fp.Inv s.cfg (.binary p) → x.fp.st = .bHeader →
    ∃ hdr, Replaced x.fp.hdr x.fp.hcnt b hdr ∧
      if x.fp.hcnt + 1 < p.hlen then
        exec (.fpPush b) s = .next (s.pushed x { x.fp with hdr := hdr, hcnt := x.fp.hcnt + 1 } false none)
      else if fieldValue hdr p.lenOff p.lenBytes p.lenOrder < p.lenAdj
          ∨ fieldValue hdr p.lenOff p.lenBytes p.lenOrder % p.lenMult ≠ 0
          ∨ s.cfg.bufCap < fieldValue hdr p.lenOff p.lenBytes p.lenOrder - p.lenAdj then
        exec (.fpPush b) s = .next (s.pushed x
          { x.fp with hdr := hdr, st := .bSync 0, hcnt := 0, cnt := 0, plen := 0, tcnt := 0 } false none)
      else if fieldValue hdr p.lenOff p.lenBytes p.lenOrder = p.lenAdj then
        EndPayloadAnswers b s x p { x.fp with hdr := hdr, hcnt := x.fp.hcnt + 1, plen := 0 }
      else exec (.fpPush b) s = .next (s.pushed x
        { x.fp with hdr := hdr, hcnt := x.fp.hcnt + 1, st := .bPayload,
                    plen := fieldValue hdr p.lenOff p.lenBytes p.lenOrder - p.lenAdj } false none)

/-- 43_frame_parser.md R224, R225, R226: the payload and trailer bytes, and what the last of them makes the push answer. Only a
TRAILER profile reaches `BTrailer` (R224), which `ParserUnit.Inv` says. -/
def Obligations.BinaryPayloadAndTrailer : Prop :=
  ∀ (s : State) (x : Instance) (p : BinProfile) (b : Byte), s.Runs x →
    s.cfg.instProfile? s.port = some (.binary p) → p.wf = true → x.fp.Inv s.cfg (.binary p) →
    (x.fp.st = .bPayload → ∃ buf, Replaced x.fp.buf x.fp.cnt b buf ∧
      if x.fp.cnt + 1 < x.fp.plen then
        exec (.fpPush b) s = .next (s.pushed x { x.fp with buf := buf, cnt := x.fp.cnt + 1 } false none)
      else EndPayloadAnswers b s x p { x.fp with buf := buf, cnt := x.fp.cnt + 1 })
    ∧ (x.fp.st = .bTrailer →
      if x.fp.tcnt = 0 then ∃ trl, Replaced x.fp.trl 0 b trl
        ∧ exec (.fpPush b) s = .next (s.pushed x { x.fp with trl := trl, tcnt := 1 } false none)
      else ∃ w0, x.fp.trl[0]? = some w0
        ∧ ValidateAnswers b s x p { x.fp with trl := [w0, b], tcnt := 2 } w0 b)

/-- 43_frame_parser.md R211 (and 70_reset_and_hazards.md R341): FP.RESET gives the parser unit its reset values and clears
`FO_VALID`; nothing else changes. -/
def Obligations.FpResetClearsTheParser : Prop :=
  ∀ (s : State) (x : Instance) (p : Profile), s.Runs x → s.cfg.instProfile? s.port = some p → x.fp.Inv s.cfg p →
    exec .fpReset s = .next (s.after
      { x with
          fp := { st := (match p with
                         | .text => .sync
                         | .binary _ => .bSync 0),
                  buf := List.replicate s.cfg.bufCap 0, cnt := 0, ckrx := 0,
                  hdr := List.replicate (match p with
                                         | .text => 0
                                         | .binary bp => bp.hlen) 0,
                  hcnt := 0, plen := 0, trl := [0, 0], tcnt := 0 },
          fo := { valid := false, frame := x.fo.frame } } (Response.ok 0))

/-- 43_frame_parser.md R240, R241, R242: both profile kinds, every error in its order, and the framed bytes. Nothing but the
response changes. -/
def Obligations.FpWrapFramesThePayload : Prop :=
  ∀ (s : State) (x : Instance) (start : Byte) (count : BitVec 32), s.Runs x →
    (s.cfg.instProfile? s.port = some .text →
      if start ≠ 0x24 ∧ start ≠ 0x21 then exec (.fpWrap start count) s = .next (s.failed .eBadKind start.toNat)
      else if s.cfg.hbCap < count.toNat ∨ s.cfg.bufCap < count.toNat then
        exec (.fpWrap start count) s = .next (s.failed .eRange count.toNat)
      else ∃ pl, Holds x.hb 0 count.toNat pl
        ∧ exec (.fpWrap start count) s = .next (s.after x
          { status := .sOk, value := zext64 (count.toNat + 6), frame := none,
            bytes := [start] ++ pl ++ [0x2A, hexu (BitVec.ofNat 4 ((xor8 pl).toNat / 16)),
              hexu (BitVec.ofNat 4 (xor8 pl).toNat), 0x0D, 0x0A] }))
    ∧ ∀ p, s.cfg.instProfile? s.port = some (.binary p) → p.wf = true →
      if start ≠ 0 then
        exec (.fpWrap start count) s = .next (s.failed .eIllegalCommand (0x42000000 + start.toNat * 2 ^ 16))
      else if s.cfg.hbCap < count.toNat ∨ count.toNat < p.hlen ∨ s.cfg.bufCap < count.toNat - p.hlen then
        exec (.fpWrap start count) s = .next (s.failed .eRange count.toNat)
      else if 2 ^ (8 * p.lenBytes) ≤ count.toNat - p.hlen + p.lenAdj ∨ (count.toNat - p.hlen + p.lenAdj) % p.lenMult ≠ 0 then
        exec (.fpWrap start count) s = .next (s.failed .eWrapLength (count.toNat - p.hlen + p.lenAdj))
      else ∃ (template pl hdr trl : List Byte) (w0 w1 : Byte),
        Holds x.hb 0 p.hlen template ∧ Holds x.hb p.hlen (count.toNat - p.hlen) pl
        ∧ exec (.fpWrap start count) s = .next (s.after x
          { status := .sOk, value := zext64 (p.sync.length + count.toNat + trl.length), frame := none,
            bytes := p.sync ++ hdr ++ pl ++ trl })
        ∧ hdr.length = p.hlen
        ∧ fieldValue hdr p.lenOff p.lenBytes p.lenOrder = count.toNat - p.hlen + p.lenAdj
        ∧ (∀ k, ¬(p.lenOff ≤ k ∧ k < p.lenOff + p.lenBytes) →
            (p.ckLoc = .header → ¬(p.ckOff ≤ k ∧ k < p.ckOff + 2)) → hdr[k]? = template[k]?)
        ∧ receivedValue p w0 w1 = (frameChecksum p hdr pl).toNat
        ∧ if p.ckLoc = .header then trl = [] ∧ hdr[p.ckOff]? = some w0 ∧ hdr[p.ckOff + 1]? = some w1
          else trl = [w0, w1]

/-- 43_frame_parser.md R243, TEXT half: what FP.WRAP emits for a payload without delimiters, fed to a TEXT instance in `Sync`,
gives value 1 on its last byte only, with the frame of that payload. -/
def Obligations.WrapThenParseText : Prop :=
  ∀ (s t u : State) (x y : Instance) (start : Byte) (n : BitVec 32) (pl : List Byte), s.Runs x →
    s.cfg.instProfile? s.port = some .text → exec (.fpWrap start n) s = .next t → t.rsp.status = .sOk →
    Holds x.hb 0 n.toNat pl → (∀ b ∈ pl, b ≠ 0x24 ∧ b ≠ 0x21 ∧ b ≠ 0x2A ∧ b ≠ 0x0D) →
    u.Inv → u.cfg = s.cfg → u.Runs y → u.cfg.instProfile? u.port = some .text → y.fp.st = .sync →
    ∃ rs v, runAll (feed t.rsp.bytes) u = some (rs, v)
      ∧ pushAnswers rs = List.replicate (n.toNat + 5) (0, none)
          ++ [(1, some { id := textId u.cfg pl, payload := pl, checksumValid := true })]

/-- 43_frame_parser.md R243, BINARY half: what FP.WRAP emits, fed to an instance of the same profile in `BSync(0)`, gives value
1 on its last byte only, with the frame of that payload and of the header with length and checksum filled in. -/
def Obligations.WrapThenParseBinary : Prop :=
  ∀ (s t u : State) (x y : Instance) (p : BinProfile) (n : BitVec 32) (pl : List Byte), s.Runs x →
    s.cfg.instProfile? s.port = some (.binary p) → exec (.fpWrap 0 n) s = .next t → t.rsp.status = .sOk →
    Holds x.hb p.hlen (n.toNat - p.hlen) pl →
    u.Inv → u.cfg = s.cfg → u.Runs y → u.cfg.instProfile? u.port = some (.binary p) → y.fp.st = .bSync 0 →
    ∃ rs v, runAll (feed t.rsp.bytes) u = some (rs, v)
      ∧ pushAnswers rs = List.replicate (t.rsp.bytes.length - 1) (0, none)
          ++ [(1, some { id := binId p ((t.rsp.bytes.drop p.sync.length).take p.hlen), payload := pl,
                         checksumValid := true })]

/-- 43_frame_parser.md R213: two correct wire frames with any bytes between them that hold no such frame give value 1 exactly
twice, on the last byte of each, with their frames, whatever state the bytes between leave. -/
def Obligations.TextResynchronization : Prop :=
  ∀ (s : State) (x : Instance) (st1 st2 h1 h2 h3 h4 : Byte) (p1 p2 j : List Byte), s.Inv → s.Runs x →
    s.cfg.instProfile? s.port = some .text → x.fp.st = .sync →
    isTextWire s.cfg st1 p1 h1 h2 = true → isTextWire s.cfg st2 p2 h3 h4 = true → NoTextWire s.cfg j →
    ∃ rs1 rsj rs2 t, runAll (feed (textWire st1 p1 h1 h2 ++ j ++ textWire st2 p2 h3 h4)) s = some (rs1 ++ rsj ++ rs2, t)
      ∧ pushAnswers rs1 = List.replicate (p1.length + 5) (0, none)
          ++ [(1, some { id := textId s.cfg p1, payload := p1, checksumValid := true })]
      ∧ rsj.map (·.value) = List.replicate j.length 0
      ∧ pushAnswers rs2 = List.replicate (p2.length + 5) (0, none)
          ++ [(1, some { id := textId s.cfg p2, payload := p2, checksumValid := true })]

/-- 43_frame_parser.md R214, for bytes between two BINARY frames that open no header and leave the parser in `BSync(k)`, where
`k = 0` or the first byte of SYNC does not occur in it again (as in UBX and SBF, R228): value 1 exactly on the last byte of each
frame, with their frames. Where it occurs again R222 does not give R214's law (log 16, DEDUCED; the next statement). -/
def Obligations.BinaryResynchronization : Prop :=
  ∀ (s t : State) (x : Instance) (p : BinProfile) (pl1 f1 j pl2 f2 : List Byte) (k : Nat) (rs1 : List Response),
    s.Inv → s.Runs x → s.cfg.instProfile? s.port = some (.binary p) → x.fp.st = .bSync 0 →
    IsBinWire s.cfg p pl1 f1 → IsBinWire s.cfg p pl2 f2 → runAll (feed f1) s = some (rs1, t) → HuntsTo t j k →
    (k = 0 ∨ ∀ i, 0 < i → p.sync[i]? ≠ p.sync[0]?) → FindsBoth s p pl1 f1 j pl2 f2

/-- 43_frame_parser.md R214 read literally, for bytes that leave the parser in any `BSync(k)`. R222 does not re-examine the bytes
of a partial match, so this fails for a sync sequence whose first byte repeats, such as `[A, A, B]` after a lone `A`
(log 16, DEDUCED). -/
def Obligations.BinaryResynchronizationFromPartialSync : Prop :=
  ∀ (s t : State) (x : Instance) (p : BinProfile) (pl1 f1 j pl2 f2 : List Byte) (k : Nat) (rs1 : List Response),
    s.Inv → s.Runs x → s.cfg.instProfile? s.port = some (.binary p) → x.fp.st = .bSync 0 →
    IsBinWire s.cfg p pl1 f1 → IsBinWire s.cfg p pl2 f2 → runAll (feed f1) s = some (rs1, t) → HuntsTo t j k →
    FindsBoth s p pl1 f1 j pl2 f2

/-- 70_reset_and_hazards.md R350: only FP.PUSH and FP.RESET change the frame output; after FP.RESET, or a push that emits
nothing, REG.DISPATCH (registry sealed) and CUR.OPEN of the frame output answer `E_NO_FRAME`; after a push that emits a frame
it is the frame held. -/
def Obligations.FrameOutputLifetime : Prop :=
  ∀ (s t : State) (x y : Instance) (i : Instr), s.Runs x → t.Runs y → exec i s = .next t →
    match i with
    | .fpPush _ | .fpReset =>
      match t.rsp.frame with
      | some f => y.fo = { valid := true, frame := f }
      | none => y.fo = { valid := false, frame := x.fo.frame }
          ∧ exec (.curOpen .ro .frameOutput) t = .next (t.failed .eNoFrame 0)
          ∧ (t.reg.isSealed = true → exec .regDispatch t = .next (t.failed .eNoFrame 0))
    | _ => y.fo = x.fo

/-! ### Registry -/

/-- 44_registry_dispatch.md R261. -/
def Obligations.KeysMatchByFoldedBytes : Prop :=
  (∀ (p : Profile) (proto : BitVec 8) (id : List Byte) (e : RegEntry),
    keyMatches p proto id e = true ↔
      e.proto = proto ∧ e.id.length = id.length ∧ ∀ (k : Nat) (a b : Byte), e.id[k]? = some a → id[k]? = some b →
        match p with
        | .text => foldCase a = foldCase b
        | .binary _ => a = b)
  ∧ ∀ c : Byte, (foldCase c).toNat = if 0x61 ≤ c.toNat ∧ c.toNat ≤ 0x7A then c.toNat - 0x20 else c.toNat

/-- 44_registry_dispatch.md R263: every error in its order; otherwise entry `REG_N` is written, `REG_N` grows by one and every
other entry, and all state outside the registry, stays. -/
def Obligations.RegAddAppendsAnEntry : Prop :=
  ∀ (s : State) (proto handle : BitVec 8) (m : BitVec 4) (data : DataWord) (id : List Byte), s.reg.Inv s.cfg →
    IdBytes data m.toNat id →
    if s.reg.isSealed = true then exec (.regAdd proto handle m data) s = .next (s.failed .eRegSealed 0)
    else match s.cfg.profile? proto with
      | none => exec (.regAdd proto handle m data) s = .next (s.failed .eBadKind proto.toNat)
      | some p =>
        if 8 < m.toNat then exec (.regAdd proto handle m data) s = .next (s.failed .eBadId m.toNat)
        else (∀ j e, MatchesAt s.reg p proto id j e →
            exec (.regAdd proto handle m data) s = .next (s.failed .eRegDuplicate j))
          ∧ (Unmatched s.reg p proto id →
            if s.reg.n = s.cfg.regCap then
              exec (.regAdd proto handle m data) s = .next (s.failed .eRegFull s.reg.n)
            else ∃ es, Replaced s.reg.entries s.reg.n { proto := proto, id := id, handle := handle } es
              ∧ exec (.regAdd proto handle m data) s =
                .next { s with reg := { isSealed := false, n := s.reg.n + 1, entries := es },
                               rsp := Response.ok (zext64 s.reg.n) })

/-- 44_registry_dispatch.md R264, R265: sealing keeps every entry; a lookup answers the handle and the index of the entry that
matches, or `S_UNRECOGNIZED`, and changes nothing. -/
def Obligations.RegSealAndLookup : Prop :=
  (∀ s : State, exec .regSeal s =
    .next { s with reg := { isSealed := true, n := s.reg.n, entries := s.reg.entries }, rsp := Response.ok (zext64 s.reg.n) })
  ∧ ∀ (s : State) (proto : BitVec 8) (m : BitVec 4) (data : DataWord) (id : List Byte), s.reg.Inv s.cfg →
    IdBytes data m.toNat id →
    if s.reg.isSealed = false then exec (.regLookup proto m data) s = .next (s.failed .eRegNotSealed 0)
    else match s.cfg.profile? proto with
      | none => exec (.regLookup proto m data) s = .next (s.failed .eBadKind proto.toNat)
      | some p =>
        if 8 < m.toNat then exec (.regLookup proto m data) s = .next (s.failed .eBadId m.toNat)
        else (∀ j e, MatchesAt s.reg p proto id j e → exec (.regLookup proto m data) s =
            .next { s with rsp := Response.ok (zext64 (e.handle.toNat + 256 * j)) })
          ∧ (Unmatched s.reg p proto id → exec (.regLookup proto m data) s =
            .next { s with rsp := { status := .sUnrecognized, value := 0, bytes := [], frame := none } })

/-- 44_registry_dispatch.md R266, R269: the held frame's id under the issuing instance's protocol; an id longer than `ID_MAX`
or one that no entry matches is `S_UNRECOGNIZED`, and nothing but the response changes. -/
def Obligations.RegDispatchSelectsTheDecoder : Prop :=
  ∀ (s : State) (x : Instance) (proto : BitVec 8) (p : Profile), s.Runs x → s.reg.Inv s.cfg →
    s.cfg.protoId[s.port]? = some proto → s.cfg.profile? proto = some p →
    if s.reg.isSealed = false then exec .regDispatch s = .next (s.failed .eRegNotSealed 0)
    else if x.fo.valid = false then exec .regDispatch s = .next (s.failed .eNoFrame 0)
    else (∀ j e, x.fo.frame.id.length ≤ 8 → MatchesAt s.reg p proto x.fo.frame.id j e →
        exec .regDispatch s = .next { s with rsp := Response.ok (zext64 (e.handle.toNat + 256 * j)) })
      ∧ (8 < x.fo.frame.id.length ∨ Unmatched s.reg p proto x.fo.frame.id →
        exec .regDispatch s =
          .next { s with rsp := { status := .sUnrecognized, value := 0, bytes := [], frame := none } })

/-- 10_state.md R51, 60_exceptions.md R311: in the sealed phase no step but a hardware reset changes the registry, and every
command outside REG.* works the same whatever the registry holds. -/
def Obligations.SealedRegistryIsImmutable : Prop :=
  (∀ s t : State, s.reg.isSealed = true → step s = .next t → (∀ rest, s.inbox ≠ .hardReset :: rest) → t.reg = s.reg)
  ∧ ∀ (i : Instr) (s : State) (g : Registry), Instr.isReg i = false →
      exec i (s.setReg g) = match exec i s with
        | .next t => .next (t.setReg g)
        | .fault r => .fault r
        | .refused r => .refused r

/-- 44_registry_dispatch.md R261, R263 to R265: an id registered and sealed is found by every id its key matches, for TEXT
whatever the case of its letters, with the handle and the index it was given. -/
def Obligations.RegisteredIdIsFound : Prop :=
  ∀ (s : State) (proto handle : BitVec 8) (m : BitVec 4) (data data' : DataWord) (id id' : List Byte) (p : Profile),
    s.reg.Inv s.cfg → s.reg.isSealed = false → s.cfg.profile? proto = some p → m.toNat ≤ 8 → s.reg.n < s.cfg.regCap →
    IdBytes data m.toNat id → IdBytes data' m.toNat id' → Unmatched s.reg p proto id →
    (match p with
     | .text => id.map foldCase = id'.map foldCase
     | .binary _ => id = id') →
    ∃ t, runAll [.regAdd proto handle m data, .regSeal, .regLookup proto m data'] s =
        some ([Response.ok (zext64 s.reg.n), Response.ok (zext64 (s.reg.n + 1)),
               Response.ok (zext64 (handle.toNat + 256 * s.reg.n))], t)

/-- 44_registry_dispatch.md R267 steps 1 and 2, 30_encoding.md R93: `decode` opens a read-only view of exactly the payload of a
held, registered frame; an unregistered one ends the sequence with nothing changed but the response. -/
def Obligations.DecodeOpensTheHeldFrame : Prop :=
  ∀ (s : State) (x : Instance) (proto : BitVec 8) (p : Profile), s.Runs x → s.reg.Inv s.cfg → x.hb.wf →
    s.cfg.protoId[s.port]? = some proto → s.cfg.profile? proto = some p → s.reg.isSealed = true → x.fo.valid = true →
    x.fo.frame.payload.length ≤ s.cfg.hbCap → x.fo.frame.id.length ≤ 8 →
    (∀ j e, MatchesAt s.reg p proto x.fo.frame.id j e → ∃ m : Memory,
      runDecode s = .next (s.after
        { x with hb := m, cur := { isOpen := true, mode := .ro, len := x.fo.frame.payload.length, off := 0 } }
        (Response.ok (zext64 x.fo.frame.payload.length)))
      ∧ (∀ k b, x.fo.frame.payload[k]? = some b → m.read k = b)
      ∧ ∀ a, x.fo.frame.payload.length ≤ a → m.read a = x.hb.read a)
    ∧ (Unmatched s.reg p proto x.fo.frame.id →
      runDecode s = .next { s with rsp := { status := .sUnrecognized, value := 0, bytes := [], frame := none } })

/-! ### The whole machine -/

/-- 10_state.md R20, 60_exceptions.md R307, R310, 70_reset_and_hazards.md R358: in every state of an FPCE every command word,
legal or not, is answered within its own step. -/
def Obligations.EveryCommandIsAnswered : Prop :=
  ∀ (s : State) (k : Nat) (cmd : CmdWord) (data : DataWord) (rest : List HostInput), s.Inv →
    s.inbox = .command k cmd data :: rest → k < s.cfg.nInst → ∃ t, step s = .next t ∧ t.inbox = rest ∧ t.port = k

/-- 60_exceptions.md R302: a command word that ends with an error status leaves every state element as it was; its response has
no bytes and no frame. -/
def Obligations.ErrorsChangeNothing : Prop :=
  ∀ (s t : State) (cmd : CmdWord) (data : DataWord), s.runCommand cmd data = .next t →
    Status.isError t.rsp.status = true → t = { s with rsp := t.rsp } ∧ t.rsp.bytes = [] ∧ t.rsp.frame = none

/-- 60_exceptions.md R300, R304: the codes, which of them are errors, and that a command answers only the statuses whose
"raised by" column names it (FP.PUSH and FP.RESET only `S_OK`). -/
def Obligations.CommandsAnswerTheirStatuses : Prop :=
  ([Status.sOk, .sUnrecognized, .eInsufficientBuffer, .eInvalidWidth, .eNoCursor, .eReadOnly, .eFxMalformed, .eFxTruncated,
    .eFxCapacity, .eBadKind, .eRange, .eWrapLength, .eRegSealed, .eRegNotSealed, .eRegDuplicate, .eRegFull, .eNoFrame,
    .eIllegalCommand, .eBadId].map (fun e => ((Status.code e).toNat, Status.isError e))
    = [(0x00, false), (0x01, false)] ++ (List.range 17).map (fun k => (0x81 + k, true)))
  ∧ ∀ (i : Instr) (s t : State), exec i s = .next t → t.rsp.status ∈ Instr.mayAnswer i

/-- The ranges of 10_state.md R25, R27, R30 to R33, R50, the payload range of R40 and the canonical host buffers (`State.Inv`)
are kept by every step: every command, host write and hardware reset. The bound on a frame's id, the larger of BUF_CAP and
ID_MAX, is the model's reading of R40 and R227 (log 12, DEDUCED); that BTrailer is entered under a TRAILER profile only is
43_frame_parser.md R224. -/
def Obligations.StepKeepsTheInvariant : Prop :=
  ∀ s t : State, s.Inv → step s = .next t → t.Inv

/-- `State.Inv` holds at `State.reset` (the parameter set is the model's choice, log 1; the host buffers' contents, log 4). -/
def Obligations.ResetMeetsTheInvariant : Prop := State.reset.Inv

/-- 00_scope.md R6, R7, 43_frame_parser.md R220, R221, 20_memory.md R61: an FPCE is built exactly from a parameter set that meets
the constraints of R6, R220 and R221 (`Config.Constraints`), and whatever host buffers it is launched with it meets
`State.Inv`. That protocol indices stop at 255 is said of a list of at most 256 entries (log 6, DEDUCED). -/
def Obligations.LaunchMeetsTheInvariant : Prop :=
  ∀ (c : Config) (hbs : List Memory), (State.build c hbs = none ↔ ¬ Config.Constraints c) ∧ (c.wf = true ↔ Config.Constraints c)
    ∧ ∀ s, State.build c hbs = some s → (∀ m ∈ hbs, m.Inv c) →
      s.Inv ∧ s.cfg = c ∧ ∀ (k : Nat) (m : Memory) (x : Instance), hbs[k]? = some m → s.insts[k]? = some x → x.hb = m

/-- 70_reset_and_hazards.md R340, 10_state.md R54: a hardware reset gives every register of every instance and of the registry
its reset value, and keeps the host buffers and the static configuration. That the inputs still waiting survive it
(`t.inbox = rest`) is the model's choice (log 5, DESIGN CHOICE). -/
def Obligations.HardwareResetRestoresTheRegisters : Prop :=
  ∀ (s : State) (rest : List HostInput), s.Inv → s.inbox = .hardReset :: rest →
    ∃ t, step s = .next t ∧ t.cfg = s.cfg ∧ t.inbox = rest ∧ t.insts.length = s.insts.length
      ∧ t.reg = { isSealed := false, n := 0, entries := List.replicate s.cfg.regCap { proto := 0, id := [], handle := 0 } }
      ∧ ∀ (k : Nat) (x : Instance) (p : Profile), s.insts[k]? = some x → s.cfg.instProfile? k = some p →
        t.insts[k]? = some
          { cur := { isOpen := false, mode := .ro, len := 0, off := 0 },
            fx := { n := 0, oct := List.replicate s.cfg.fxMax 0 },
            fp := { st := (match p with
                           | .text => .sync
                           | .binary _ => .bSync 0),
                    buf := List.replicate s.cfg.bufCap 0, cnt := 0, ckrx := 0,
                    hdr := List.replicate (match p with
                                           | .text => 0
                                           | .binary bp => bp.hlen) 0,
                    hcnt := 0, plen := 0, trl := [0, 0], tcnt := 0 },
            fo := { valid := false, frame := { id := [], payload := [], checksumValid := false } },
            hb := x.hb }

/-- 20_memory.md R73, 60_exceptions.md R312, 10_state.md R53: a command changes no other instance, no parameter and no waiting
input, and only REG.ADD and REG.SEAL change the registry. -/
def Obligations.OtherInstancesAreUntouched : Prop :=
  ∀ (i : Instr) (s t : State), exec i s = .next t →
    t.cfg = s.cfg ∧ t.inbox = s.inbox ∧ t.port = s.port ∧ t.insts.length = s.insts.length
    ∧ (∀ k, k ≠ s.port → t.insts[k]? = s.insts[k]?)
    ∧ match i with
      | .regAdd _ _ _ _ | .regSeal => t.insts = s.insts
      | _ => t.reg = s.reg

/-- 20_memory.md R73, 60_exceptions.md R312: two FPCEs that agree on one instance and on the registry answer a command to that
instance alike, and still agree afterwards, whatever their other instances hold. -/
def Obligations.InstancesDoNotInterfere : Prop :=
  ∀ (i : Instr) (s s' t : State), s.cfg = s'.cfg → s.port = s'.port → s.reg = s'.reg →
    s.insts[s.port]? = s'.insts[s'.port]? → s.Inv → s'.Inv → exec i s = .next t →
    ∃ t', exec i s' = .next t' ∧ t'.rsp = t.rsp ∧ t'.reg = t.reg ∧ t'.insts[t'.port]? = t.insts[t.port]?

/-- 10_state.md R27, R31, R51, 43_frame_parser.md R210: octets past `FX_N`, buffer bytes past `FP_CNT`, registry entries past
`REG_N` and the content of `FO` while `FO_VALID = 0` are never seen: two states that differ in them only take steps to two
such states, with the same response. -/
def Obligations.UnreadStorageIsNeverSeen : Prop :=
  ∀ s s' t : State, s.Inv → s'.Inv → s.Alike s' → step s = .next t → ∃ t', step s' = .next t' ∧ t.Alike t'
end

