-- ==== Sys2Proof/Laws/Memory.lean ====
section
/-! SUPPORT. The laws of the host buffer: a read after a write, every other byte kept, the canonical form kept, and
equal reads mean equal memories. -/

namespace Sys2Proof.Machine

theorem readCells_eq_unlisted_of_forall_ne {a : Nat} {cs : List Host.Cell} (h : ∀ c ∈ cs, c.1 ≠ a) :
    readCells a cs = Memory.unlisted := by
  induction cs with
  | nil => rfl
  | cons c cs ih =>
    have hc := h c (List.mem_cons_self ..)
    simp only [readCells, if_neg hc]
    exact ih (fun d hd => h d (List.mem_cons_of_mem _ hd))

theorem readCells_writeCells_self (a : Nat) (b : Byte) (cs : List Host.Cell)
    (h : cs.Pairwise (fun x y => x.1 < y.1)) : readCells a (writeCells a b cs) = b := by
  induction cs with
  | nil =>
    unfold writeCells
    split
    · rename_i hb; simp [readCells, hb]
    · simp [readCells]
  | cons c cs ih =>
    obtain ⟨hc, hcs⟩ := List.pairwise_cons.mp h
    unfold writeCells
    split
    · rename_i hlt
      split
      · rename_i hb
        rw [hb]
        refine readCells_eq_unlisted_of_forall_ne ?_
        intro d hd
        rcases List.mem_cons.mp hd with rfl | hd
        · omega
        · have := hc d hd; omega
      · simp [readCells]
    · split
      · rename_i heq
        split
        · rename_i hb
          rw [hb]
          refine readCells_eq_unlisted_of_forall_ne ?_
          intro d hd
          have := hc d hd; omega
        · simp [readCells]
      · rename_i hne
        simp only [readCells, if_neg (Ne.symm hne)]
        exact ih hcs

theorem readCells_writeCells_ne {a a' : Nat} (b : Byte) (cs : List Host.Cell) (h : a' ≠ a) :
    readCells a' (writeCells a b cs) = readCells a' cs := by
  induction cs with
  | nil =>
    unfold writeCells
    split
    · rfl
    · simp [readCells, Ne.symm h]
  | cons c cs ih =>
    unfold writeCells
    split
    · split
      · rfl
      · simp [readCells, Ne.symm h]
    · split
      · rename_i heq
        split
        · simp [readCells, ← heq, Ne.symm h]
        · simp [readCells, ← heq, Ne.symm h]
      · simp only [readCells, ih]

theorem mem_writeCells {a : Nat} {b : Byte} {cs : List Host.Cell} {d : Host.Cell}
    (h : d ∈ writeCells a b cs) : (d = (a, b) ∧ b ≠ Memory.unlisted) ∨ d ∈ cs := by
  induction cs with
  | nil =>
    unfold writeCells at h
    split at h
    · exact absurd h (List.not_mem_nil)
    · rename_i hb; exact .inl ⟨List.mem_singleton.mp h, hb⟩
  | cons c cs ih =>
    unfold writeCells at h
    split at h
    · split at h
      · exact .inr h
      · rename_i hb
        rcases List.mem_cons.mp h with rfl | h
        · exact .inl ⟨rfl, hb⟩
        · exact .inr h
    · split at h
      · split at h
        · exact .inr (List.mem_cons_of_mem _ h)
        · rename_i hb
          rcases List.mem_cons.mp h with rfl | h
          · exact .inl ⟨rfl, hb⟩
          · exact .inr (List.mem_cons_of_mem _ h)
      · rcases List.mem_cons.mp h with rfl | h
        · exact .inr (List.mem_cons_self ..)
        · rcases ih h with h | h
          · exact .inl h
          · exact .inr (List.mem_cons_of_mem _ h)

theorem writeCells_pairwise (a : Nat) (b : Byte) (cs : List Host.Cell)
    (h : cs.Pairwise (fun x y => x.1 < y.1)) : (writeCells a b cs).Pairwise (fun x y => x.1 < y.1) := by
  induction cs with
  | nil => unfold writeCells; split <;> simp
  | cons c cs ih =>
    obtain ⟨hc, hcs⟩ := List.pairwise_cons.mp h
    unfold writeCells
    split
    · rename_i hlt
      split
      · exact h
      · refine List.pairwise_cons.mpr ⟨?_, h⟩
        intro d hd
        rcases List.mem_cons.mp hd with rfl | hd
        · exact hlt
        · exact Nat.lt_trans hlt (hc d hd)
    · split
      · rename_i heq
        split
        · exact hcs
        · exact List.pairwise_cons.mpr ⟨fun d hd => by have := hc d hd; simpa [heq] using this, hcs⟩
      · rename_i hlt hne
        refine List.pairwise_cons.mpr ⟨?_, ih hcs⟩
        intro d hd
        rcases mem_writeCells hd with ⟨rfl, -⟩ | hd
        · show c.1 < a; omega
        · exact hc d hd

/-! ### The memory laws -/

/-- A read after a write to the same address gives the byte written. -/
theorem Memory.read_write_self {m : Memory} (h : m.wf) (a : Nat) (b : Byte) : (m.write a b).read a = b :=
  readCells_writeCells_self a b m.cells h.1

/-- A write leaves every other address alone. -/
theorem Memory.read_write_ne {a a' : Nat} (m : Memory) (b : Byte) (h : a' ≠ a) :
    (m.write a b).read a' = m.read a' :=
  readCells_writeCells_ne b m.cells h

/-- What a read gives after a write, in one equation. -/
theorem Memory.read_write {m : Memory} (h : m.wf) (a a' : Nat) (b : Byte) :
    (m.write a b).read a' = if a' = a then b else m.read a' := by
  split
  · rename_i ha; subst ha; exact Memory.read_write_self h a' b
  · rename_i ha; exact Memory.read_write_ne m b ha

/-- A write keeps the canonical form. -/
theorem Memory.write_wf {m : Memory} (h : m.wf) (a : Nat) (b : Byte) : (m.write a b).wf := by
  refine ⟨writeCells_pairwise a b m.cells h.1, ?_⟩
  intro c hc
  rcases mem_writeCells hc with ⟨rfl, hb⟩ | hc
  · exact hb
  · exact h.2 c hc

/-- A write below the capacity keeps every listed address below it. -/
theorem Memory.write_below {m : Memory} {cap a : Nat} (h : m.below cap) (ha : a < cap) (b : Byte) :
    (m.write a b).below cap := by
  intro c hc
  rcases mem_writeCells hc with ⟨rfl, -⟩ | hc
  · exact ha
  · exact h c hc

theorem Memory.empty_wf : Memory.empty.wf := by simp [Memory.wf, Memory.empty]

theorem Memory.empty_below (cap : Nat) : Memory.empty.below cap := by simp [Memory.below, Memory.empty]

@[simp] theorem Memory.read_empty (a : Nat) : Memory.empty.read a = 0 := rfl

/-- An address no cell lists reads as the unlisted byte. -/
theorem Memory.read_of_not_below {m : Memory} {cap a : Nat} (h : m.below cap) (ha : cap ≤ a) :
    m.read a = Memory.unlisted :=
  readCells_eq_unlisted_of_forall_ne (fun c hc => by have := h c hc; omega)

theorem readCells_of_mem {cs : List Host.Cell} (h : cs.Pairwise (fun x y => x.1 < y.1)) {c : Host.Cell}
    (hc : c ∈ cs) : readCells c.1 cs = c.2 := by
  induction cs with
  | nil => exact absurd hc List.not_mem_nil
  | cons d cs ih =>
    obtain ⟨hd, hcs⟩ := List.pairwise_cons.mp h
    rcases List.mem_cons.mp hc with rfl | hc
    · simp [readCells]
    · have := hd c hc
      simp only [readCells, if_neg (Nat.ne_of_lt this)]
      exact ih hcs hc

theorem cells_ext {cs ds : List Host.Cell}
    (hc : cs.Pairwise (fun x y => x.1 < y.1)) (hd : ds.Pairwise (fun x y => x.1 < y.1))
    (hc0 : ∀ c ∈ cs, c.2 ≠ Memory.unlisted) (hd0 : ∀ d ∈ ds, d.2 ≠ Memory.unlisted)
    (h : ∀ a, readCells a cs = readCells a ds) : cs = ds := by
  have mem_iff : ∀ {xs ys : List Host.Cell}, xs.Pairwise (fun x y => x.1 < y.1) →
      (∀ c ∈ xs, c.2 ≠ Memory.unlisted) → ys.Pairwise (fun x y => x.1 < y.1) →
      (∀ a, readCells a xs = readCells a ys) → ∀ c ∈ xs, c ∈ ys := by
    intro xs ys hx hx0 hy hxy c hcx
    have hr : readCells c.1 ys = c.2 := by rw [← hxy]; exact readCells_of_mem hx hcx
    have hne : readCells c.1 ys ≠ Memory.unlisted := by rw [hr]; exact hx0 c hcx
    have : ∃ d ∈ ys, d.1 = c.1 := by
      by_contra hno
      refine hne (readCells_eq_unlisted_of_forall_ne ?_)
      intro d hdm he
      exact hno ⟨d, hdm, he⟩
    obtain ⟨d, hdm, he⟩ := this
    have hd2 : d.2 = c.2 := by rw [← readCells_of_mem hy hdm, he, hr]
    have : d = c := Prod.ext he hd2
    rwa [← this]
  have irr : Std.Irrefl (fun x y : Host.Cell => x.1 < y.1) := ⟨fun x => Nat.lt_irrefl x.1⟩
  have nodup : ∀ {xs : List Host.Cell}, xs.Pairwise (fun x y => x.1 < y.1) → xs.Nodup := by
    intro xs hx
    exact hx.imp (fun {x y} hlt he => by rw [he] at hlt; exact Nat.lt_irrefl _ hlt)
  have hp : cs.Perm ds := (List.perm_ext_iff_of_nodup (nodup hc) (nodup hd)).mpr
    (fun c => ⟨mem_iff hc hc0 hd h c, mem_iff hd hd0 hc (fun a => (h a).symm) c⟩)
  exact hp.eq_of_pairwise (fun x y _ _ hxy hyx => absurd (Nat.lt_trans hxy hyx) (Nat.lt_irrefl _)) hc hd

/-- Two canonical memories that read alike are equal data. -/
theorem Memory.ext_read {m n : Memory} (hm : m.wf) (hn : n.wf) (h : ∀ a, m.read a = n.read a) : m = n := by
  cases m; cases n
  exact congrArg Memory.mk (cells_ext hm.1 hn.1 hm.2 hn.2 h)

/-! ### Byte ranges -/

/-- `MemWrite` keeps the canonical form. -/
theorem Memory.writeBytes_wf {m : Memory} (h : m.wf) (a : Nat) (bs : List Byte) : (m.writeBytes a bs).wf := by
  induction bs generalizing m a with
  | nil => exact h
  | cons b bs ih => exact ih (Memory.write_wf h a b) (a + 1)

theorem Memory.writeBytes_below {m : Memory} {cap : Nat} (h : m.below cap) (a : Nat) (bs : List Byte)
    (hl : a + bs.length ≤ cap) : (m.writeBytes a bs).below cap := by
  induction bs generalizing m a with
  | nil => exact h
  | cons b bs ih =>
    simp only [List.length_cons] at hl
    exact ih (Memory.write_below h (by omega) b) (a + 1) (by omega)

/-- What a read gives after `MemWrite`: the stored byte inside the range, the old byte outside it. -/
theorem Memory.read_writeBytes {m : Memory} (h : m.wf) (a : Nat) (bs : List Byte) (a' : Nat) :
    (m.writeBytes a bs).read a' = if a ≤ a' ∧ a' < a + bs.length then bs.getD (a' - a) 0 else m.read a' := by
  induction bs generalizing m a with
  | nil => simp only [Memory.writeBytes, List.length_nil]; rw [if_neg (by omega)]
  | cons b bs ih =>
    simp only [Memory.writeBytes, List.length_cons]
    rw [ih (Memory.write_wf h a b) (a + 1), Memory.read_write h]
    by_cases h1 : a' = a
    · subst h1
      rw [if_neg (by omega), if_pos rfl, if_pos (by omega)]
      simp
    · by_cases h2 : a + 1 ≤ a' ∧ a' < a + 1 + bs.length
      · rw [if_pos h2, if_pos (by omega)]
        obtain ⟨k, hk⟩ : ∃ k, a' - a = k + 1 := ⟨a' - a - 1, by omega⟩
        rw [hk, show a' - (a + 1) = k by omega]
        simp
      · rw [if_neg h2, if_neg h1, if_neg (by omega)]

@[simp] theorem Memory.readBytes_length (m : Memory) (a n : Nat) : (m.readBytes a n).length = n := by
  induction n generalizing a with
  | zero => rfl
  | succ n ih => simp [Memory.readBytes, ih]

/-- Byte `k` of `MemRead(a, n)` is `HB[a+k]`. -/
theorem Memory.getElem?_readBytes (m : Memory) (a n k : Nat) (hk : k < n) :
    (m.readBytes a n)[k]? = some (m.read (a + k)) := by
  induction n generalizing a k with
  | zero => omega
  | succ n ih =>
    cases k with
    | zero => simp [Memory.readBytes]
    | succ k =>
      simp only [Memory.readBytes, List.getElem?_cons_succ]
      rw [ih (a + 1) k (by omega)]
      congr 2; omega

/-- Reading back what `MemWrite` stored. -/
theorem Memory.readBytes_writeBytes {m : Memory} (h : m.wf) (a : Nat) (bs : List Byte) :
    (m.writeBytes a bs).readBytes a bs.length = bs := by
  apply List.ext_getElem?
  intro k
  by_cases hk : k < bs.length
  · rw [Memory.getElem?_readBytes _ _ _ _ hk, Memory.read_writeBytes h, if_pos (by omega),
      show a + k - a = k by omega, List.getElem?_eq_getElem hk]
    simp [hk]
  · rw [List.getElem?_eq_none (by simp; omega), List.getElem?_eq_none (by omega)]

end Sys2Proof.Machine
end

