-- ==== Sys2Proof/Laws/Bits.lean ====
section
/-! SUPPORT. The laws of bit fields in a host buffer: what each bit is after `putbits` (40_bitcursor.md R115), what each bit
of `getbits` is (R113), and that a field written reads back. -/

namespace Sys2Proof.Machine

/-- Bit `p` of the buffer as a truth value: bit `7 - p mod 8` by weight of byte `p div 8` (20_memory.md R63). -/
def Memory.bitAt (m : Memory) (p : Nat) : Bool := (m.read (p / 8)).getLsbD (7 - p % 8)

theorem Memory.bit_eq_bitAt (m : Memory) (p : Nat) : m.bit p = (m.bitAt p).toNat := by
  unfold Memory.bit Memory.bitAt
  rw [BitVec.getLsbD, Nat.testBit_eq_decide_div_mod_eq]
  have h := Nat.mod_two_eq_zero_or_one ((m.read (p / 8)).toNat / 2 ^ (7 - p % 8))
  rcases h with h | h <;> simp [h]

theorem getLsbD_bitMask (p j : Nat) (hj : j < 8) : (bitMask p).getLsbD j = decide (j = 7 - p % 8) := by
  unfold bitMask
  have hp : p % 8 < 8 := Nat.mod_lt _ (by decide)
  generalize p % 8 = q at hp
  rcases q with _ | _ | _ | _ | _ | _ | _ | _ | q <;>
    rcases j with _ | _ | _ | _ | _ | _ | _ | _ | j <;>
    first
    | rfl
    | (exfalso; omega)

/-- The byte of bit `p` after `putBit`: bit `p` is `v`, the others stay (40_bitcursor.md R115). -/
theorem getLsbD_putBit_byte (b : Byte) (p : Nat) (v : Bool) (j : Nat) (hj : j < 8) :
    ((b &&& (0xFF#8 ^^^ bitMask p)) ||| (if v then bitMask p else 0)).getLsbD j
      = if j = 7 - p % 8 then v else b.getLsbD j := by
  have hff : (0xFF#8).getLsbD j = true := by
    rcases j with _ | _ | _ | _ | _ | _ | _ | _ | j <;> first | rfl | (exfalso; omega)
  rw [BitVec.getLsbD_or, BitVec.getLsbD_and, BitVec.getLsbD_xor, hff, getLsbD_bitMask p j hj]
  by_cases h : j = 7 - p % 8
  · cases v <;> simp [h, getLsbD_bitMask p (7 - p % 8) (by omega)]
  · cases v <;> simp [h, getLsbD_bitMask p j hj]

theorem Memory.putBit_wf {m : Memory} (h : m.wf) (p : Nat) (v : Bool) : (m.putBit p v).wf := Memory.write_wf h _ _

theorem Memory.putBit_below {m : Memory} {cap p : Nat} (h : m.below cap) (hp : p < 8 * cap) (v : Bool) :
    (m.putBit p v).below cap := Memory.write_below h (by omega) _

/-- What each bit is after `putBit`. -/
theorem Memory.bitAt_putBit {m : Memory} (h : m.wf) (p : Nat) (v : Bool) (q : Nat) :
    (m.putBit p v).bitAt q = if q = p then v else m.bitAt q := by
  unfold Memory.bitAt Memory.putBit
  rw [Memory.read_write h]
  by_cases hb : q / 8 = p / 8
  · rw [if_pos hb, getLsbD_putBit_byte _ _ _ _ (by omega), ← hb]
    by_cases hq : q = p
    · rw [if_pos hq, if_pos (by rw [hq])]
    · rw [if_neg hq, if_neg (by omega)]
  · rw [if_neg hb, if_neg (by intro e; exact hb (by rw [e]))]

theorem Memory.read_putBit_ne {m : Memory} {p a : Nat} (v : Bool) (h : a ≠ p / 8) :
    (m.putBit p v).read a = m.read a := Memory.read_write_ne m _ h

theorem Memory.putFirstBits_wf {m : Memory} (h : m.wf) (o w u k : Nat) : (m.putFirstBits o w u k).wf := by
  induction k with
  | zero => exact h
  | succ k ih => exact Memory.putBit_wf ih _ _

theorem Memory.putFirstBits_below {m : Memory} {cap : Nat} (h : m.below cap) (o w u k : Nat)
    (hk : o + k ≤ 8 * cap) : (m.putFirstBits o w u k).below cap := by
  induction k with
  | zero => exact h
  | succ k ih => exact Memory.putBit_below (ih (by omega)) (by omega) _

theorem Memory.bitAt_putFirstBits {m : Memory} (h : m.wf) (o w u k q : Nat) :
    (m.putFirstBits o w u k).bitAt q
      = if o ≤ q ∧ q < o + k then u.testBit (w - 1 - (q - o)) else m.bitAt q := by
  induction k with
  | zero => rw [if_neg (by omega)]; rfl
  | succ k ih =>
    simp only [Memory.putFirstBits]
    rw [Memory.bitAt_putBit (Memory.putFirstBits_wf h o w u k), ih]
    by_cases hq : q = o + k
    · subst hq
      rw [if_pos rfl, if_pos (by omega), show o + k - o = k by omega]
    · rw [if_neg hq]
      by_cases hr : o ≤ q ∧ q < o + k
      · rw [if_pos hr, if_pos (by omega)]
      · rw [if_neg hr, if_neg (by omega)]

theorem Memory.read_putFirstBits {m : Memory} (o w u k a : Nat) (h : 8 * a + 8 ≤ o ∨ o + k ≤ 8 * a) :
    (m.putFirstBits o w u k).read a = m.read a := by
  induction k with
  | zero => rfl
  | succ k ih =>
    simp only [Memory.putFirstBits]
    rw [Memory.read_putBit_ne _ (by omega), ih (by omega)]

/-- `putbits` keeps the canonical form. -/
theorem Memory.putBits_wf {m : Memory} (h : m.wf) (o w u : Nat) : (m.putBits o w u).wf :=
  Memory.putFirstBits_wf h o w u w

theorem Memory.putBits_below {m : Memory} {cap : Nat} (h : m.below cap) (o w u : Nat) (hw : o + w ≤ 8 * cap) :
    (m.putBits o w u).below cap := Memory.putFirstBits_below h o w u w hw

/-- What each bit is after `putbits(o, w, u)`: the field inside, the old bit outside (40_bitcursor.md R115). -/
theorem Memory.bitAt_putBits {m : Memory} (h : m.wf) (o w u q : Nat) :
    (m.putBits o w u).bitAt q = if o ≤ q ∧ q < o + w then u.testBit (w - 1 - (q - o)) else m.bitAt q :=
  Memory.bitAt_putFirstBits h o w u w q

/-- A byte that holds no bit of the field keeps its value. -/
theorem Memory.read_putBits {m : Memory} (o w u a : Nat) (h : 8 * a + 8 ≤ o ∨ o + w ≤ 8 * a) :
    (m.putBits o w u).read a = m.read a := Memory.read_putFirstBits o w u w a h

/-- A byte's bit by weight is a bit of the buffer (20_memory.md R63). -/
theorem Memory.getLsbD_read (m : Memory) (a j : Nat) (hj : j < 8) : (m.read a).getLsbD j = m.bitAt (8 * a + (7 - j)) := by
  unfold Memory.bitAt
  rw [show (8 * a + (7 - j)) / 8 = a by omega, show 7 - (8 * a + (7 - j)) % 8 = j by omega]

/-- Two memories with the same bits read alike. -/
theorem Memory.read_eq_of_bitAt {m n : Memory} {a : Nat} (h : ∀ q, 8 * a ≤ q → q < 8 * a + 8 → m.bitAt q = n.bitAt q) :
    m.read a = n.read a := by
  apply BitVec.eq_of_getLsbD_eq
  intro j hj
  rw [Memory.getLsbD_read m a j hj, Memory.getLsbD_read n a j hj]
  exact h _ (by omega) (by omega)

/-! ### Reading a field -/

theorem Memory.getBits_lt (m : Memory) (o w : Nat) : m.getBits o w < 2 ^ w := by
  induction w with
  | zero => simp [Memory.getBits]
  | succ w ih =>
    have hb : m.bit (o + w) < 2 := Nat.mod_lt _ (by decide)
    simp only [Memory.getBits, Nat.pow_succ]
    omega

/-- Each bit of `getbits(o, w)` (40_bitcursor.md R113): bit `k` by weight is the buffer's bit `o + (w-1-k)`. -/
theorem Memory.testBit_getBits (m : Memory) (o w k : Nat) :
    (m.getBits o w).testBit k = (decide (k < w) && m.bitAt (o + (w - 1 - k))) := by
  induction w generalizing k with
  | zero => simp [Memory.getBits]
  | succ w ih =>
    simp only [Memory.getBits, Memory.bit_eq_bitAt]
    cases k with
    | zero =>
      rw [Nat.testBit_zero]
      rw [show w + 1 - 1 - 0 = w by omega]
      cases m.bitAt (o + w) <;> simp
    | succ k =>
      rw [Nat.testBit_add_one,
        show (2 * m.getBits o w + (m.bitAt (o + w)).toNat) / 2 = m.getBits o w by
          cases m.bitAt (o + w) <;> (simp; try omega), ih]
      by_cases hk : k < w
      · simp only [hk, show k + 1 < w + 1 by omega, decide_true, Bool.true_and]
        rw [show w + 1 - 1 - (k + 1) = w - 1 - k by omega]
      · simp [hk]

/-- Reading depends on the bits of the field only. -/
theorem Memory.getBits_congr {m n : Memory} {o w : Nat} (h : ∀ q, o ≤ q → q < o + w → m.bitAt q = n.bitAt q) :
    m.getBits o w = n.getBits o w := by
  apply Nat.eq_of_testBit_eq
  intro k
  rw [Memory.testBit_getBits, Memory.testBit_getBits]
  by_cases hk : k < w
  · rw [h _ (by omega) (by omega)]
  · simp [hk]

/-- A field written reads back (40_bitcursor.md R128, the memory half). -/
theorem Memory.getBits_putBits {m : Memory} (h : m.wf) (o w u : Nat) : (m.putBits o w u).getBits o w = u % 2 ^ w := by
  apply Nat.eq_of_testBit_eq
  intro k
  rw [Memory.testBit_getBits, Nat.testBit_mod_two_pow]
  by_cases hk : k < w
  · rw [Memory.bitAt_putBits h, if_pos (by omega), show w - 1 - (o + (w - 1 - k) - o) = k by omega]
  · simp [hk]

/-- A field read is not changed by a write to bits apart from it. -/
theorem Memory.getBits_putBits_apart {m : Memory} (h : m.wf) (o w u o' w' : Nat) (hd : o' + w' ≤ o ∨ o + w ≤ o') :
    (m.putBits o w u).getBits o' w' = m.getBits o' w' := by
  apply Memory.getBits_congr
  intro q h1 h2
  rw [Memory.bitAt_putBits h, if_neg (by omega)]

/-- At a byte-aligned offset an 8-bit field is the byte (40_bitcursor.md R121). -/
theorem Memory.getBits_byte (m : Memory) (a : Nat) : m.getBits (8 * a) 8 = (m.read a).toNat := by
  apply Nat.eq_of_testBit_eq
  intro k
  rw [Memory.testBit_getBits]
  by_cases hk : k < 8
  · rw [show (m.read a).toNat.testBit k = (m.read a).getLsbD k from rfl, Memory.getLsbD_read m a k hk]
    simp [hk]
  · simp only [hk, decide_false, Bool.false_and]
    exact (Nat.testBit_lt_two_pow (Nat.lt_of_lt_of_le (m.read a).isLt
      (Nat.pow_le_pow_right (by decide) (Nat.le_of_not_lt hk)))).symm

/-- A field of two parts is the first part shifted above the second. -/
theorem Memory.getBits_add (m : Memory) (o v w : Nat) :
    m.getBits o (v + w) = m.getBits o v * 2 ^ w + m.getBits (o + v) w := by
  induction w with
  | zero => simp [Memory.getBits]
  | succ w ih =>
    rw [← Nat.add_assoc, Memory.getBits, ih, Memory.getBits, Nat.pow_succ, Nat.add_assoc o v w]
    ring

/-! ### Octets written one after another -/

theorem Memory.putOctets_wf {m : Memory} (h : m.wf) (o : Nat) (bs : List Byte) : (m.putOctets o bs).wf := by
  induction bs generalizing m o with
  | nil => exact h
  | cons b bs ih => exact ih (Memory.putBits_wf h o 8 b.toNat) (o + 8)

theorem Memory.putOctets_below {m : Memory} {cap : Nat} (h : m.below cap) (o : Nat) (bs : List Byte)
    (hl : o + 8 * bs.length ≤ 8 * cap) : (m.putOctets o bs).below cap := by
  induction bs generalizing m o with
  | nil => exact h
  | cons b bs ih =>
    simp only [List.length_cons] at hl
    exact ih (Memory.putBits_below h o 8 b.toNat (by omega)) (o + 8) (by omega)

/-- Bits outside the octets written keep their values. -/
theorem Memory.bitAt_putOctets_apart {m : Memory} (h : m.wf) (o : Nat) (bs : List Byte) (q : Nat)
    (hq : q < o ∨ o + 8 * bs.length ≤ q) : (m.putOctets o bs).bitAt q = m.bitAt q := by
  induction bs generalizing m o with
  | nil => rfl
  | cons b bs ih =>
    simp only [List.length_cons] at hq
    simp only [Memory.putOctets]
    rw [ih (Memory.putBits_wf h o 8 b.toNat) (o + 8) (by omega), Memory.bitAt_putBits h, if_neg (by omega)]

/-- A byte that holds no bit of the octets written keeps its value. -/
theorem Memory.read_putOctets {m : Memory} (o : Nat) (bs : List Byte) (a : Nat)
    (h : 8 * a + 8 ≤ o ∨ o + 8 * bs.length ≤ 8 * a) : (m.putOctets o bs).read a = m.read a := by
  induction bs generalizing m o with
  | nil => rfl
  | cons b bs ih =>
    simp only [List.length_cons] at h
    simp only [Memory.putOctets]
    rw [ih (o + 8) (by omega), Memory.read_putBits o 8 _ a (by omega)]

/-- Each octet written reads back as an 8-bit field (41_extensible_field.md R160). -/
theorem Memory.getBits_putOctets {m : Memory} (h : m.wf) (o : Nat) (bs : List Byte) (t : Nat) (ht : t < bs.length) :
    (m.putOctets o bs).getBits (o + 8 * t) 8 = (bs[t]).toNat := by
  induction bs generalizing m o t with
  | nil => exact absurd ht (Nat.not_lt_zero _)
  | cons b bs ih =>
    simp only [Memory.putOctets]
    cases t with
    | zero =>
      rw [Memory.getBits_congr (n := m.putBits o 8 b.toNat)]
      · rw [Nat.mul_zero, Nat.add_zero, Memory.getBits_putBits h]
        exact Nat.mod_eq_of_lt b.isLt
      · intro q h1 h2
        exact Memory.bitAt_putOctets_apart (Memory.putBits_wf h o 8 b.toNat) _ _ _ (by omega)
    | succ t =>
      simp only [List.length_cons] at ht
      rw [show o + 8 * (t + 1) = o + 8 + 8 * t by omega, ih (Memory.putBits_wf h o 8 b.toNat) (o + 8) t (by omega)]
      simp

end Sys2Proof.Machine
end

