-- ==== Sys2Proof/Laws/Decode.lean ====
section
/-! SUPPORT. The fields of a command word (30_encoding.md R80): what each field of `mkCmd` is, that the fields make the word,
and how a mask acts field by field. -/

namespace Sys2Proof

@[simp] theorem opcOf_mkCmd (o w : BitVec 8) (i : BitVec 16) : opcOf (mkCmd o w i) = o := by
  apply BitVec.eq_of_getLsbD_eq
  intro k hk
  simp only [opcOf, mkCmd, BitVec.getLsbD_extractLsb', BitVec.getLsbD_append]
  rw [if_neg (by omega), if_neg (by omega), show 24 + k - 16 - 8 = k by omega]
  simp [hk]

@[simp] theorem wOf_mkCmd (o w : BitVec 8) (i : BitVec 16) : wOf (mkCmd o w i) = w := by
  apply BitVec.eq_of_getLsbD_eq
  intro k hk
  simp only [wOf, mkCmd, BitVec.getLsbD_extractLsb', BitVec.getLsbD_append]
  rw [if_neg (by omega), if_pos (by omega), show 16 + k - 16 = k by omega]
  simp [hk]

@[simp] theorem immOf_mkCmd (o w : BitVec 8) (i : BitVec 16) : immOf (mkCmd o w i) = i := by
  apply BitVec.eq_of_getLsbD_eq
  intro k hk
  simp only [immOf, mkCmd, BitVec.getLsbD_extractLsb', BitVec.getLsbD_append]
  rw [if_pos (by omega), Nat.zero_add]
  simp [hk]

/-- A command word is its three fields. -/
theorem mkCmd_fields (c : CmdWord) : mkCmd (opcOf c) (wOf c) (immOf c) = c := by
  apply BitVec.eq_of_getLsbD_eq
  intro k hk
  simp only [mkCmd, opcOf, wOf, immOf, BitVec.getLsbD_extractLsb', BitVec.getLsbD_append]
  by_cases h1 : k < 16
  · simp [h1]
  · by_cases h2 : k - 16 < 8
    · rw [if_neg h1, if_pos h2, show 16 + (k - 16) = k by omega]
      simp [h2]
    · rw [if_neg h1, if_neg h2, show 24 + (k - 16 - 8) = k by omega]
      simp only [show k - 16 - 8 < 8 by omega, decide_true, Bool.true_and]

/-- Equal words have equal fields. -/
theorem mkCmd_inj {o o' w w' : BitVec 8} {i i' : BitVec 16} :
    mkCmd o w i = mkCmd o' w' i' ↔ o = o' ∧ w = w' ∧ i = i' := by
  constructor
  · intro h
    exact ⟨by simpa using congrArg opcOf h, by simpa using congrArg wOf h, by simpa using congrArg immOf h⟩
  · rintro ⟨rfl, rfl, rfl⟩; rfl

/-- A mask acts field by field. -/
theorem mkCmd_and (o o' w w' : BitVec 8) (i i' : BitVec 16) :
    mkCmd o w i &&& mkCmd o' w' i' = mkCmd (o &&& o') (w &&& w') (i &&& i') := by
  apply BitVec.eq_of_getLsbD_eq
  intro k hk
  simp only [mkCmd, BitVec.getLsbD_and, BitVec.getLsbD_append]
  split
  · rfl
  · split <;> rfl

/-- `whenZero` answers its instruction exactly where the reserved bits are zero. -/
theorem whenZero_eq_ok {b : Bool} {c : CmdWord} {i j : Instr} : whenZero b c i = .ok j ↔ b = true ∧ i = j := by
  cases b <;> simp [whenZero]

theorem mkData_lo (hi lo : BitVec 32) : (mkData hi lo).extractLsb' 0 32 = lo := by
  apply BitVec.eq_of_getLsbD_eq
  intro k hk
  simp only [mkData, BitVec.getLsbD_extractLsb', BitVec.getLsbD_append]
  rw [if_pos (by omega), Nat.zero_add]
  simp [hk]

theorem mkData_hi (hi lo : BitVec 32) : (mkData hi lo).extractLsb' 32 32 = hi := by
  apply BitVec.eq_of_getLsbD_eq
  intro k hk
  simp only [mkData, BitVec.getLsbD_extractLsb', BitVec.getLsbD_append]
  rw [if_neg (by omega), show 32 + k - 32 = k by omega]
  simp [hk]

end Sys2Proof
end

