-- ==== Sys2Proof/Laws/State.lean ====
section
/-! SUPPORT. One lemma per field per named update of the state records, each true by rfl. -/

namespace Sys2Proof.Machine

variable (s : State) (x : Instance) (g : Registry)

@[simp] theorem State.setInst_cfg : (s.setInst x).cfg = s.cfg := rfl
@[simp] theorem State.setInst_insts : (s.setInst x).insts = s.insts.set s.port x := rfl
@[simp] theorem State.setInst_reg : (s.setInst x).reg = s.reg := rfl
@[simp] theorem State.setInst_inbox : (s.setInst x).inbox = s.inbox := rfl
@[simp] theorem State.setInst_port : (s.setInst x).port = s.port := rfl
@[simp] theorem State.setInst_rsp : (s.setInst x).rsp = s.rsp := rfl

@[simp] theorem State.setReg_cfg : (s.setReg g).cfg = s.cfg := rfl
@[simp] theorem State.setReg_insts : (s.setReg g).insts = s.insts := rfl
@[simp] theorem State.setReg_reg : (s.setReg g).reg = g := rfl
@[simp] theorem State.setReg_inbox : (s.setReg g).inbox = s.inbox := rfl
@[simp] theorem State.setReg_port : (s.setReg g).port = s.port := rfl
@[simp] theorem State.setReg_rsp : (s.setReg g).rsp = s.rsp := rfl

@[simp] theorem Instance.advance_cur (w : Nat) : (x.advance w).cur = { x.cur with off := x.cur.off + w } := rfl
@[simp] theorem Instance.advance_fx (w : Nat) : (x.advance w).fx = x.fx := rfl
@[simp] theorem Instance.advance_fp (w : Nat) : (x.advance w).fp = x.fp := rfl
@[simp] theorem Instance.advance_fo (w : Nat) : (x.advance w).fo = x.fo := rfl
@[simp] theorem Instance.advance_hb (w : Nat) : (x.advance w).hb = x.hb := rfl

@[simp] theorem Instance.afterPush_cur (r : PushStep) : (x.afterPush r).cur = x.cur := rfl
@[simp] theorem Instance.afterPush_fx (r : PushStep) : (x.afterPush r).fx = x.fx := rfl
@[simp] theorem Instance.afterPush_fp (r : PushStep) : (x.afterPush r).fp = r.fp := rfl
@[simp] theorem Instance.afterPush_fo (r : PushStep) : (x.afterPush r).fo = x.fo.afterPush r.frame := rfl
@[simp] theorem Instance.afterPush_hb (r : PushStep) : (x.afterPush r).hb = x.hb := rfl

@[simp] theorem FrameOutput.drop_valid (o : FrameOutput) : o.drop.valid = false := rfl
@[simp] theorem FrameOutput.drop_frame (o : FrameOutput) : o.drop.frame = o.frame := rfl
@[simp] theorem FrameOutput.afterPush_none (o : FrameOutput) : o.afterPush none = o.drop := rfl
@[simp] theorem FrameOutput.afterPush_some (o : FrameOutput) (f : Frame) :
    o.afterPush (some f) = { valid := true, frame := f } := rfl

@[simp] theorem FieldUnit.putLogical_n (f : FieldUnit) (i : Nat) (v : Bool) : (f.putLogical i v).n = f.n := rfl
@[simp] theorem FieldUnit.ofOctets_n (c : Config) (o : List Byte) : (FieldUnit.ofOctets c o).n = o.length := rfl
@[simp] theorem FieldUnit.empty_n (c : Config) : (FieldUnit.empty c).n = 0 := rfl

@[simp] theorem Registry.seal_isSealed : g.seal.isSealed = true := rfl
@[simp] theorem Registry.seal_n : g.seal.n = g.n := rfl
@[simp] theorem Registry.seal_entries : g.seal.entries = g.entries := rfl
@[simp] theorem Registry.append_isSealed (e : RegEntry) : (g.append e).isSealed = g.isSealed := rfl
@[simp] theorem Registry.append_n (e : RegEntry) : (g.append e).n = g.n + 1 := rfl
@[simp] theorem Registry.append_entries (e : RegEntry) : (g.append e).entries = g.entries.set g.n e := rfl

@[simp] theorem Response.ok_status (v : DataWord) : (Response.ok v).status = .sOk := rfl
@[simp] theorem Response.ok_value (v : DataWord) : (Response.ok v).value = v := rfl
@[simp] theorem Response.ok_bytes (v : DataWord) : (Response.ok v).bytes = [] := rfl
@[simp] theorem Response.ok_frame (v : DataWord) : (Response.ok v).frame = none := rfl
@[simp] theorem Response.error_status (e : Status) (v : DataWord) : (Response.error e v).status = e := rfl
@[simp] theorem Response.error_value (e : Status) (v : DataWord) : (Response.error e v).value = v := rfl
@[simp] theorem Response.error_bytes (e : Status) (v : DataWord) : (Response.error e v).bytes = [] := rfl
@[simp] theorem Response.error_frame (e : Status) (v : DataWord) : (Response.error e v).frame = none := rfl

@[simp] theorem PushStep.quiet_fp (fp : ParserUnit) : (PushStep.quiet fp).fp = fp := rfl
@[simp] theorem PushStep.quiet_ok (fp : ParserUnit) : (PushStep.quiet fp).ok = false := rfl
@[simp] theorem PushStep.quiet_frame (fp : ParserUnit) : (PushStep.quiet fp).frame = none := rfl
@[simp] theorem PushStep.response_status (r : PushStep) : r.response.status = .sOk := rfl
@[simp] theorem PushStep.response_value (r : PushStep) : r.response.value = bit01 r.ok := rfl
@[simp] theorem PushStep.response_bytes (r : PushStep) : r.response.bytes = [] := rfl
@[simp] theorem PushStep.response_frame (r : PushStep) : r.response.frame = r.frame := rfl

end Sys2Proof.Machine
end

