-- ==== Sys2Proof/Laws/Ops.lean ====
section
/-! SUPPORT. What the shared operations can do, said once each: responding, raising, running a command on the issuing
instance, the access check R112, the cursor read and write. -/

namespace Sys2Proof.Machine

open Host

/-- An outcome `next t` of `respond` is the state with the response. -/
@[simp] theorem State.respond_next (s t : State) (r : Response) : s.respond r = .next t ↔ t = { s with rsp := r } := by
  unfold State.respond
  constructor
  · intro h; injection h with h; exact h.symm
  · rintro rfl; rfl

/-- An error changes the response alone (60_exceptions.md R302). -/
@[simp] theorem State.raise_next (s t : State) (e : Status) (info : DataWord) :
    s.raise e info = .next t ↔ t = { s with rsp := Response.error e info } := State.respond_next s t _

/-- With the issuing instance present, `withInst` hands it over. -/
theorem State.withInst_of_some {s : State} {x : Instance} (h : s.insts[s.port]? = some x)
    (f : Instance → Outcome State Fault Refusal) : s.withInst f = f x := by
  simp [State.withInst, h]

theorem State.withProfile_of_some {s : State} {p : Profile} (h : s.cfg.instProfile? s.port = some p)
    (f : Profile → Outcome State Fault Refusal) : s.withProfile f = f p := by
  simp [State.withProfile, h]

/-- An outcome `next` of `withInst` means the issuing instance exists. -/
theorem State.withInst_next {s t : State} {f : Instance → Outcome State Fault Refusal}
    (h : s.withInst f = .next t) : ∃ x, s.insts[s.port]? = some x ∧ f x = .next t := by
  unfold State.withInst at h
  split at h
  · exact ⟨_, ‹_›, h⟩
  · cases h

theorem State.withProfile_next {s t : State} {f : Profile → Outcome State Fault Refusal}
    (h : s.withProfile f = .next t) : ∃ p, s.cfg.instProfile? s.port = some p ∧ f p = .next t := by
  unfold State.withProfile at h
  split at h
  · exact ⟨_, ‹_›, h⟩
  · cases h

/-- Everything `commit` can do. -/
theorem State.commit_next {s t : State} {r : Reply} (h : s.commit r = .next t) :
    (∃ x a, r = .done x a ∧ t = { s.setInst x with rsp := a }) ∨
    (∃ e info, r = .error e info ∧ t = { s with rsp := Response.error e info }) := by
  cases r with
  | done x a => exact .inl ⟨x, a, rfl, (State.respond_next _ _ _).mp h⟩
  | error e info => exact .inr ⟨e, info, rfl, (State.raise_next _ _ _ _).mp h⟩

/-- Everything a command on the issuing instance can do. -/
theorem State.runInst_next {s t : State} {f : Instance → Reply} (h : s.runInst f = .next t) :
    ∃ x, s.insts[s.port]? = some x ∧
      ((∃ y a, f x = .done y a ∧ t = { s.setInst y with rsp := a }) ∨
       (∃ e info, f x = .error e info ∧ t = { s with rsp := Response.error e info })) := by
  obtain ⟨x, hx, h⟩ := State.withInst_next h
  exact ⟨x, hx, State.commit_next h⟩

/-- Running a command on the issuing instance, by its reply. -/
theorem State.runInst_done {s : State} {x y : Instance} {f : Instance → Reply} {a : Response}
    (hx : s.insts[s.port]? = some x) (hf : f x = .done y a) :
    s.runInst f = .next { s with insts := s.insts.set s.port y, rsp := a } := by
  simp [State.runInst, State.withInst, hx, hf, State.commit, State.respond, State.setInst]

theorem State.runInst_error {s : State} {x : Instance} {f : Instance → Reply} {e : Status} {info : DataWord}
    (hx : s.insts[s.port]? = some x) (hf : f x = .error e info) :
    s.runInst f = .next { s with rsp := Response.error e info } := by
  simp [State.runInst, State.withInst, hx, hf, State.commit, State.raise, State.respond]

/-- Storing the issuing instance as it is changes nothing. -/
theorem State.set_same {s : State} {x : Instance} (hx : s.insts[s.port]? = some x) :
    s.insts.set s.port x = s.insts := by
  obtain ⟨hl, he⟩ := List.getElem?_eq_some_iff.mp hx
  rw [← he]; exact List.set_getElem_self hl

/-- A command that answers without changing the issuing instance changes the response alone. -/
theorem State.runInst_done_same {s : State} {x : Instance} {f : Instance → Reply} {a : Response}
    (hx : s.insts[s.port]? = some x) (hf : f x = .done x a) : s.runInst f = .next { s with rsp := a } := by
  rw [State.runInst_done hx hf, State.set_same hx]

/-! ### The access check -/

/-- The access check passes exactly when a view is open, the width is legal where it is checked, the view is mutable
where the access writes, and the access ends inside the view (40_bitcursor.md R112). -/
theorem accessError_eq_none {c : CursorUnit} {w : Nat} {wr ck : Bool} :
    accessError c w wr ck = none ↔
      c.isOpen = true ∧ (ck = true → 1 ≤ w ∧ w ≤ wMax) ∧ (wr = true → c.mode = .rw) ∧ c.off + w ≤ 8 * c.len := by
  have hm : ∀ m : ViewMode, (m == .ro) = true ↔ m ≠ .rw := by intro m; cases m <;> decide
  unfold accessError
  constructor
  · intro h
    split_ifs at h with h1 h2 h3 h4
    refine ⟨by simpa using h1, fun hc => ?_, fun hw => ?_, by omega⟩
    · simp only [hc, Bool.true_and, Bool.not_eq_true', Bool.and_eq_false_iff, decide_eq_false_iff_not, not_or,
        not_not] at h2
      exact h2
    · by_contra hne
      exact h3 (by rw [hw, Bool.true_and, hm]; exact hne)
  · rintro ⟨h1, h2, h3, h4⟩
    rw [if_neg (by simp [h1]), if_neg, if_neg, if_neg (by omega)]
    · rw [Bool.and_eq_true, hm]
      exact fun h => h.2 (h3 h.1)
    · intro h
      simp only [Bool.and_eq_true, Bool.not_eq_true', Bool.and_eq_false_iff, decide_eq_false_iff_not] at h
      have := h2 h.1
      omega

/-- Everything a cursor read can do: an error of the access check, or the field with the offset moved past it. -/
theorem readField_cases (w : Nat) (ck : Bool) (result : Nat → DataWord) (x : Instance) :
    (∃ e, accessError x.cur w false ck = some e ∧ readField w ck result x = .error e.1 e.2) ∨
    (accessError x.cur w false ck = none ∧
      readField w ck result x = .done (x.advance w) (Response.ok (result (x.hb.getBits x.cur.off w)))) := by
  unfold readField
  cases h : accessError x.cur w false ck with
  | some e => exact .inl ⟨e, rfl, rfl⟩
  | none => exact .inr ⟨rfl, rfl⟩

/-- Everything a cursor write can do: an error of the access check, or the field stored and the offset moved past it. -/
theorem writeField_cases (w : Nat) (ck : Bool) (u : Nat) (x : Instance) :
    (∃ e, accessError x.cur w true ck = some e ∧ writeField w ck u x = .error e.1 e.2) ∨
    (accessError x.cur w true ck = none ∧
      writeField w ck u x = .done
        (({ x with hb := x.hb.putBits x.cur.off w (u % 2 ^ w) } : Instance).advance w) (Response.ok 0)) := by
  unfold writeField
  cases h : accessError x.cur w true ck with
  | some e => exact .inl ⟨e, rfl, rfl⟩
  | none => exact .inr ⟨rfl, rfl⟩

/-- The access check raises one of its four errors (40_bitcursor.md R112). -/
theorem accessError_status {c : CursorUnit} {w : Nat} {wr ck : Bool} {e : Status × DataWord}
    (h : accessError c w wr ck = some e) :
    e = (.eNoCursor, 0) ∨ e = (.eInvalidWidth, zext64 w) ∨ e = (.eReadOnly, zext64 c.off) ∨
      e = (.eInsufficientBuffer, zext64 c.off) := by
  unfold accessError at h
  split_ifs at h <;> simp_all

end Sys2Proof.Machine
end

