-- ==== Sys2Proof/Laws/Field.lean ====
section
/-! SUPPORT. The laws of the extensible field: what growing and writing a logical bit do to each octet
(41_extensible_field.md R152), what the reading loop does on a chain (R155), and the octets on the wire (R160). -/

namespace Sys2Proof.Machine

theorem getLsbD_logicalMask (i j : Nat) (hj : j < 8) : (logicalMask i).getLsbD j = decide (j = 7 - i % 7) := by
  unfold logicalMask
  have hi : i % 7 < 7 := Nat.mod_lt _ (by decide)
  generalize i % 7 = q at hi
  rcases q with _ | _ | _ | _ | _ | _ | _ | q <;>
    rcases j with _ | _ | _ | _ | _ | _ | _ | _ | j <;>
    first
    | rfl
    | (exfalso; omega)

/-- FX.SET materializes octets up to the index's octet. -/
theorem FieldUnit.grow_n (f : FieldUnit) (j : Nat) : (f.grow j).n = max f.n (j + 1) := by
  unfold FieldUnit.grow
  split <;> simp <;> omega

theorem FieldUnit.grow_length (f : FieldUnit) (j : Nat) (hn : f.n ≤ f.oct.length) (hj : j < f.oct.length) :
    (f.grow j).oct.length = f.oct.length := by
  unfold FieldUnit.grow
  split
  · simp; omega
  · rfl

/-- A materialized octet starts at 0 and every other octet stays (41_extensible_field.md R152). -/
theorem FieldUnit.grow_octet (f : FieldUnit) (j k : Nat) (hn : f.n ≤ f.oct.length) :
    (f.grow j).octet k = if f.n ≤ k ∧ k ≤ j then 0 else f.octet k := by
  unfold FieldUnit.grow FieldUnit.octet
  by_cases hjn : j ≥ f.n
  · rw [if_pos hjn]
    simp only [List.getD_eq_getElem?_getD, List.append_assoc]
    by_cases h1 : k < f.n
    · rw [List.getElem?_append_left (by simp; omega), List.getElem?_take, if_pos h1, if_neg (by omega)]
    · rw [List.getElem?_append_right (by simp; omega)]
      simp only [List.length_take, Nat.min_eq_left hn]
      by_cases h2 : k ≤ j
      · rw [List.getElem?_append_left (by simp; omega), if_pos (by omega), List.getElem?_replicate,
          if_pos (by omega)]
        rfl
      · rw [List.getElem?_append_right (by simp; omega), if_neg (by omega), List.getElem?_drop,
          List.length_replicate]
        congr 2; omega
  · rw [if_neg hjn, if_neg (by omega)]

/-- The octet a logical bit stands in, after the bit is written: that one bit changed (41_extensible_field.md R152). -/
theorem FieldUnit.putLogical_octet_bit (f : FieldUnit) (i : Nat) (v : Bool) (k j : Nat) (hj : j < 8)
    (hi : i / 7 < f.oct.length) :
    ((f.putLogical i v).octet k).getLsbD j
      = if k = i / 7 ∧ j = 7 - i % 7 then v else (f.octet k).getLsbD j := by
  unfold FieldUnit.putLogical FieldUnit.octet
  simp only [List.getD_eq_getElem?_getD]
  by_cases hk : k = i / 7
  · subst hk
    have hff : (0xFF#8).getLsbD j = true := by
      rcases j with _ | _ | _ | _ | _ | _ | _ | _ | j <;> first | rfl | (exfalso; omega)
    rw [List.getElem?_set_self hi, Option.getD_some, BitVec.getLsbD_or, BitVec.getLsbD_and, BitVec.getLsbD_xor, hff,
      getLsbD_logicalMask i j hj]
    by_cases h : j = 7 - i % 7
    · cases v <;> simp [h, getLsbD_logicalMask i (7 - i % 7) (by omega)]
    · cases v <;> simp [h, getLsbD_logicalMask i j hj]
  · rw [List.getElem?_set_ne (by omega), if_neg (by omega)]

@[simp] theorem FieldUnit.putLogical_length (f : FieldUnit) (i : Nat) (v : Bool) :
    (f.putLogical i v).oct.length = f.oct.length := by simp [FieldUnit.putLogical]

/-- FX.GET of a materialized index reads the bit of the index's mask (41_extensible_field.md R141, R151). -/
theorem FieldUnit.get_eq (f : FieldUnit) (i : Nat) :
    f.get i = if i / 7 < f.n then (if (f.octet (i / 7)).getLsbD (7 - i % 7) then 3 else 2) else 0 := by
  unfold FieldUnit.get
  by_cases h : i / 7 < f.n
  · rw [if_neg (by omega), if_pos h, BitVec.getLsbD, Nat.testBit_eq_decide_div_mod_eq]
    have := Nat.mod_two_eq_zero_or_one ((f.octet (i / 7)).toNat / 2 ^ (7 - i % 7))
    rcases this with h2 | h2 <;> rw [h2] <;> rfl
  · rw [if_pos (by omega), if_neg h]

/-- FX.SET keeps the ranges of 10_state.md R27. -/
theorem FieldUnit.setBit_inv {c : Config} {f : FieldUnit} (h : f.Inv c) {i : Nat} (hi : i / 7 < c.fxMax) (v : Bool) :
    (f.setBit i v).Inv c := by
  obtain ⟨h1, h2⟩ := h
  constructor
  · unfold FieldUnit.setBit
    rw [FieldUnit.putLogical_n, FieldUnit.grow_n]; omega
  · unfold FieldUnit.setBit
    rw [FieldUnit.putLogical_length, FieldUnit.grow_length f _ (by omega) (by omega), h2]

theorem FieldUnit.ofOctets_inv (c : Config) {o : List Byte} (h : o.length ≤ c.fxMax) :
    (FieldUnit.ofOctets c o).Inv c := by
  refine ⟨h, ?_⟩
  simp [FieldUnit.ofOctets]; omega

theorem FieldUnit.empty_inv (c : Config) : (FieldUnit.empty c).Inv c := by
  simp [FieldUnit.Inv, FieldUnit.empty]

@[simp] theorem FieldUnit.ofOctets_octets (c : Config) (o : List Byte) : (FieldUnit.ofOctets c o).octets = o := by
  simp [FieldUnit.ofOctets, FieldUnit.octets]

/-! ### The reading loop -/

/-- The loop passes over octets whose FX bit is 1 (41_extensible_field.md R155). -/
theorem readChain_continue (m : Memory) (limit : Nat) (bs : List Byte) (room off : Nat) (pre : List Byte)
    (hroom : bs.length ≤ room) (hfit : off + 8 * bs.length ≤ limit)
    (hread : ∀ t (h : t < bs.length), m.getBits (off + 8 * t) 8 = (bs[t]).toNat)
    (hfx : ∀ b ∈ bs, b &&& fxMask ≠ 0) :
    readChain m limit room off pre = readChain m limit (room - bs.length) (off + 8 * bs.length) (pre ++ bs) := by
  induction bs generalizing room off pre with
  | nil => simp
  | cons b bs ih =>
    simp only [List.length_cons] at hroom hfit
    obtain ⟨r, rfl⟩ : ∃ r, room = r + 1 := ⟨room - 1, by omega⟩
    have hb : BitVec.ofNat 8 (m.getBits off 8) = b := by
      have := hread 0 (by simp)
      simp only [Nat.mul_zero, Nat.add_zero, List.getElem_cons_zero] at this
      rw [this]; simp
    rw [readChain, if_neg (by omega)]
    simp only [hb, if_neg (hfx b (List.mem_cons_self ..))]
    rw [ih r (off + 8) (pre ++ [b]) (by omega) (by omega)]
    · rw [List.append_assoc, List.singleton_append, List.length_cons,
        show r + 1 - (bs.length + 1) = r - bs.length by omega,
        show off + 8 + 8 * bs.length = off + 8 * (bs.length + 1) by omega]
    · intro t ht
      have := hread (t + 1) (by simpa using ht)
      rw [show off + 8 + 8 * t = off + 8 * (t + 1) by omega, this]; simp
    · exact fun c hc => hfx c (List.mem_cons_of_mem _ hc)

/-- What a completed read gives: the octets read, none after the first with FX bit 0, all inside the view
(41_extensible_field.md R155). -/
theorem readChain_complete {m : Memory} {limit room off off' : Nat} {pre octs : List Byte}
    (h : readChain m limit room off pre = .complete octs off') :
    ∃ bs b, octs = pre ++ bs ++ [b] ∧ bs.length + 1 ≤ room ∧ off' = off + 8 * (bs.length + 1) ∧ off' ≤ limit ∧
      (∀ c ∈ bs, c &&& fxMask ≠ 0) ∧ b &&& fxMask = 0 ∧
      ∀ t (ht : t < (bs ++ [b]).length), m.getBits (off + 8 * t) 8 = ((bs ++ [b])[t]).toNat := by
  induction room generalizing off pre with
  | zero => simp [readChain] at h
  | succ room ih =>
    rw [readChain] at h
    split at h
    · split at h <;> cases h
    · rename_i hfit
      simp only at h
      have hval : (BitVec.ofNat 8 (m.getBits off 8)).toNat = m.getBits off 8 := by
        rw [BitVec.toNat_ofNat]; exact Nat.mod_eq_of_lt (Memory.getBits_lt m off 8)
      split at h
      · rename_i hfx
        injection h with h1 h2
        refine ⟨[], _, by rw [← h1]; simp, by simp, by simp; omega, by omega, by simp, hfx, ?_⟩
        intro t ht
        have : t = 0 := by simpa using ht
        subst this
        simpa using hval.symm
      · rename_i hfx
        obtain ⟨bs, b, h1, h2, h3, h4, h5, h6, h7⟩ := ih h
        refine ⟨BitVec.ofNat 8 (m.getBits off 8) :: bs, b, by simp [h1], by simp; omega, by simp; omega, h4, ?_, h6, ?_⟩
        · intro c hc
          rcases List.mem_cons.mp hc with rfl | hc
          · exact hfx
          · exact h5 c hc
        · intro t ht
          cases t with
          | zero => simpa using hval.symm
          | succ t =>
            have := h7 t (by simpa using ht)
            rw [show off + 8 * (t + 1) = off + 8 + 8 * t by omega, this]; simp

/-! ### The octets on the wire -/

@[simp] theorem wireOctets_length (o : List Byte) : (wireOctets o).length = o.length := by
  induction o using wireOctets.induct with
  | case1 => rfl
  | case2 b => rfl
  | case3 b c rest ih => rw [wireOctets, List.length_cons, ih]; rfl

/-- Octet `t` on the wire: its data bits, with FX 1 in all but the last octet (41_extensible_field.md R160, R166). -/
theorem wireOctets_getElem (o : List Byte) (t : Nat) (h : t < o.length) :
    (wireOctets o)[t]'(by simpa using h)
      = if t + 1 < o.length then (o[t] &&& dataMask) ||| fxMask else o[t] &&& dataMask := by
  induction o using wireOctets.induct generalizing t with
  | case1 => exact absurd h (Nat.not_lt_zero _)
  | case2 b =>
    have : t = 0 := by simpa using h
    subst this
    rfl
  | case3 b c rest ih =>
    cases t with
    | zero => simp [wireOctets]
    | succ t =>
      simp only [wireOctets, List.getElem_cons_succ]
      rw [ih t (by simpa using h)]
      simp

end Sys2Proof.Machine
end

