-- ==== Sys2Proof/Laws/Inv.lean ====
section
/-! SUPPORT. An evaluable check that a concrete state meets `State.Inv`, and that it does what it says. -/

namespace Sys2Proof.Machine

/-- `CursorUnit.Inv`, evaluated. -/
def CursorUnit.check (c : Config) (u : CursorUnit) : Bool :=
  decide (u.len ≤ c.hbCap) && decide (u.off ≤ 8 * u.len) && (u.isOpen || u == CursorUnit.closed)

/-- `ParserUnit.Inv`, evaluated. -/
def ParserUnit.check (c : Config) (p : Profile) (fp : ParserUnit) : Bool :=
  decide (ParserState.fits p fp.st = true ∧ fp.buf.length = c.bufCap ∧ fp.cnt ≤ c.bufCap
    ∧ fp.hdr.length = Profile.headerLen p ∧ fp.hcnt ≤ Profile.headerLen p
    ∧ fp.plen ≤ c.bufCap ∧ fp.trl.length = 2 ∧ fp.tcnt ≤ 2
    ∧ (fp.st = .bHeader → fp.hcnt < Profile.headerLen p ∧ fp.cnt = 0)
    ∧ (fp.st = .bPayload → fp.cnt < fp.plen)
    ∧ (fp.st = .bTrailer → fp.tcnt < 2 ∧ fp.cnt = fp.plen ∧ Profile.hasTrailer p = true))

/-- `Memory.Inv`, evaluated. -/
def Memory.check (c : Config) (m : Memory) : Bool := decide (m.wf ∧ m.below c.hbCap)

/-- `Instance.Inv`, evaluated. -/
def Instance.check (c : Config) (p : Profile) (x : Instance) : Bool :=
  x.cur.check c && decide (x.fx.n ≤ c.fxMax ∧ x.fx.oct.length = c.fxMax) && x.fp.check c p
  && decide (x.fo.frame.payload.length ≤ c.bufCap ∧ x.fo.frame.id.length ≤ max c.bufCap idMax) && x.hb.check c

/-- No entry after `b` has a key that `b`'s profile matches to an entry before it. -/
def pairCheck (c : Config) (a b : RegEntry) : Bool :=
  match c.profile? b.proto with
  | some p => !keyMatches p b.proto b.id a
  | none => true

/-- `Registry.Inv`, evaluated. -/
def Registry.check (c : Config) (g : Registry) : Bool :=
  decide (g.n ≤ c.regCap ∧ g.entries.length = c.regCap ∧ (∀ e ∈ g.entries, e.id.length ≤ idMax)
    ∧ (∀ e ∈ g.used, (c.profile? e.proto).isSome) ∧ g.used.Pairwise (fun a b => pairCheck c a b = true))

/-- `State.Inv`, evaluated. -/
def State.check (s : State) : Bool :=
  s.cfg.wf && decide (s.insts.length = s.cfg.nInst ∧ s.port < s.insts.length)
  && (List.range s.insts.length).all (fun k =>
      match s.insts[k]?, s.cfg.instProfile? k with
      | some x, some p => x.check s.cfg p
      | _, _ => false)
  && s.reg.check s.cfg

theorem CursorUnit.inv_of_check {c : Config} {u : CursorUnit} (h : u.check c = true) : u.Inv c := by
  simp only [CursorUnit.check, Bool.and_eq_true, decide_eq_true_eq, Bool.or_eq_true, beq_iff_eq] at h
  refine ⟨h.1.1, h.1.2, fun hc => ?_⟩
  rcases h.2 with h2 | h2
  · rw [hc] at h2; cases h2
  · exact h2

theorem Instance.inv_of_check {c : Config} {p : Profile} {x : Instance} (h : x.check c p = true) : x.Inv c p := by
  simp only [Instance.check, ParserUnit.check, Memory.check, Bool.and_eq_true, decide_eq_true_eq] at h
  exact ⟨CursorUnit.inv_of_check h.1.1.1.1, h.1.1.1.2, h.1.1.2, h.1.2, h.2⟩

theorem Registry.inv_of_check {c : Config} {g : Registry} (h : g.check c = true) : g.Inv c := by
  simp only [Registry.check, decide_eq_true_eq] at h
  refine ⟨h.1, h.2.1, h.2.2.1, h.2.2.2.1, h.2.2.2.2.imp ?_⟩
  intro a b hab p hp
  simp only [pairCheck, hp, Bool.not_eq_true'] at hab
  exact hab

/-- A state that passes the check meets the invariant. -/
theorem State.inv_of_check {s : State} (h : s.check = true) : s.Inv := by
  simp only [State.check, Bool.and_eq_true, decide_eq_true_eq, List.all_eq_true, List.mem_range] at h
  obtain ⟨⟨⟨h1, h2, h3⟩, h4⟩, h5⟩ := h
  refine ⟨h1, h2, h3, fun k x hx => ?_, Registry.inv_of_check h5⟩
  have hk : k < s.insts.length := (List.getElem?_eq_some_iff.mp hx).1
  have hc := h4 k hk
  rw [hx] at hc
  cases hp : s.cfg.instProfile? k with
  | none => rw [hp] at hc; cases hc
  | some p => rw [hp] at hc; exact ⟨p, rfl, Instance.inv_of_check hc⟩

end Sys2Proof.Machine
end

