-- ==== Sys2Proof/Laws/Parser.lean ====
section
/-! SUPPORT. The laws of the parser's shared operations: lengths and values of byte sequences, and what one push can do to
the parser unit (43_frame_parser.md R201 to R227). -/

namespace Sys2Proof.Machine

/-! ### Byte sequences -/

@[simp] theorem beBytes_length (v n : Nat) : (beBytes v n).length = n := by
  induction n generalizing v with
  | zero => rfl
  | succ n ih => simp [beBytes, ih]

@[simp] theorem bytesOf_length (o : ByteOrder) (v n : Nat) : (bytesOf o v n).length = n := by
  cases o <;> simp [bytesOf]

theorem beValue_append_singleton (s : List Byte) (b : Byte) : beValue (s ++ [b]) = beValue s * 256 + b.toNat := by
  simp [beValue, List.foldl_append]

/-- The big-endian bytes of a value read back, modulo what `n` bytes hold. -/
theorem beValue_beBytes (v n : Nat) : beValue (beBytes v n) = v % 256 ^ n := by
  induction n generalizing v with
  | zero => simp [beBytes, beValue, Nat.mod_one]
  | succ n ih =>
    rw [beBytes, beValue_append_singleton, ih, BitVec.toNat_ofNat, pow_succ' 256 n, Nat.mod_mul]
    show v / 256 % 256 ^ n * 256 + v % 256 = _
    omega

/-- The bytes of a value in an order read back in that order. -/
theorem valueOf_bytesOf (o : ByteOrder) (v n : Nat) : valueOf o (bytesOf o v n) = v % 256 ^ n := by
  cases o <;> simp [valueOf, bytesOf, beValue_beBytes]

@[simp] theorem splice_length (s v : List Byte) (off : Nat) (h : off + v.length ≤ s.length) :
    (splice s off v).length = s.length := by
  simp [splice]; omega

/-- The spliced range holds the new bytes. -/
theorem slice_splice (s v : List Byte) (off : Nat) (h : off + v.length ≤ s.length) :
    slice (splice s off v) off v.length = v := by
  unfold slice splice
  rw [List.append_assoc, List.drop_append_of_le_length (by simp; omega)]
  simp

/-- Bytes outside the spliced range stay. -/
theorem getElem?_splice (s v : List Byte) (off k : Nat) (h : off + v.length ≤ s.length)
    (hk : k < off ∨ off + v.length ≤ k) : (splice s off v)[k]? = s[k]? := by
  unfold splice
  rw [List.append_assoc]
  rcases hk with hk | hk
  · rw [List.getElem?_append_left (by simp; omega), List.getElem?_take, if_pos hk]
  · rw [List.getElem?_append_right (by simp; omega), List.getElem?_append_right (by simp; omega), List.getElem?_drop]
    congr 1; simp; omega

/-! ### What one push can do -/

/-- A push emits a checksum-valid frame exactly where its result is 1 (43_frame_parser.md R212, the parser half). -/
def PushStep.Lawful (r : PushStep) : Prop := r.ok = true ↔ ∃ f, r.frame = some f ∧ f.checksumValid = true

theorem PushStep.quiet_lawful (fp : ParserUnit) : (PushStep.quiet fp).Lawful := by simp [PushStep.Lawful]

/-- The ranges of 10_state.md R30 to R33 after `babort()`. -/
theorem binIdle_inv {c : Config} {p : BinProfile} {fp : ParserUnit} (hw : p.wf = true)
    (h1 : fp.buf.length = c.bufCap) (h2 : fp.hdr.length = p.hlen) (h3 : fp.trl.length = 2) :
    (binIdle fp).Inv c (.binary p) := by
  have : 1 ≤ p.sync.length := by
    simp only [BinProfile.wf, Bool.and_eq_true, decide_eq_true_eq] at hw
    omega
  simp [binIdle, ParserUnit.Inv, ParserState.fits, Profile.headerLen, h1, h2, h3]; omega

/-- What a push keeps: the ranges of the parser unit and the lengths of an emitted frame. -/
def PushStep.Keeps (c : Config) (p : Profile) (r : PushStep) : Prop :=
  r.fp.Inv c p ∧ ∀ f, r.frame = some f → f.Inv c

theorem PushStep.quiet_keeps {c : Config} {p : Profile} {fp : ParserUnit} (h : fp.Inv c p) :
    (PushStep.quiet fp).Keeps c p := ⟨h, by simp⟩

theorem addressField_length (p : List Byte) : (addressField p).length ≤ p.length := by
  induction p with
  | nil => simp [addressField]
  | cons b bs ih => rw [addressField]; split <;> simp <;> omega

theorem textFrame_inv {c : Config} {fp : ParserUnit} (h : fp.Inv c .text) (v : Bool) :
    (textFrame c fp.accumulated v).Inv c := by
  have hl : fp.accumulated.length ≤ c.bufCap := by
    simp [ParserUnit.accumulated]; exact .inl h.2.2.1
  have := addressField_length fp.accumulated
  constructor
  · exact hl
  · simp only [textFrame, textId, List.length_drop]
    omega

theorem textStart_inv {c : Config} {fp : ParserUnit} (h : fp.Inv c .text) : (textStart fp).Inv c .text := by
  obtain ⟨h1, h2, h3, h4, h5, h6, h7, h8, -⟩ := h
  exact ⟨rfl, h2, Nat.zero_le _, h4, h5, h6, h7, h8, by simp [textStart], by simp [textStart], by simp [textStart]⟩

theorem textIdle_inv {c : Config} {fp : ParserUnit} (h : fp.Inv c .text) : (textIdle fp).Inv c .text := by
  obtain ⟨h1, h2, h3, h4, h5, h6, h7, h8, -⟩ := h
  exact ⟨rfl, h2, Nat.zero_le _, h4, h5, h6, h7, h8, by simp [textIdle], by simp [textIdle], by simp [textIdle]⟩

/-- A TEXT parser unit with another TEXT state and received checksum. -/
theorem text_state_inv {c : Config} {fp : ParserUnit} (h : fp.Inv c .text) (st : ParserState) (k : BitVec 8)
    (hs : ParserState.fits .text st = true) : ({ fp with st := st, ckrx := k } : ParserUnit).Inv c .text := by
  obtain ⟨h1, h2, h3, h4, h5, h6, h7, h8, -⟩ := h
  refine ⟨hs, h2, h3, h4, h5, h6, h7, h8, ?_, ?_, ?_⟩ <;> (intro he; simp only at he; subst he; simp [ParserState.fits] at hs)

theorem textAccumulate_keeps {c : Config} {fp : ParserUnit} (h : fp.Inv c .text) (hst : fp.st = .accumulating) (b : Byte) :
    (textAccumulate c fp b).Keeps c .text ∧ (textAccumulate c fp b).Lawful := by
  unfold textAccumulate
  split
  · exact ⟨PushStep.quiet_keeps (text_state_inv h .checksum1 fp.ckrx rfl), PushStep.quiet_lawful _⟩
  · split
    · refine ⟨⟨textIdle_inv h, ?_⟩, ?_⟩
      · intro f hf
        simp only at hf
        split at hf
        · injection hf with hf; rw [← hf]; exact textFrame_inv h false
        · cases hf
      · simp only [PushStep.Lawful, Bool.false_eq_true, false_iff, not_exists, not_and]
        intro f hf
        split at hf
        · injection hf with hf; rw [← hf]; simp [textFrame]
        · cases hf
    · split
      · exact ⟨PushStep.quiet_keeps (textIdle_inv h), PushStep.quiet_lawful _⟩
      · rename_i hfull
        refine ⟨PushStep.quiet_keeps ?_, PushStep.quiet_lawful _⟩
        obtain ⟨h1, h2, h3, h4, h5, h6, h7, h8, -⟩ := h
        refine ⟨h1, by simp [h2], ?_, h4, h5, h6, h7, h8, ?_, ?_, ?_⟩
        · show fp.cnt + 1 ≤ c.bufCap; omega
        all_goals (intro he; simp [hst] at he)

/-- One push of a TEXT parser keeps the ranges and is lawful. -/
theorem textStep_keeps {c : Config} {fp : ParserUnit} (h : fp.Inv c .text) (b : Byte) :
    ∃ r, textStep c fp b = some r ∧ r.Keeps c .text ∧ r.Lawful := by
  have restart : (PushStep.quiet (textStart fp)).Keeps c .text ∧ (PushStep.quiet (textStart fp)).Lawful :=
    ⟨PushStep.quiet_keeps (textStart_inv h), PushStep.quiet_lawful _⟩
  have abort : (textAbort fp).Keeps c .text ∧ (textAbort fp).Lawful :=
    ⟨PushStep.quiet_keeps (textIdle_inv h), PushStep.quiet_lawful _⟩
  have hfit := h.1
  unfold textStep
  cases hst : fp.st with
  | sync =>
    refine ⟨_, rfl, PushStep.quiet_keeps ?_, PushStep.quiet_lawful _⟩
    split
    · exact textStart_inv h
    · exact h
  | accumulating =>
    refine ⟨_, rfl, ?_⟩
    split
    · exact restart
    · exact textAccumulate_keeps h hst b
  | checksum1 =>
    refine ⟨_, rfl, ?_⟩
    split
    · exact restart
    · unfold textChecksum1
      split
      · exact ⟨PushStep.quiet_keeps (text_state_inv h .checksum2 _ rfl), PushStep.quiet_lawful _⟩
      · exact abort
  | checksum2 =>
    refine ⟨_, rfl, ?_⟩
    split
    · exact restart
    · unfold textChecksum2
      split
      · exact ⟨PushStep.quiet_keeps (text_state_inv h .expectCr _ rfl), PushStep.quiet_lawful _⟩
      · exact abort
  | expectCr =>
    refine ⟨_, rfl, ?_⟩
    split
    · exact restart
    · unfold textExpectCr
      split
      · exact ⟨PushStep.quiet_keeps (text_state_inv h .expectLf fp.ckrx rfl), PushStep.quiet_lawful _⟩
      · exact abort
  | expectLf =>
    refine ⟨_, rfl, ?_⟩
    split
    · exact restart
    · unfold textExpectLf
      split
      · split
        · refine ⟨⟨textIdle_inv h, ?_⟩, ?_⟩
          · intro f hf; injection hf with hf; rw [← hf]; exact textFrame_inv h true
          · simp [PushStep.Lawful, textFrame]
        · exact ⟨PushStep.quiet_keeps (textIdle_inv h), PushStep.quiet_lawful _⟩
      · exact abort
  | bSync k => rw [hst] at hfit; simp [ParserState.fits] at hfit
  | bHeader => rw [hst] at hfit; simp [ParserState.fits] at hfit
  | bPayload => rw [hst] at hfit; simp [ParserState.fits] at hfit
  | bTrailer => rw [hst] at hfit; simp [ParserState.fits] at hfit

theorem binValidate_keeps {c : Config} {p : BinProfile} {fp : ParserUnit} (hw : p.wf = true)
    (h1 : fp.buf.length = c.bufCap) (h2 : fp.hdr.length = p.hlen) (h3 : fp.trl.length = 2) :
    (binValidate p fp).Keeps c (.binary p) ∧ (binValidate p fp).Lawful := by
  have hid : p.idBytes ≤ idMax := by
    simp only [BinProfile.wf, Bool.and_eq_true, decide_eq_true_eq] at hw
    omega
  unfold binValidate
  simp only
  split
  · refine ⟨⟨binIdle_inv hw h1 h2 h3, ?_⟩, by simp [PushStep.Lawful]⟩
    intro f hf; injection hf with hf; rw [← hf]
    refine ⟨by simp; omega, ?_⟩
    simp only [binId, beBytes_length]
    omega
  · exact ⟨PushStep.quiet_keeps (binIdle_inv hw h1 h2 h3), PushStep.quiet_lawful _⟩

theorem binEndPayload_keeps {c : Config} {p : BinProfile} {fp : ParserUnit} (hw : p.wf = true)
    (h1 : fp.buf.length = c.bufCap) (h2 : fp.hdr.length = p.hlen) (h3 : fp.trl.length = 2)
    (h4 : fp.cnt = fp.plen) (h5 : fp.plen ≤ c.bufCap) (h6 : fp.hcnt ≤ p.hlen) :
    (binEndPayload p fp).Keeps c (.binary p) ∧ (binEndPayload p fp).Lawful := by
  unfold binEndPayload
  split
  · rename_i hck
    refine ⟨PushStep.quiet_keeps ?_, PushStep.quiet_lawful _⟩
    refine ⟨rfl, h1, ?_, h2, h6, h5, h3, ?_, ?_, ?_, ?_⟩ <;> simp [Profile.hasTrailer, hck] <;> omega
  · exact binValidate_keeps hw h1 h2 h3

/-- One push of a BINARY parser keeps the ranges and is lawful. -/
theorem binStep_keeps {c : Config} {p : BinProfile} {fp : ParserUnit} (hw : p.wf = true) (h : fp.Inv c (.binary p))
    (b : Byte) : ∃ r, binStep c p fp b = some r ∧ r.Keeps c (.binary p) ∧ r.Lawful := by
  obtain ⟨h1, h2, h3, h4, h5, h6, h7, h8, h9, h10, h11⟩ := h
  have hlen : 1 ≤ p.sync.length ∧ 1 ≤ p.hlen := by
    simp only [BinProfile.wf, Bool.and_eq_true, decide_eq_true_eq] at hw
    omega
  have h4' : fp.hdr.length = p.hlen := h4
  have h5' : fp.hcnt ≤ p.hlen := h5
  have toSync : ∀ k, k < p.sync.length → ({ fp with st := .bSync k } : ParserUnit).Inv c (.binary p) := by
    intro k hk
    refine ⟨by simpa [ParserState.fits] using hk, h2, h3, h4, h5, h6, h7, h8, ?_, ?_, ?_⟩ <;> (intro he; cases he)
  unfold binStep
  cases hst : fp.st with
  | bSync k =>
    have hk : k < p.sync.length := by rw [hst] at h1; simpa [ParserState.fits] using h1
    refine ⟨_, rfl, ?_⟩
    unfold binSync
    split
    · split
      · refine ⟨PushStep.quiet_keeps ?_, PushStep.quiet_lawful _⟩
        refine ⟨rfl, h2, Nat.zero_le _, h4, Nat.zero_le _, h6, h7, Nat.zero_le _, ?_, ?_, ?_⟩ <;>
          simp [Profile.headerLen]
        omega
      · exact ⟨PushStep.quiet_keeps (toSync _ (by omega)), PushStep.quiet_lawful _⟩
    · split
      · exact ⟨PushStep.quiet_keeps (toSync _ (by omega)), PushStep.quiet_lawful _⟩
      · exact ⟨PushStep.quiet_keeps (toSync _ (by omega)), PushStep.quiet_lawful _⟩
  | bHeader =>
    obtain ⟨h12, h13⟩ := h9 hst
    have h12' : fp.hcnt < p.hlen := h12
    refine ⟨_, rfl, ?_⟩
    unfold binHeader
    simp only
    split
    · unfold binHeaderDone
      simp only
      split
      · exact ⟨PushStep.quiet_keeps (binIdle_inv hw h2 (by simpa using h4') h7), PushStep.quiet_lawful _⟩
      · split
        · exact binEndPayload_keeps hw h2 (by simpa using h4') h7 h13 (Nat.zero_le _) (by simp; omega)
        · rename_i hbad hne
          simp only [not_or, not_lt, gt_iff_lt, not_not] at hbad
          refine ⟨PushStep.quiet_keeps ?_, PushStep.quiet_lawful _⟩
          refine ⟨rfl, h2, h3, by simpa using h4, ?_, ?_, h7, h8, ?_, ?_, ?_⟩ <;> simp [Profile.headerLen] <;> omega
    · refine ⟨PushStep.quiet_keeps ?_, PushStep.quiet_lawful _⟩
      refine ⟨by rw [hst] at h1; simpa [hst] using h1, h2, h3, by simpa using h4, ?_, h6, h7, h8, ?_, ?_, ?_⟩ <;>
        simp [Profile.headerLen, hst] <;> omega
  | bPayload =>
    have h14 := h10 hst
    refine ⟨_, rfl, ?_⟩
    unfold binPayload
    simp only
    split
    · rename_i he
      exact binEndPayload_keeps hw (by simpa using h2) h4' h7 he h6 h5'
    · refine ⟨PushStep.quiet_keeps ?_, PushStep.quiet_lawful _⟩
      refine ⟨by rw [hst] at h1; simpa [hst] using h1, by simpa using h2, ?_, h4, h5, h6, h7, h8, ?_, ?_, ?_⟩ <;>
        simp [hst] <;> omega
  | bTrailer =>
    obtain ⟨h15, h16, h17⟩ := h11 hst
    refine ⟨_, rfl, ?_⟩
    unfold binTrailer
    simp only
    split
    · exact binValidate_keeps hw h2 h4' (by simpa using h7)
    · refine ⟨PushStep.quiet_keeps ?_, PushStep.quiet_lawful _⟩
      refine ⟨by rw [hst] at h1; simpa [hst] using h1, h2, h3, h4, h5, h6, by simpa using h7, ?_, ?_, ?_, ?_⟩ <;>
        simp [hst, h17] <;> omega
  | sync => rw [hst] at h1; simp [ParserState.fits] at h1
  | accumulating => rw [hst] at h1; simp [ParserState.fits] at h1
  | checksum1 => rw [hst] at h1; simp [ParserState.fits] at h1
  | checksum2 => rw [hst] at h1; simp [ParserState.fits] at h1
  | expectCr => rw [hst] at h1; simp [ParserState.fits] at h1
  | expectLf => rw [hst] at h1; simp [ParserState.fits] at h1

/-- One push keeps the ranges of the parser unit, emits frames of the lengths of 10_state.md R40, and its result is 1
exactly where it emits a checksum-valid frame. -/
theorem parserStep_keeps {c : Config} {p : Profile} {fp : ParserUnit} (hw : p.wf = true) (h : fp.Inv c p) (b : Byte) :
    ∃ r, parserStep c p fp b = some r ∧ r.Keeps c p ∧ r.Lawful := by
  cases p with
  | text => exact textStep_keeps h b
  | binary p => exact binStep_keeps hw h b

end Sys2Proof.Machine
end

