-- ==== Sys2Proof/Laws/PerInstr.lean ====
section
/-! SUPPORT. The family TableRow: the command word of each instruction matches a row of spec/opcode_table.json
(30_encoding.md R90), one lemma per constructor. -/

namespace Sys2Proof.Laws

/-- Row `k` of the table matches a word whose fields meet the row's, field by field. -/
theorem inOpcodeTable_of_row {c : CmdWord} (row : CmdWord × CmdWord) (hm : row ∈ opcodeTable)
    (h : c &&& row.2 = row.1) : inOpcodeTable c = true := by
  refine List.any_eq_true.mpr ⟨row, hm, ?_⟩
  simpa using h

/-- The mask of a row acts on the three fields of a word. -/
theorem row_matches {o w mo mw : BitVec 8} {i mi : BitVec 16} {mask pattern : CmdWord} {w' : BitVec 8} {i' : BitVec 16}
    (hmask : mask = mkCmd mo mw mi) (hpat : pattern = mkCmd o w' i') (ho : o &&& mo = o) (hw : w &&& mw = w')
    (hi : i &&& mi = i') : mkCmd o w i &&& mask = pattern := by
  rw [hmask, hpat, mkCmd_and, ho, hw, hi]

namespace TableRow

/-- The instruction's command word matches a row of the opcode table (30_encoding.md R90). -/
def Statement (i : Instr) : Prop := inOpcodeTable (encodeCmd i) = true

theorem nop : Statement .nop := (by decide : inOpcodeTable (mkCmd 0x00 0 0) = true)

theorem curOpen (mode : ViewMode) (src : ViewSource) : Statement (.curOpen mode src) := by
  have h : ∀ w : BitVec 8, (w = openField mode src) → w &&& 0xFC = 0 := by
    rintro w rfl
    cases mode <;> cases src <;> simp only [openField] <;> decide
  exact inOpcodeTable_of_row (0x10000000, 0xFFFCFFFF) (by decide)
    (row_matches (mo := 0xFF) (mw := 0xFC) (mi := 0xFFFF) (w' := 0) (i' := 0) (by decide) (by decide) (by decide)
      (h _ rfl) (by decide))

theorem curClose : Statement .curClose := (by decide : inOpcodeTable (mkCmd 0x11 0 0) = true)

/-- A row whose `W` is an operand and whose `IMM` is reserved. -/
theorem widthRow (o : BitVec 8) (w : BitVec 8) (pattern : CmdWord) (hm : (pattern, (0xFF00FFFF : CmdWord)) ∈ opcodeTable)
    (hpat : pattern = mkCmd o 0 0) : inOpcodeTable (mkCmd o w 0) = true :=
  inOpcodeTable_of_row (pattern, 0xFF00FFFF) hm
    (row_matches (mo := 0xFF) (mw := 0) (mi := 0xFFFF) (w' := 0) (i' := 0) (by simp only; decide) hpat
      (BitVec.and_allOnes (x := o)) (BitVec.and_zero) (by decide))

theorem curRdu (w : BitVec 8) : Statement (.curRdu w) := widthRow 0x12 w 0x12000000 (by decide) (by decide)
theorem curRds (w : BitVec 8) : Statement (.curRds w) := widthRow 0x13 w 0x13000000 (by decide) (by decide)
theorem curWru (w : BitVec 8) (v : DataWord) : Statement (.curWru w v) :=
  widthRow 0x14 w 0x14000000 (by decide) (by decide)
theorem curWrs (w : BitVec 8) (v : DataWord) : Statement (.curWrs w v) :=
  widthRow 0x15 w 0x15000000 (by decide) (by decide)
theorem curRdb8 : Statement .curRdb8 := (by decide : inOpcodeTable (mkCmd 0x16 0 0) = true)
theorem curRdb16 : Statement .curRdb16 := (by decide : inOpcodeTable (mkCmd 0x17 0 0) = true)
theorem curRdb32 : Statement .curRdb32 := (by decide : inOpcodeTable (mkCmd 0x18 0 0) = true)
theorem curWrb8 (v : DataWord) : Statement (.curWrb8 v) :=
  (by decide : inOpcodeTable (mkCmd 0x19 0 0) = true)
theorem curWrb16 (v : DataWord) : Statement (.curWrb16 v) :=
  (by decide : inOpcodeTable (mkCmd 0x1A 0 0) = true)
theorem curWrb32 (v : DataWord) : Statement (.curWrb32 v) :=
  (by decide : inOpcodeTable (mkCmd 0x1B 0 0) = true)
theorem curSkip (n : DataWord) : Statement (.curSkip n) :=
  (by decide : inOpcodeTable (mkCmd 0x1C 0 0) = true)
theorem curTell : Statement .curTell := (by decide : inOpcodeTable (mkCmd 0x1D 0 0) = true)
theorem fxClear : Statement .fxClear := (by decide : inOpcodeTable (mkCmd 0x20 0 0) = true)

theorem fxGet (index : BitVec 16) : Statement (.fxGet index) :=
  inOpcodeTable_of_row (0x21000000, 0xFFFF0000) (by decide)
    (row_matches (mo := 0xFF) (mw := 0xFF) (mi := 0) (w' := 0) (i' := 0) (by decide) (by decide) (by decide)
      (by decide) BitVec.and_zero)

theorem fxSet (v : Bool) (index : BitVec 16) : Statement (.fxSet v index) :=
  inOpcodeTable_of_row (0x22000000, 0xFFFE0000) (by decide)
    (row_matches (mo := 0xFF) (mw := 0xFE) (mi := 0) (w' := 0) (i' := 0) (by decide) (by decide) (by decide)
      (by cases v <;> rfl) BitVec.and_zero)

theorem fxDeser : Statement .fxDeser := (by decide : inOpcodeTable (mkCmd 0x23 0 0) = true)
theorem fxSer : Statement .fxSer := (by decide : inOpcodeTable (mkCmd 0x24 0 0) = true)
theorem fxSize : Statement .fxSize := (by decide : inOpcodeTable (mkCmd 0x25 0 0) = true)

/-- A nibble under a zero nibble: the mask of the upper bits clears it. -/
theorem nibble_mask : ∀ kind : BitVec 4, (0#4 ++ kind : BitVec (4 + 4)) &&& 0xF0 = 0 := by decide

theorem ckCompute (kind : BitVec 4) (start count : BitVec 32) : Statement (.ckCompute kind start count) :=
  inOpcodeTable_of_row (0x30000000, 0xFFF0FFFF) (by decide)
    (row_matches (mo := 0xFF) (mw := 0xF0) (mi := 0xFFFF) (w' := 0) (i' := 0) (by decide) (by decide) (by decide)
      (nibble_mask kind) (by decide))

theorem ckFormat (order : Bool) (kind : BitVec 4) (v : BitVec 16) : Statement (.ckFormat order kind v) := by
  have h : ∀ (o : Bool) (k : BitVec 4), (0#3 ++ BitVec.ofBool o ++ k : BitVec (3 + 1 + 4)) &&& 0xE0 = 0 := by decide
  exact inOpcodeTable_of_row (0x31000000, 0xFFE0FFFF) (by decide)
    (row_matches (mo := 0xFF) (mw := 0xE0) (mi := 0xFFFF) (w' := 0) (i' := 0) (by decide) (by decide) (by decide)
      (h order kind) (by decide))

theorem ckCheck (kind : BitVec 4) (rx : BitVec 16) (start count : BitVec 32) : Statement (.ckCheck kind rx start count) :=
  inOpcodeTable_of_row (0x32000000, 0xFFF00000) (by decide)
    (row_matches (mo := 0xFF) (mw := 0xF0) (mi := 0) (w' := 0) (i' := 0) (by decide) (by decide) (by decide)
      (nibble_mask kind) BitVec.and_zero)

theorem fpPush (b : Byte) : Statement (.fpPush b) := by
  have h : (0#8 ++ b : BitVec (8 + 8)) &&& 0xFF00 = 0 := by
    apply BitVec.eq_of_getLsbD_eq
    intro k hk
    rw [show (0xFF00 : BitVec (8 + 8)) = (0xFF#8 ++ 0#8 : BitVec (8 + 8)) from rfl, BitVec.getLsbD_and,
      BitVec.getLsbD_append, BitVec.getLsbD_append]
    split <;> simp
  exact inOpcodeTable_of_row (0x40000000, 0xFFFFFF00) (by decide)
    (row_matches (mo := 0xFF) (mw := 0xFF) (mi := 0xFF00) (w' := 0) (i' := 0) (by decide) (by decide) (by decide)
      (by decide) h)

theorem fpReset : Statement .fpReset := (by decide : inOpcodeTable (mkCmd 0x41 0 0) = true)
theorem fpWrap (start : Byte) (count : BitVec 32) : Statement (.fpWrap start count) :=
  widthRow 0x42 start 0x42000000 (by decide) (by decide)

theorem regAdd (proto handle : BitVec 8) (m : BitVec 4) (idData : DataWord) : Statement (.regAdd proto handle m idData) := by
  have h : (handle ++ 0#4 ++ m : BitVec (8 + 4 + 4)) &&& 0x00F0 = 0 := by
    apply BitVec.eq_of_getLsbD_eq
    intro k hk
    rw [show (0x00F0 : BitVec (8 + 4 + 4)) = (0#8 ++ 0xF#4 ++ 0#4 : BitVec (8 + 4 + 4)) from rfl, BitVec.getLsbD_and,
      BitVec.getLsbD_append, BitVec.getLsbD_append, BitVec.getLsbD_append, BitVec.getLsbD_append]
    split
    · simp
    · split <;> simp
  exact inOpcodeTable_of_row (0x50000000, 0xFF0000F0) (by decide)
    (row_matches (mo := 0xFF) (mw := 0) (mi := 0x00F0) (w' := 0) (i' := 0) (by decide) (by decide) (by decide)
      BitVec.and_zero h)

theorem regSeal : Statement .regSeal := (by decide : inOpcodeTable (mkCmd 0x51 0 0) = true)

theorem regLookup (proto : BitVec 8) (m : BitVec 4) (idData : DataWord) : Statement (.regLookup proto m idData) := by
  have h : ∀ k : BitVec 4, (0#12 ++ k : BitVec (12 + 4)) &&& 0xFFF0 = 0 := by decide
  exact inOpcodeTable_of_row (0x52000000, 0xFF00FFF0) (by decide)
    (row_matches (mo := 0xFF) (mw := 0) (mi := 0xFFF0) (w' := 0) (i' := 0) (by decide) (by decide) (by decide)
      BitVec.and_zero (h m))

theorem regDispatch : Statement .regDispatch := (by decide : inOpcodeTable (mkCmd 0x53 0 0) = true)

end TableRow

end Sys2Proof.Laws
end

