-- ==== Sys2Proof/Laws/Registry.lean ====
section
/-! SUPPORT. The laws of the registry's search (44_registry_dispatch.md R261, R263, R265). -/

namespace Sys2Proof.Machine

/-- What a search finds: the first entry that meets the test, with its index. -/
theorem findFrom_some {f : RegEntry → Bool} {j k : Nat} {e : RegEntry} {es : List RegEntry}
    (h : findFrom f j es = some (k, e)) : j ≤ k ∧ es[k - j]? = some e ∧ f e = true ∧
      ∀ i, i < k - j → ∀ d, es[i]? = some d → f d = false := by
  induction es generalizing j with
  | nil => simp [findFrom] at h
  | cons d es ih =>
    rw [findFrom] at h
    split at h
    · rename_i hd
      injection h with h; injection h with h1 h2
      subst h1; subst h2
      exact ⟨Nat.le_refl _, by simp, hd, fun i hi => by omega⟩
    · rename_i hd
      obtain ⟨h1, h2, h3, h4⟩ := ih h
      refine ⟨by omega, ?_, h3, ?_⟩
      · rw [show k - j = (k - (j + 1)) + 1 by omega, List.getElem?_cons_succ, h2]
      · intro i hi c hc
        cases i with
        | zero =>
          rw [List.getElem?_cons_zero] at hc
          injection hc with hc
          rw [← hc]; simpa using hd
        | succ i => exact h4 i (by omega) c (by simpa using hc)

/-- A search that finds nothing: no entry meets the test. -/
theorem findFrom_none {f : RegEntry → Bool} {j : Nat} {es : List RegEntry} :
    findFrom f j es = none ↔ ∀ e ∈ es, f e = false := by
  induction es generalizing j with
  | nil => simp [findFrom]
  | cons d es ih =>
    rw [findFrom]
    cases hd : f d <;> simp [hd, ih]

/-- The search finds an entry that meets the test and stands before every other that does. -/
theorem findFrom_of_first {f : RegEntry → Bool} {j i : Nat} {e : RegEntry} {es : List RegEntry}
    (he : es[i]? = some e) (hf : f e = true) (hbefore : ∀ k, k < i → ∀ d, es[k]? = some d → f d = false) :
    findFrom f j es = some (j + i, e) := by
  induction es generalizing j i with
  | nil => simp at he
  | cons d es ih =>
    rw [findFrom]
    cases i with
    | zero =>
      rw [List.getElem?_cons_zero] at he
      injection he with he
      subst he
      rw [if_pos hf]; rfl
    | succ i =>
      have hd := hbefore 0 (by omega) d (by simp)
      rw [if_neg (by simp [hd]), ih (i := i) (by simpa using he)
        (fun k hk c hc => hbefore (k + 1) (by omega) c (by simpa using hc))]
      rw [show j + 1 + i = j + (i + 1) by omega]

/-- The entries in use after an append: the old ones and the new one. -/
theorem Registry.used_append {g : Registry} (e : RegEntry) (h : g.n < g.entries.length) :
    (g.append e).used = g.used ++ [e] := by
  unfold Registry.used
  rw [Registry.append_n, Registry.append_entries, List.take_add_one, List.take_set_of_le (Nat.le_refl _),
    List.getElem?_set_self h]
  rfl

/-- Folding is idempotent: two ids match a third alike when they fold alike. -/
theorem idMatches_text (a b : List Byte) : idMatches .text a b = (a.map foldCase == b.map foldCase) := rfl

theorem idMatches_binary (p : BinProfile) (a b : List Byte) : idMatches (.binary p) a b = (a == b) := rfl

@[simp] theorem idMatches_self (p : Profile) (a : List Byte) : idMatches p a a = true := by
  cases p <;> simp [idMatches]

theorem idMatches_symm (p : Profile) (a b : List Byte) : idMatches p a b = idMatches p b a := by
  cases p <;> rw [Bool.eq_iff_iff] <;> simp only [idMatches, beq_iff_eq] <;> exact eq_comm

theorem idMatches_trans {p : Profile} {a b c : List Byte} (h1 : idMatches p a b = true) (h2 : idMatches p b c = true) :
    idMatches p a c = true := by
  cases p <;> simp only [idMatches, beq_iff_eq] at * <;> exact h1.trans h2

end Sys2Proof.Machine
end

