-- ==== Sys2Proof/Laws/Sequences.lean ====
section
/-! SUPPORT. What a command sequence, a host input and an access-checked command can do, said once each. -/

namespace Sys2Proof.Machine

/-- A sequence in two parts runs as the first part, then the second. -/
theorem runAll_append (a b : List Instr) (s : State) :
    runAll (a ++ b) s =
      (runAll a s).bind (fun r => (runAll b r.2).map (fun q => (r.1 ++ q.1, q.2))) := by
  induction a generalizing s with
  | nil => cases h : runAll b s <;> simp [runAll, h]
  | cons i a ih =>
    rw [List.cons_append, runAll, runAll]
    cases exec i s with
    | next t =>
      simp only [ih]
      cases runAll a t with
      | none => simp
      | some r => simp only [Option.bind_some, Option.map_some, Option.map_map]; congr 1
    | fault f => simp
    | refused r => simp

/-- One command, then the rest. -/
theorem runAll_cons_of_next {i : Instr} {is : List Instr} {s t : State} (h : exec i s = .next t) :
    runAll (i :: is) s = (runAll is t).map (fun r => (t.rsp :: r.1, r.2)) := by
  simp [runAll, h]

/-- As many responses as commands. -/
theorem runAll_length {is : List Instr} {s t : State} {rs : List Response} (h : runAll is s = some (rs, t)) :
    rs.length = is.length := by
  induction is generalizing s rs with
  | nil => simp [runAll] at h; simp [h]
  | cons i is ih =>
    rw [runAll] at h
    cases he : exec i s with
    | next u =>
      rw [he] at h
      simp only [Option.map_eq_some_iff] at h
      obtain ⟨r, hr, hp⟩ := h
      have := ih (rs := r.1) (s := u) (by rw [hr]; obtain ⟨_, _⟩ := r; simp only [Prod.mk.injEq] at hp; simp [hp.2])
      simp only [Prod.mk.injEq] at hp
      rw [← hp.1]; simp [this]
    | fault f => rw [he] at h; cases h
    | refused r => rw [he] at h; cases h

/-- What a host write can do. -/
theorem State.hostWrite_next {s t : State} {k a : Nat} {b : Byte} (h : s.hostWrite k a b = .next t) :
    ∃ x, s.insts[k]? = some x ∧ a < s.cfg.hbCap
      ∧ t = { s with insts := s.insts.set k { x with hb := x.hb.write a b } } := by
  unfold State.hostWrite at h
  split at h
  · rename_i x hx
    split at h
    · rename_i ha
      exact ⟨x, hx, ha, by simpa using h.symm⟩
    · cases h
  · cases h

/-- The instance `k` after a hardware reset: its reset values and its host buffer as it was. -/
theorem State.hardReset_getElem? {s : State} (hn : s.insts.length = s.cfg.nInst) {k : Nat} {x : Instance}
    (hx : s.insts[k]? = some x) : s.hardReset.insts[k]? = some (Instance.initial s.cfg k x.hb) := by
  have hk : k < s.cfg.nInst := by
    rw [← hn]; exact (List.getElem?_eq_some_iff.mp hx).1
  simp [State.hardReset, State.launch, hk, hx]

/-- A command on the issuing instance that makes the access check R112 answers as the check says, and otherwise as `P`. -/
theorem accessAnswers_of {i : Instr} {s : State} {x : Instance} {w : Nat} {isWrite checked : Bool} {f : Instance → Reply}
    {P : Prop} (hx : s.Runs x) (he : exec i s = s.runInst f) (hc : checked = false → 1 ≤ w ∧ w ≤ 64)
    (hf : ∀ e, accessError x.cur w isWrite checked = some e → f x = .error e.1 e.2)
    (hd : accessError x.cur w isWrite checked = none → P) : AccessAnswers i s x w isWrite P := by
  unfold State.Runs at hx
  unfold AccessAnswers
  rw [he]
  have key : ∀ e info, accessError x.cur w isWrite checked = some (e, zext64 info) →
      s.runInst f = .next (s.failed e info) := by
    intro e info h1; rw [State.runInst_error hx (hf _ h1)]; rfl
  split_ifs with h1 h2 h3 h4
  · apply key; simp [accessError, h1, zext64]
  · apply key
    cases checked with
    | true =>
      have h5 : (decide (1 ≤ w) && decide (w ≤ wMax)) = false := by
        rcases h2 with h2 | h2
        · simp [show ¬ 1 ≤ w by omega]
        · simp [show ¬ w ≤ wMax by simp only [wMax]; omega]
      simp [accessError, h1, h5]
    | false => have := hc rfl; omega
  · apply key
    have : 1 ≤ w ∧ w ≤ 64 := by omega
    simp [accessError, h1, wMax, this, h3]
  · apply key
    have : 1 ≤ w ∧ w ≤ 64 := by omega
    have h5 : (isWrite && x.cur.mode == .ro) = false := by
      cases isWrite <;> simp_all
    simp [accessError, h1, wMax, this, h5, h4]
  · apply hd
    rw [accessError_eq_none]
    refine ⟨by simpa using h1, fun _ => by simp [wMax]; omega, fun hw => ?_, by omega⟩
    cases hm : x.cur.mode <;> simp_all

/-- The two wire bytes of a 16-bit value read back in the same order. -/
theorem valueOf_wire16 (o : ByteOrder) (v : BitVec 16) : valueOf o (wire16 o v) = v.toNat := by
  have h : (highByte v).toNat * 256 + (lowByte v).toNat = v.toNat := by
    simp only [highByte, lowByte, BitVec.extractLsb'_toNat, Nat.shiftRight_eq_div_pow]
    have := v.isLt
    omega
  cases o <;> simp [wire16, valueOf, beValue, h]

/-- The two hex characters of a byte are its two digits (42_checksum.md R171, R172). -/
theorem hexval_hexu (d : BitVec 4) : hexval (hexu d) = some d.toNat := by revert d; decide

end Sys2Proof.Machine
end

