-- ==== Sys2Proof/Machine/Assembler.lean ====
section
/-! DEFINITION. The textual form of commands (30_encoding.md R92) and the pseudo-commands that expand to commands (R93).
What R92 leaves open of the text (spaces, negative numbers, numeric kinds, numbers too large, characters past ASCII, other
escapes, ids of more than 8 bytes) is log 11, DESIGN CHOICE. -/

namespace Sys2Proof.Machine

/-- The value of a digit, up to base 16. -/
def digitValue (ch : Char) : Option Nat :=
  if '0' ≤ ch ∧ ch ≤ '9' then some (ch.toNat - '0'.toNat)
  else if 'a' ≤ ch ∧ ch ≤ 'f' then some (ch.toNat - 'a'.toNat + 10)
  else if 'A' ≤ ch ∧ ch ≤ 'F' then some (ch.toNat - 'A'.toNat + 10)
  else none

/-- Digits in a base, `v` read so far. -/
def digits (base v : Nat) : List Char → Option Nat
  | [] => some v
  | ch :: cs =>
    match digitValue ch with
    | some d => if d < base then digits base (v * base + d) cs else none
    | none => none

/-- A number, decimal or `0x` hex (30_encoding.md R92). -/
def numberOf : List Char → Option Nat
  | [] => none
  | ['0', 'x'] => none
  | '0' :: 'x' :: cs => digits 16 0 cs
  | cs => digits 10 0 cs

/-- A number below `2^w`, as a `w`-bit field. -/
def fieldOf (w : Nat) (cs : List Char) : Option (BitVec w) :=
  match numberOf cs with
  | some v => if v < 2 ^ w then some (BitVec.ofNat w v) else none
  | none => none

/-- The value of cur.wrs: a number, or a negative decimal number down to `-2^63` (the examples of 40_bitcursor.md R120). -/
def signedOf : List Char → Option DataWord
  | '-' :: cs =>
    match digits 10 0 cs with
    | some v => if cs ≠ [] ∧ v ≤ 2 ^ 63 then some (BitVec.ofInt 64 (-(v : Int))) else none
    | none => none
  | cs => fieldOf 64 cs

/-- The byte of a character: its ASCII code (00_scope.md R11). A character 0x80 to 0xFF, which has no ASCII code and of which
R11 is silent, is taken as the byte of its Unicode code, and one past 0xFF has none (log 11, DESIGN CHOICE). -/
def charByte (ch : Char) : Option Byte := if ch.toNat < 256 then some (BitVec.ofNat 8 ch.toNat) else none

/-- A byte, or a character in single quotes (30_encoding.md R92). -/
def byteOf : List Char → Option Byte
  | ['\'', ch, '\''] => charByte ch
  | cs => fieldOf 8 cs

/-- The value of all elements, or none where one has none. -/
def allSome {α : Type} : List (Option α) → Option (List α)
  | [] => some []
  | some a :: rest => (allSome rest).map (a :: ·)
  | none :: _ => none

/-- Spaces removed at the front. -/
def trimFront : List Char → List Char
  | ' ' :: cs => trimFront cs
  | cs => cs

/-- Spaces removed at both ends. -/
def trim (cs : List Char) : List Char := (trimFront (trimFront cs).reverse).reverse

/-- Text cut at the commas outside quotes and brackets; `quote` is the open quote, `piece` the current piece reversed. -/
def cut (quote : Option Char) (inBracket : Bool) (piece : List Char) : List Char → List (List Char)
  | [] => [trim piece.reverse]
  | ch :: cs =>
    match quote with
    | some q => cut (if ch = q then none else some q) inBracket (ch :: piece) cs
    | none =>
      if ch = '\'' ∨ ch = '"' then cut (some ch) inBracket (ch :: piece) cs
      else if ch = '[' then cut none true (ch :: piece) cs
      else if ch = ']' then cut none false (ch :: piece) cs
      else if ch = ',' ∧ !inBracket then trim piece.reverse :: cut none false [] cs
      else cut none inBracket (ch :: piece) cs

/-- The operands of a command: none for empty text. -/
def operandsOf (cs : List Char) : List (List Char) := if trim cs = [] then [] else cut none false [] cs

/-- The characters between two double quotes. -/
def unquote : List Char → Option (List Char)
  | '"' :: cs => if cs.getLast? = some '"' then some cs.dropLast else none
  | _ => none

/-- An `ID`: a double-quoted string or a bracketed byte list (30_encoding.md R92). R92 bounds no `ID`, and DATA holds 8 id bytes
(R86): a longer one assembles to nothing (log 11, DESIGN CHOICE). -/
def idOf (cs : List Char) : Option (List Byte) :=
  let bytes := match cs with
    | '[' :: rest =>
      if rest.getLast? = some ']' then allSome ((operandsOf rest.dropLast).map byteOf) else none
    | _ => match unquote cs with
      | some inner => allSome (inner.map charByte)
      | none => none
  match bytes with
  | some bs => if bs.length ≤ idMax then some bs else none
  | none => none

/-- The id bytes from bit 63 of DATA down, the bits below them 0 (30_encoding.md R86). -/
def idData (bs : List Byte) : DataWord := BitVec.ofNat 64 (beValue (bs ++ List.replicate (8 - bs.length) 0))

/-- A kind: `xor8`, `fletcher8`, `crc16`, or its code (30_encoding.md R88, R92). -/
def kindOf (cs : List Char) : Option (BitVec 4) :=
  if cs = "xor8".toList then some 0
  else if cs = "fletcher8".toList then some 1
  else if cs = "crc16".toList then some 2
  else fieldOf 4 cs

/-- `ro` or `rw` (30_encoding.md R92). -/
def modeOf (cs : List Char) : Option ViewMode :=
  if cs = "ro".toList then some .ro else if cs = "rw".toList then some .rw else none

/-- `le` or `be` (30_encoding.md R92). -/
def orderOf (cs : List Char) : Option Bool :=
  if cs = "le".toList then some false else if cs = "be".toList then some true else none

/-- The bytes of an fp.feed string, where `\r` is CR and `\n` is LF (30_encoding.md R93); a backslash before any other
character is the byte 0x5C (log 11, DESIGN CHOICE). -/
def feedBytes : List Char → List (Option Byte)
  | '\\' :: 'r' :: cs => some chCr :: feedBytes cs
  | '\\' :: 'n' :: cs => some chLf :: feedBytes cs
  | ch :: cs => charByte ch :: feedBytes cs
  | [] => []

/-- The commands with no operand (30_encoding.md R92). -/
def plainCommands : List (String × Instr) :=
  [("nop", .nop), ("cur.close", .curClose), ("cur.rdb8", .curRdb8), ("cur.rdb16", .curRdb16),
   ("cur.rdb32", .curRdb32), ("cur.tell", .curTell), ("fx.clear", .fxClear), ("fx.deser", .fxDeser),
   ("fx.ser", .fxSer), ("fx.size", .fxSize), ("fp.reset", .fpReset), ("reg.seal", .regSeal),
   ("reg.dispatch", .regDispatch)]

/-- A command with no operand, by its mnemonic. -/
def plainCommand (name : List Char) : Option Instr :=
  (plainCommands.find? (fun c => c.1.toList == name)).map (fun c => c.2)

/-- A cursor command with operands (30_encoding.md R92). -/
def cursorCommand (name : List Char) (ops : List (List Char)) : Option Instr :=
  match ops with
  | [a] =>
    if name = "cur.rdu".toList then (fieldOf 8 a).map .curRdu
    else if name = "cur.rds".toList then (fieldOf 8 a).map .curRds
    else if name = "cur.wrb8".toList then (fieldOf 64 a).map .curWrb8
    else if name = "cur.wrb16".toList then (fieldOf 64 a).map .curWrb16
    else if name = "cur.wrb32".toList then (fieldOf 64 a).map .curWrb32
    else if name = "cur.skip".toList then (fieldOf 64 a).map .curSkip
    else if name = "cur.skipb".toList then (fieldOf 61 a).map (fun n => skipBytes n.toNat)
    else none
  | [a, b] =>
    if name = "cur.wru".toList then (fieldOf 8 a).bind (fun w => (fieldOf 64 b).map (.curWru w))
    else if name = "cur.wrs".toList then (fieldOf 8 a).bind (fun w => (signedOf b).map (.curWrs w))
    else if name = "cur.open".toList ∧ b = "fo".toList then (modeOf a).map (fun m => .curOpen m .frameOutput)
    else none
  | [a, b, n] =>
    if name = "cur.open".toList ∧ b = "hb".toList then
      (modeOf a).bind (fun m => (fieldOf 32 n).map (fun len => .curOpen m (.hostBuffer len)))
    else none
  | _ => none

/-- An extensible-field command with operands (30_encoding.md R92). -/
def fieldCommand (name : List Char) (ops : List (List Char)) : Option Instr :=
  match ops with
  | [a] => if name = "fx.get".toList then (fieldOf 16 a).map .fxGet else none
  | [a, v] =>
    if name = "fx.set".toList then
      (fieldOf 16 a).bind (fun i => (fieldOf 1 v).map (fun b => .fxSet (b == 1) i))
    else none
  | _ => none

/-- A checksum command (30_encoding.md R92): `le` is the default order of ck.format. -/
def checksumCommand (name : List Char) (ops : List (List Char)) : Option Instr :=
  match ops with
  | [k, v] =>
    if name = "ck.format".toList then
      (kindOf k).bind (fun kind => (fieldOf 16 v).map (.ckFormat false kind))
    else none
  | [k, a, b] =>
    if name = "ck.format".toList then
      (kindOf k).bind (fun kind => (orderOf a).bind (fun o => (fieldOf 16 b).map (.ckFormat o kind)))
    else if name = "ck.compute".toList then
      (kindOf k).bind (fun kind => (fieldOf 32 a).bind (fun st => (fieldOf 32 b).map (.ckCompute kind st)))
    else none
  | [k, a, b, r] =>
    if name = "ck.check".toList then
      (kindOf k).bind (fun kind => (fieldOf 32 a).bind (fun st => (fieldOf 32 b).bind (fun n =>
        (fieldOf 16 r).map (fun rx => .ckCheck kind rx st n))))
    else none
  | _ => none

/-- A frame-parser or registry command with operands (30_encoding.md R92). -/
def frameCommand (name : List Char) (ops : List (List Char)) : Option Instr :=
  match ops with
  | [a] =>
    if name = "fp.push".toList then (byteOf a).map .fpPush
    else if name = "fp.wrap".toList then (fieldOf 32 a).map (.fpWrap 0)
    else none
  | [a, b] =>
    if name = "fp.wrap".toList then (fieldOf 32 a).bind (fun n => (byteOf b).map (fun st => .fpWrap st n))
    else if name = "reg.lookup".toList then
      (fieldOf 8 a).bind (fun proto => (idOf b).map (fun bs =>
        .regLookup proto (BitVec.ofNat 4 bs.length) (idData bs)))
    else none
  | [a, b, h] =>
    if name = "reg.add".toList then
      (fieldOf 8 a).bind (fun proto => (idOf b).bind (fun bs => (fieldOf 8 h).map (fun handle =>
        .regAdd proto handle (BitVec.ofNat 4 bs.length) (idData bs))))
    else none
  | _ => none

/-- The mnemonic of a line: the text before the first space. -/
def mnemonicOf : List Char → List Char
  | [] => []
  | ch :: cs => if ch = ' ' then [] else ch :: mnemonicOf cs

/-- One line of text: the commands it assembles to (30_encoding.md R92), one for each command and cur.skipb, one per byte for
fp.feed (R93). None where the text has no such form. `decode` and `encode`, whose expansions depend on a response or a
plug-in, are `runDecode` and `encodeSequence`. -/
def assemble (line : List Char) : Option (List Instr) :=
  let name := mnemonicOf (trim line)
  let rest := trim ((trim line).drop name.length)
  if name = "fp.feed".toList then
    match unquote rest with
    | some inner => (allSome (feedBytes inner)).map feed
    | none => none
  else if rest = [] then (plainCommand name).map (fun i => [i])
  else
    let ops := operandsOf rest
    ((cursorCommand name ops).or ((fieldCommand name ops).or
      ((checksumCommand name ops).or (frameCommand name ops)))).map (fun i => [i])

end Sys2Proof.Machine
end

