-- ==== Sys2Proof/Tests/Slice0.lean ====
section
/-! SUPPORT. The model's own tests: words written out from 30_encoding.md R87, ill-formed terms that WellFormed.lean refuses,
single commands from 95_test_vectors.md (the vector's name stands in each comment), and for every obligation with
hypotheses a state and operands that meet them. -/

open Sys2Proof Sys2Proof.Machine

namespace Sys2Proof.Tests

/-! ### Words of R87 -/

theorem test_decode_nop : decode 0x00000000 0 = .ok .nop := by decide
theorem test_decode_curOpen : decode 0x10010000 0x2 = .ok (.curOpen .rw (.hostBuffer 2)) := by decide
theorem test_decode_curOpen_fo : decode 0x10020000 0 = .ok (.curOpen .ro .frameOutput) := by decide
theorem test_decode_curClose : decode 0x11000000 0 = .ok .curClose := by decide
theorem test_decode_curRdu : decode 0x12030000 0 = .ok (.curRdu 3) := by decide
theorem test_decode_curRds : decode 0x13400000 0 = .ok (.curRds 64) := by decide
theorem test_decode_curWru : decode 0x14050000 0x15 = .ok (.curWru 5 0x15) := by decide
theorem test_decode_curWrs : decode 0x15070000 0xFFFFFFFFFFFFFFDB = .ok (.curWrs 7 0xFFFFFFFFFFFFFFDB) := by decide
theorem test_decode_curRdb8 : decode 0x16000000 0 = .ok .curRdb8 := by decide
theorem test_decode_curRdb16 : decode 0x17000000 0 = .ok .curRdb16 := by decide
theorem test_decode_curRdb32 : decode 0x18000000 0 = .ok .curRdb32 := by decide
theorem test_decode_curWrb8 : decode 0x19000000 0x1FF = .ok (.curWrb8 0x1FF) := by decide
theorem test_decode_curWrb16 : decode 0x1A000000 0x1234 = .ok (.curWrb16 0x1234) := by decide
theorem test_decode_curWrb32 : decode 0x1B000000 0xDEADBEEF = .ok (.curWrb32 0xDEADBEEF) := by decide
theorem test_decode_curSkip : decode 0x1C000000 0x11 = .ok (.curSkip 17) := by decide
theorem test_decode_curTell : decode 0x1D000000 0 = .ok .curTell := by decide
theorem test_decode_fxClear : decode 0x20000000 0 = .ok .fxClear := by decide
theorem test_decode_fxGet : decode 0x2100000E 0 = .ok (.fxGet 14) := by decide
theorem test_decode_fxSet : decode 0x22010070 0 = .ok (.fxSet true 112) := by decide
theorem test_decode_fxDeser : decode 0x23000000 0 = .ok .fxDeser := by decide
theorem test_decode_fxSer : decode 0x24000000 0 = .ok .fxSer := by decide
theorem test_decode_fxSize : decode 0x25000000 0 = .ok .fxSize := by decide
theorem test_decode_ckCompute : decode 0x30020000 0x20000003F = .ok (.ckCompute 2 63 2) := by decide
theorem test_decode_ckFormat : decode 0x31120000 0x31C3 = .ok (.ckFormat true 2 0x31C3) := by decide
theorem test_decode_ckCheck : decode 0x3202C331 0x900000000 = .ok (.ckCheck 2 0xC331 0 9) := by decide
theorem test_decode_fpPush : decode 0x40000024 0 = .ok (.fpPush 0x24) := by decide
theorem test_decode_fpReset : decode 0x41000000 0 = .ok .fpReset := by decide
theorem test_decode_fpWrap : decode 0x42240000 0x1 = .ok (.fpWrap 0x24 1) := by decide
theorem test_decode_regAdd : decode 0x50000705 0x4750474253000000 = .ok (.regAdd 0 7 5 0x4750474253000000) := by decide
theorem test_decode_regSeal : decode 0x51000000 0 = .ok .regSeal := by decide
theorem test_decode_regLookup : decode 0x52010002 0x0107000000000000 = .ok (.regLookup 1 2 0x0107000000000000) := by
  decide
theorem test_decode_regDispatch : decode 0x53000000 0 = .ok .regDispatch := by decide

/-- R90: an unassigned opcode, and a reserved bit of W and of IMM (V-CUR-31, V-FX-24). -/
theorem test_decode_illegal :
    decode 0x01000000 0 = .error (.unassignedOpcode 0x01) ∧ decode 0x12080001 0 = .error (.reservedBits 0x12080001)
    ∧ decode 0x22020000 0 = .error (.reservedBits 0x22020000) := by decide

/-- R90, the boundaries of the unassigned ranges: no row has these opcodes. -/
theorem test_unassigned_opcodes : [0x01, 0x0F, 0x1E, 0x1F, 0x26, 0x2F, 0x33, 0x3F, 0x43, 0x4F, 0x54, 0xFF].all
    (fun o => !inOpcodeTable (mkCmd o 0 0)) = true := by decide

/-- The table numbers CMD as bits 31..0 and DATA from bit 32 up. -/
theorem test_decodeTableWord : decodeTableWord 96 0x4750474253000000_50000705 = some (.regAdd 0 7 5 0x4750474253000000)
    ∧ decodeTableWord 32 0x12100000 = some (.curRdu 16) ∧ decodeTableWord 32 0x01000000 = none := by decide

/-! ### Assembler text (R92, R93) -/

/-- The encode sequence of R268 for two bytes, and none for a size past the 32-bit operand (log 18). -/
theorem test_encodeSequence : encodeSequence .text 0x24 2 [.curWrb8 0x41] =
    some [.curOpen .rw (.hostBuffer 2), .curWrb8 0x41, .curClose, .fpWrap 0x24 2]
    ∧ encodeSequence .text 0x24 (2 ^ 32) [] = none := by decide

theorem test_assemble_rdu : assemble "cur.rdu 16".toList = some [.curRdu 16] := by decide
theorem test_assemble_format : assemble "ck.format crc16, be, 0x31C3".toList = some [.ckFormat true 2 0x31C3] := by decide
theorem test_assemble_regAdd :
    assemble "reg.add 0, \"GPGBS\", 7".toList = some [.regAdd 0 7 5 0x4750474253000000] := by decide
theorem test_assemble_feed : assemble "fp.feed \"$A\\r\"".toList = some [.fpPush 0x24, .fpPush 0x41, .fpPush 0x0D] := by
  decide

/-! ### Ill-formed terms are refused -/

theorem test_wf_ckFormat_order : Instr.wf (.ckFormat true 0 0) = false ∧ Instr.wf (.ckFormat true 2 0) = true := by decide
theorem test_wf_ckCheck_upper : Instr.wf (.ckCheck 0 0x131 0 9) = false ∧ Instr.wf (.ckCheck 1 0x131 0 9) = true := by decide

theorem test_profiles_wf : BinProfile.wf Profile.ubx = true ∧ BinProfile.wf Profile.sbf = true := by decide
theorem test_wf_no_sync : BinProfile.wf { Profile.ubx with sync := [] } = false := by decide
theorem test_wf_long_sync : BinProfile.wf { Profile.ubx with sync := [1, 2, 3, 4, 5] } = false := by decide
theorem test_wf_no_header : BinProfile.wf { Profile.ubx with hlen := 0 } = false := by decide
theorem test_wf_long_header : BinProfile.wf { Profile.ubx with hlen := 17 } = false := by decide
theorem test_wf_lenBytes : BinProfile.wf { Profile.sbf with lenBytes := 3, lenOff := 2, idOff := 2 } = false := by decide
theorem test_wf_lenMult : BinProfile.wf { Profile.ubx with lenMult := 0 } = false := by decide
theorem test_wf_no_id : BinProfile.wf { Profile.ubx with idBytes := 0, idMask := 0 } = false := by decide
theorem test_wf_long_id : BinProfile.wf { Profile.ubx with hlen := 16, idBytes := 9 } = false := by decide
theorem test_wf_lenOff : BinProfile.wf { Profile.ubx with lenOff := 3 } = false := by decide
theorem test_wf_idOff : BinProfile.wf { Profile.ubx with idOff := 3 } = false := by decide
theorem test_wf_lenAdj : BinProfile.wf { Profile.ubx with lenAdj := 65536 } = false := by decide
theorem test_wf_idMask : BinProfile.wf { Profile.ubx with idMask := 65536 } = false := by decide
theorem test_wf_ckStart : BinProfile.wf { Profile.ubx with ckStart := 5 } = false := by decide
theorem test_wf_ck_in_coverage : BinProfile.wf { Profile.sbf with ckStart := 1 } = false := by decide
theorem test_wf_ck_on_length : BinProfile.wf { Profile.sbf with ckStart := 6, ckOff := 4 } = false := by decide
theorem test_wf_ck_on_id : BinProfile.wf { Profile.sbf with ckStart := 6, ckOff := 2 } = false := by decide
theorem test_wf_profile : Profile.wf .text = true ∧ Profile.wf (.binary { Profile.ubx with hlen := 0 }) = false := by decide

theorem test_config_wf : Config.wf Config.reference = true := by decide
theorem test_wf_hbCap : Config.wf { Config.reference with hbCap := 0 } = false
    ∧ Config.wf { Config.reference with hbCap := 2 ^ 32 } = false := by decide
theorem test_wf_fxMax : Config.wf { Config.reference with fxMax := 0 } = false
    ∧ Config.wf { Config.reference with fxMax := 9363 } = false := by decide
theorem test_wf_bufCap : Config.wf { Config.reference with bufCap := 0 } = false
    ∧ Config.wf { Config.reference with bufCap := 2 ^ 32 } = false := by decide
theorem test_wf_regCap : Config.wf { Config.reference with regCap := 0 } = false
    ∧ Config.wf { Config.reference with regCap := 257 } = false := by decide
theorem test_wf_many_profiles : Config.wf { Config.reference with profiles := List.replicate 257 (some .text) } = false := by
  decide +kernel
theorem test_wf_bad_profile :
    Config.wf { Config.reference with profiles := [some .text, some (.binary { Profile.ubx with hlen := 0 }), some .text] }
      = false := by decide
theorem test_wf_no_instance : Config.wf { Config.reference with protoId := [] } = false := by decide
theorem test_wf_absent_profile : Config.wf { Config.reference with protoId := [0, 3] } = false := by decide
theorem test_build_refuses : State.build { Config.reference with hbCap := 0 } [] = none := by decide

/-! ### States for the step tests -/

/-- A trailer-checksum profile: SYNC `01 01 02`, header id, length. -/
def trailerProfile : BinProfile :=
  { sync := [1, 1, 2], hlen := 2, lenOff := 1, lenBytes := 1, lenOrder := .be, lenAdj := 0, lenMult := 1, idOff := 0,
    idBytes := 1, idOrder := .be, idMask := 0xFF, ckKind := .fletcher8, ckOrder := .le, ckLoc := .trailer, ckOff := 0,
    ckStart := 0 }

/-- A header-checksum profile: SYNC `A5 5A`, header CRC lo, CRC hi, id, an even length that counts two bytes too many. -/
def headerProfile : BinProfile :=
  { sync := [0xA5, 0x5A], hlen := 4, lenOff := 3, lenBytes := 1, lenOrder := .le, lenAdj := 2, lenMult := 2, idOff := 2,
    idBytes := 1, idOrder := .le, idMask := 0x7F, ckKind := .crc16, ckOrder := .le, ckLoc := .header, ckOff := 0,
    ckStart := 2 }

/-- A small parameter set: instance 0 is TEXT, 1 and 2 are BINARY. -/
def tiny : Config :=
  { hbCap := 12, fxMax := 2, bufCap := 4, nockEmit := true, idSkip := 0, regCap := 2,
    profiles := [some .text, some (.binary trailerProfile), some (.binary headerProfile)], protoId := [0, 1, 2] }

/-- Instance `k` of the small FPCE after launch, its host buffer holding `bytes`. -/
def start (k : Nat) (bytes : List Byte) : Instance := Instance.initial tiny k (Memory.empty.writeBytes 0 bytes)

/-- The small FPCE with `x` as the instance of port `k`, which is in use. -/
def on (k : Nat) (x : Instance) : State :=
  { State.launch tiny [] with insts := (State.launch tiny []).insts.set k x, port := k }

/-- A cursor view of `len` bytes at bit offset `off`. -/
def viewed (x : Instance) (mode : ViewMode) (len off : Nat) : Instance :=
  { x with cur := { isOpen := true, mode := mode, len := len, off := off } }

/-- `x` with the given octets in its field. -/
def fielded (x : Instance) (octs : List Byte) : Instance := { x with fx := FieldUnit.ofOctets tiny octs }

/-- `x` with its parser in state `st` and `bytes` accumulated. -/
def parsing (x : Instance) (st : ParserState) (bytes : List Byte) (ckrx : BitVec 8) : Instance :=
  { x with fp := { x.fp with st := st, buf := bytes ++ List.replicate (4 - bytes.length) 0, cnt := bytes.length, ckrx := ckrx } }

/-- `x` holding frame `f`. -/
def holding (x : Instance) (f : Frame) : Instance := { x with fo := { valid := true, frame := f } }

/-- `s` with `es` registered. -/
def registered (s : State) (isSealed : Bool) (es : List RegEntry) : State :=
  { s with reg := { isSealed := isSealed, n := es.length, entries := es ++ List.replicate (2 - es.length) RegEntry.blank } }

/-- `s` with one command waiting on the port in use. -/
def given (s : State) (cmd : CmdWord) (data : DataWord) : State := { s with inbox := [.command s.port cmd data] }

/-- The status code, value and bytes a command word is answered with. -/
def answer (s : State) (cmd : CmdWord) (data : DataWord) : Option (BitVec 8 × DataWord × List Byte) :=
  match step (given s cmd data) with
  | .next t => some (Status.code t.rsp.status, t.rsp.value, t.rsp.bytes)
  | _ => none

/-- The issuing instance after a command word. -/
def left (s : State) (cmd : CmdWord) (data : DataWord) : Option Instance :=
  match step (given s cmd data) with
  | .next t => t.insts[t.port]?
  | _ => none

/-- The first `n` bytes of the host buffer after a command word. -/
def bytesLeft (s : State) (cmd : CmdWord) (data : DataWord) (n : Nat) : Option (List Byte) :=
  (left s cmd data).map (fun x => x.hb.readBytes 0 n)

/-- The frame a command word's response carries. -/
def frameOf (s : State) (cmd : CmdWord) (data : DataWord) : Option Frame :=
  match step (given s cmd data) with
  | .next t => t.rsp.frame
  | _ => none

/-! ### Single commands -/

/-- R91. -/
theorem test_nop : answer (on 0 (start 0 [])) 0x00000000 0 = some (0x00, 0, []) := by decide
/-- R110's example; V-CUR-20. -/
theorem test_curOpen : (left (on 0 (start 0 [])) 0x10010000 2).map (·.cur)
    = some { isOpen := true, mode := .rw, len := 2, off := 0 }
    ∧ answer (on 0 (start 0 [])) 0x10000000 13 = some (0x89, 13, []) := by decide
/-- V-CUR-21, V-CUR-22. -/
theorem test_curOpen_fo : answer (on 0 (start 0 [])) 0x10020000 0 = some (0x8F, 0, [])
    ∧ answer (on 0 (start 0 [])) 0x10030000 0 = some (0x84, 0, [])
    ∧ bytesLeft (on 0 (holding (start 0 [9, 9, 9]) { id := [0x41], payload := [0x41, 0x42], checksumValid := true }))
        0x10020000 0 3 = some [0x41, 0x42, 9] := by decide
/-- V-CUR-26. -/
theorem test_curClose : (left (on 0 (viewed (start 0 []) .rw 2 16)) 0x11000000 0).map (·.cur)
    = some { isOpen := false, mode := .ro, len := 0, off := 0 } := by decide
/-- V-CUR-2, V-CUR-10. -/
theorem test_curRdu : answer (on 0 (viewed (start 0 [0x07, 0x80]) .ro 2 5)) 0x12030000 0 = some (0x00, 7, [])
    ∧ answer (on 0 (viewed (start 0 [0xAB, 0xCD]) .ro 2 9)) 0x12080000 0 = some (0x81, 9, []) := by decide
/-- V-CUR-6, V-CUR-7, V-CUR-8. -/
theorem test_curRdu_width : answer (on 0 (viewed (start 0 []) .ro 2 0)) 0x12000000 0 = some (0x82, 0, [])
    ∧ answer (on 0 (viewed (start 0 []) .ro 2 0)) 0x12410000 0 = some (0x82, 65, [])
    ∧ answer (on 0 (start 0 [])) 0x12080000 0 = some (0x83, 0, []) := by decide
/-- R118's example; V-CUR-14. -/
theorem test_curRds : answer (on 0 (viewed (start 0 [0xF0]) .ro 1 0)) 0x13040000 0 = some (0x00, 0xFFFFFFFFFFFFFFFF, [])
    ∧ answer (on 0 (viewed (start 0 [0xF0]) .ro 1 4)) 0x13040000 0 = some (0x00, 0, []) := by decide
/-- V-CUR-17, V-CUR-12. -/
theorem test_curWru : bytesLeft (on 0 (viewed (start 0 [0xAA, 0xBB, 0xCC]) .rw 3 4)) 0x14080000 0x12 3
    = some [0xA1, 0x2B, 0xCC]
    ∧ bytesLeft (on 0 (viewed (start 0 []) .rw 1 0)) 0x14040000 0x1F 1 = some [0xF0] := by decide
/-- V-CUR-11, V-CUR-9: the order of the checks. -/
theorem test_curWru_order : answer (on 0 (viewed (start 0 [0xAB, 0xCD]) .ro 2 9)) 0x14080000 0 = some (0x84, 9, [])
    ∧ answer (on 0 (start 0 [])) 0x14000000 5 = some (0x83, 0, []) := by decide
/-- V-CUR-15, V-CUR-13. -/
theorem test_curWrs : bytesLeft (on 0 (viewed (start 0 []) .rw 2 0)) 0x150C0000 0xFFFFFFFFFFFFFFFE 2 = some [0xFF, 0xE0]
    ∧ bytesLeft (on 0 (viewed (start 0 []) .rw 1 0)) 0x15040000 9 1 = some [0x90] := by decide
/-- V-CUR-30. -/
theorem test_curRdb8 : answer (on 0 (viewed (start 0 [0xDE, 0xAD]) .ro 2 0)) 0x16000000 0 = some (0x00, 0xDE, []) := by decide
/-- V-CUR-1. -/
theorem test_curRdb16 : answer (on 0 (viewed (start 0 [0x12, 0x34, 0x56]) .ro 3 4)) 0x17000000 0 = some (0x00, 0x2345, []) := by
  decide
/-- V-CUR-29. -/
theorem test_curRdb32 :
    answer (on 0 (viewed (start 0 [0xDE, 0xAD, 0xBE, 0xEF]) .ro 4 0)) 0x18000000 0 = some (0x00, 0xDEADBEEF, []) := by decide
/-- R124's example. -/
theorem test_curWrb8 : bytesLeft (on 0 (viewed (start 0 [1, 2]) .rw 2 0)) 0x19000000 0x1FF 2 = some [0xFF, 2] := by decide
/-- V-CUR-18, V-CUR-19. -/
theorem test_curWrb16 : bytesLeft (on 0 (viewed (start 0 []) .rw 3 3)) 0x1A000000 0xFFFF 3 = some [0x1F, 0xFF, 0xE0]
    ∧ answer (on 0 (viewed (start 0 []) .rw 1 0)) 0x1A000000 0x1234 = some (0x81, 0, []) := by decide
/-- V-CUR-28. -/
theorem test_curWrb32 : bytesLeft (on 0 (viewed (start 0 []) .rw 4 0)) 0x1B000000 0xDEADBEEF 4
    = some [0xDE, 0xAD, 0xBE, 0xEF] := by decide
/-- V-CUR-23, V-CUR-24. -/
theorem test_curSkip : answer (on 0 (viewed (start 0 []) .rw 2 0)) 0x1C000000 17 = some (0x81, 0, [])
    ∧ (left (on 0 (viewed (start 0 []) .rw 2 0)) 0x1C000000 16).map (·.cur.off) = some 16 := by decide
/-- V-CUR-25, V-CUR-27. -/
theorem test_curTell : answer (on 0 (viewed (start 0 []) .rw 2 16)) 0x1D000000 0 = some (0x00, 16, [])
    ∧ answer (on 0 (start 0 [])) 0x1D000000 0 = some (0x83, 0, []) := by decide
/-- V-FX-23. -/
theorem test_fxClear : (left (on 0 (fielded (start 0 []) [0x80, 0x40])) 0x20000000 0).map (·.fx)
    = some { n := 0, oct := [0, 0] } := by decide
/-- V-FX-6, V-FX-5, V-FX-7. -/
theorem test_fxGet : answer (on 0 (fielded (start 0 []) [0x80, 0x40])) 0x21000008 0 = some (0x00, 3, [])
    ∧ answer (on 0 (fielded (start 0 []) [0x80, 0x40])) 0x21000001 0 = some (0x00, 2, [])
    ∧ answer (on 0 (fielded (start 0 []) [0x80, 0x40])) 0x2100000E 0 = some (0x00, 0, []) := by decide
/-- V-FX-3 and, with FX_MAX = 2, V-FX-15. -/
theorem test_fxSet : (left (on 0 (fielded (start 0 []) [0x80])) 0x22010008 0).map (·.fx)
    = some { n := 2, oct := [0x80, 0x40] }
    ∧ answer (on 0 (start 0 [])) 0x2201000E 0 = some (0x87, 14, []) := by decide
/-- V-FX-10. -/
theorem test_fxDeser : (left (on 0 (viewed (start 0 [0x81, 0x40, 0xAA]) .ro 3 0)) 0x23000000 0).map
    (fun x => (x.fx, x.cur.off)) = some ({ n := 2, oct := [0x81, 0x40] }, 16) := by decide
/-- V-FX-12, V-FX-11 with one octet, V-FX-13 with FX_MAX = 2. -/
theorem test_fxDeser_errors : answer (on 0 (viewed (start 0 []) .ro 0 0)) 0x23000000 0 = some (0x81, 0, [])
    ∧ answer (on 0 (viewed (start 0 [1, 1]) .ro 1 0)) 0x23000000 0 = some (0x86, 8, [])
    ∧ answer (on 0 (viewed (start 0 [1, 1, 1]) .ro 3 0)) 0x23000000 0 = some (0x85, 16, []) := by decide
/-- V-FX-25, V-FX-19. -/
theorem test_fxSer : bytesLeft (on 0 (viewed (fielded (start 0 []) [0x80, 0x02]) .rw 3 3)) 0x24000000 0 3
    = some [0x10, 0x20, 0x40]
    ∧ answer (on 0 (viewed (fielded (start 0 []) [0x80, 0x02]) .rw 1 0)) 0x24000000 0 = some (0x81, 0, []) := by decide
/-- V-FX-9. -/
theorem test_fxSize : answer (on 0 (fielded (start 0 []) [0x80, 0x40])) 0x25000000 0 = some (0x00, 2, []) := by decide
/-- V-CK-6, V-CK-5. -/
theorem test_ckCompute :
    answer (on 0 (start 0 [0x31, 0x32, 0x33, 0x34, 0x35, 0x36, 0x37, 0x38, 0x39])) 0x30020000 0x900000000
      = some (0x00, 0x31C3, [])
    ∧ answer (on 0 (start 0 [0x31, 0x32, 0x33, 0x34, 0x35, 0x36, 0x37, 0x38, 0x39])) 0x30010000 0x900000000
      = some (0x00, 0xDD15, []) := by decide +kernel
/-- V-CK-16 and V-CK-17 with HB_CAP = 12, V-CK-18. -/
theorem test_ckCompute_range : answer (on 0 (start 0 [])) 0x30000000 0x20000000B = some (0x89, 11, [])
    ∧ answer (on 0 (start 0 [0, 0, 0, 0, 0, 0, 0, 0, 0, 0, 0, 0x5A])) 0x30000000 0x10000000B = some (0x00, 0x5A, [])
    ∧ answer (on 0 (start 0 [])) 0x30030000 0 = some (0x88, 3, []) := by decide
/-- V-CK-21, V-CK-22, V-CK-23, V-CK-24. -/
theorem test_ckFormat : answer (on 0 (start 0 [])) 0x31000000 0x10A = some (0x00, 0, [0x30, 0x41])
    ∧ answer (on 0 (start 0 [])) 0x31010000 0xDD15 = some (0x00, 0, [0xDD, 0x15])
    ∧ answer (on 0 (start 0 [])) 0x31020000 0x31C3 = some (0x00, 0, [0xC3, 0x31])
    ∧ answer (on 0 (start 0 [])) 0x31120000 0x31C3 = some (0x00, 0, [0x31, 0xC3]) := by decide
/-- V-CK-25, V-CK-27. -/
theorem test_ckFormat_order : answer (on 0 (start 0 [])) 0x31100000 0x31 = some (0x90, 0x31100000, [])
    ∧ answer (on 0 (start 0 [])) 0x311F0000 0 = some (0x88, 15, []) := by decide
/-- V-CK-10's bytes checked; V-CK-33. -/
theorem test_ckCheck : answer (on 0 (start 0 [0x41, 0x42])) 0x32000003 0x200000000 = some (0x00, 1, [])
    ∧ answer (on 0 (start 0 [0x41, 0x42])) 0x32000002 0x200000000 = some (0x00, 0, [])
    ∧ answer (on 0 (start 0 [0x41, 0x42])) 0x32000131 0x200000000 = some (0x90, 0x32000131, []) := by decide
/-- R204 and R210's example: the LF of `$A*41`; V-FPT-2's mismatch. -/
theorem test_fpPush_text : frameOf (on 0 (parsing (start 0 []) .expectLf [0x41] 0x41)) 0x4000000A 0
    = some { id := [0x41], payload := [0x41], checksumValid := true }
    ∧ answer (on 0 (parsing (start 0 []) .expectLf [0x41] 0x41)) 0x4000000A 0 = some (0x00, 1, [])
    ∧ answer (on 0 (parsing (start 0 []) .expectLf [0x41] 0x42)) 0x4000000A 0 = some (0x00, 0, []) := by decide
/-- R222: after a lone first byte of `01 01 02`, the bytes `01 01 02` do not open a header. -/
theorem test_fpPush_partial_sync :
    (left (on 1 (parsing (start 1 []) (.bSync 2) [] 0)) 0x40000001 0).map (·.fp.st) = some (.bSync 1)
    ∧ (left (on 1 (parsing (start 1 []) (.bSync 1) [] 0)) 0x40000002 0).map (·.fp.st) = some (.bSync 0) := by decide
/-- R211. -/
theorem test_fpReset : (left (on 1 (holding (parsing (start 1 [5]) .bPayload [7] 0)
      { id := [1], payload := [], checksumValid := true })) 0x41000000 0).map (fun x => (x.fp, x.fo.valid, x.hb.read 0))
    = some ((start 1 []).fp, false, 5) := by decide
/-- R240's example, a byte that is no start byte, a length past BUF_CAP. -/
theorem test_fpWrap_text : answer (on 0 (start 0 [0x41])) 0x42240000 1
    = some (0x00, 7, [0x24, 0x41, 0x2A, 0x34, 0x31, 0x0D, 0x0A])
    ∧ answer (on 0 (start 0 [])) 0x42250000 1 = some (0x88, 0x25, [])
    ∧ answer (on 0 (start 0 [])) 0x42240000 5 = some (0x89, 5, []) := by decide
/-- R242 by hand: id 7, length 1, payload 9: FLETCHER8 of `07 01 09` is A = 17, B = 7 + 8 + 17 = 32. -/
theorem test_fpWrap_binary : answer (on 1 (start 1 [7, 0xEE, 9])) 0x42000000 3
    = some (0x00, 8, [1, 1, 2, 7, 1, 9, 17, 32])
    ∧ answer (on 2 (start 2 [0, 0, 7, 0, 9])) 0x42000000 5 = some (0x8A, 3, [])
    ∧ answer (on 1 (start 1 [])) 0x42010000 3 = some (0x90, 0x42010000, []) := by decide
/-- R263's example, a duplicate in another case, and R305's order. -/
theorem test_regAdd : answer (on 0 (start 0 [])) 0x50000705 0x4750474253000000 = some (0x00, 0, [])
    ∧ answer (registered (on 0 (start 0 [])) false [{ proto := 0, id := [0x47, 0x50], handle := 7 }])
        0x50000802 0x6770000000000000 = some (0x8D, 0, [])
    ∧ answer (registered (on 0 (start 0 [])) true []) 0x50FF0709 0 = some (0x8B, 0, [])
    ∧ answer (on 0 (start 0 [])) 0x50000709 0 = some (0x91, 9, []) := by decide
/-- R264. -/
theorem test_regSeal : answer (registered (on 0 (start 0 [])) false [{ proto := 0, id := [0x47], handle := 7 }]) 0x51000000 0
    = some (0x00, 1, []) := by decide
/-- R265's example. -/
theorem test_regLookup :
    answer (registered (on 0 (start 0 [])) true [RegEntry.blank, { proto := 0, id := [0x47, 0x50], handle := 7 }])
      0x52000002 0x6770000000000000 = some (0x00, 0x107, [])
    ∧ answer (registered (on 0 (start 0 [])) true [{ proto := 0, id := [0x47], handle := 7 }])
      0x52000001 0x4800000000000000 = some (0x01, 0, []) := by decide
/-- R266: the held frame's id, and the order of the errors. -/
theorem test_regDispatch :
    answer (registered (on 0 (holding (start 0 []) { id := [0x67], payload := [], checksumValid := false })) true
      [{ proto := 0, id := [0x47], handle := 7 }]) 0x53000000 0 = some (0x00, 7, [])
    ∧ answer (on 0 (start 0 [])) 0x53000000 0 = some (0x8C, 0, [])
    ∧ answer (registered (on 0 (start 0 [])) true []) 0x53000000 0 = some (0x8F, 0, []) := by decide

/-- The machine from reset: a table word placed by `withFetchWord` runs in the next step. -/
theorem test_withFetchWord : (match step (State.reset.withFetchWord 32 0x10010000) with
    | .next t => (t.insts[0]?).map (·.cur.isOpen)
    | _ => none) = some true := by decide

/-! ### Witnesses: every obligation with hypotheses, each clause -/

/-- A parameter set with `HB_CAP < BUF_CAP`. -/
def wide : Config := { tiny with hbCap := 3 }

/-- The open view used by the cursor witnesses: 12 bytes, 8 bits from its end. -/
def view (mode : ViewMode) (off : Nat) : Instance := viewed (start 0 [0xAA, 0xBB]) mode 12 off

/-- A frame with a payload of `n` bytes. -/
def frameOfLength (n : Nat) : Frame := { id := [0x47], payload := List.replicate n 0x41, checksumValid := true }

/-- The entry the registry witnesses register. -/
def entry : RegEntry := { proto := 0, id := [0x47], handle := 7 }

theorem witness_IllegalWordsAreAnswered :
    (given (on 2 (start 2 [])) 0x54000000 0).inbox = .command 2 0x54000000 0 :: [] ∧ 2 < (on 2 (start 2 [])).insts.length
    ∧ inOpcodeTable 0x54000000 = false
    ∧ ∀ o ∈ [0x01, 0x0F, 0x1E, 0x1F, 0x26, 0x2F, 0x33, 0x3F, 0x43, 0x4F, 0x54, 0xFF],
        o = (mkCmd (BitVec.ofNat 8 o) 0 0).toNat / 2 ^ 24 := by decide

theorem witness_StepRunsTheDecodedCommand :
    (given (on 2 (start 2 [])) 0x12080000 0).inbox = .command 2 0x12080000 0 :: [] ∧ 2 < (on 2 (start 2 [])).insts.length
    ∧ decode 0x12080000 0 = .ok (.curRdu 8) := by decide

theorem witness_HostInputsAreTaken :
    (on 0 (start 0 [])).inbox = [] ∧ (on 0 (start 0 [])).insts[2]? = some (start 2 []) ∧ (start 2 []).hb.wf
    ∧ 11 < (on 0 (start 0 [])).cfg.hbCap ∧ ¬ 12 < (on 0 (start 0 [])).cfg.hbCap ∧ (on 0 (start 0 [])).insts.length ≤ 3 := by
  decide

theorem witness_CursorOpenOpensAView_hb : (on 0 (view .rw 3)).Runs (view .rw 3) ∧ (view .rw 3).hb.wf
    ∧ ¬ (on 0 (view .rw 3)).cfg.hbCap < (12 : BitVec 32).toNat ∧ (on 0 (view .rw 3)).cfg.hbCap < (13 : BitVec 32).toNat :=
  ⟨rfl, by decide, by decide, by decide⟩

theorem witness_CursorOpenOpensAView_fo : (on 0 (start 0 [])).Runs (start 0 []) ∧ (start 0 []).fo.valid = false
    ∧ ¬ tiny.hbCap < (holding (start 0 []) (frameOfLength 12)).fo.frame.payload.length
    ∧ tiny.hbCap < (holding (start 0 []) (frameOfLength 13)).fo.frame.payload.length
    ∧ (on 0 (holding (start 0 []) (frameOfLength 12))).Runs (holding (start 0 []) (frameOfLength 12))
    ∧ (on 0 (holding (start 0 []) (frameOfLength 13))).Runs (holding (start 0 []) (frameOfLength 13)) :=
  ⟨rfl, rfl, by decide, by decide, rfl, rfl⟩

theorem witness_CursorCloseSkipTell : (on 0 (start 0 [])).Runs (start 0 []) ∧ (start 0 []).cur.isOpen = false
    ∧ (on 0 (view .ro 88)).Runs (view .ro 88) ∧ (view .ro 88).cur.isOpen = true
    ∧ ¬ 8 * (view .ro 88).cur.len < (view .ro 88).cur.off + (8 : DataWord).toNat
    ∧ 8 * (view .ro 88).cur.len < (view .ro 88).cur.off + (9 : DataWord).toNat :=
  ⟨rfl, rfl, rfl, rfl, by decide, by decide⟩

/-- The branches of the access check for reads: closed, width 0 and 65, one bit too many, exactly to the end. -/
theorem witness_UnsignedReadsTakeTheField : (on 0 (start 0 [])).Runs (start 0 []) ∧ (on 0 (view .ro 88)).Runs (view .ro 88)
    ∧ Instr.unsignedRead (.curRdu 0) = some 0 ∧ Instr.unsignedRead (.curRdu 65) = some 65
    ∧ Instr.unsignedRead (.curRdu 9) = some 9 ∧ 8 * (view .ro 88).cur.len < (view .ro 88).cur.off + 9
    ∧ Instr.unsignedRead .curRdb8 = some 8 ∧ 8 * (view .ro 88).cur.len = (view .ro 88).cur.off + 8
    ∧ Instr.unsignedRead .curRdb16 = some 16 ∧ 8 * (view .ro 80).cur.len = (view .ro 80).cur.off + 16
    ∧ Instr.unsignedRead .curRdb32 = some 32 ∧ 8 * (view .ro 64).cur.len = (view .ro 64).cur.off + 32
    ∧ Instr.unsignedRead (.curRdu 64) = some 64 ∧ 8 * (view .ro 32).cur.len = (view .ro 32).cur.off + 64 :=
  ⟨rfl, rfl, rfl, rfl, rfl, by decide, rfl, by decide, rfl, by decide, rfl, by decide, rfl, by decide⟩

theorem witness_SignedReadsExtendTheSign : (on 0 (view .ro 32)).Runs (view .ro 32) ∧ (view .ro 32).cur.isOpen = true
    ∧ 8 * (view .ro 32).cur.len = (view .ro 32).cur.off + (64 : BitVec 8).toNat
    ∧ (on 0 (view .ro 33)).Runs (view .ro 33) ∧ 8 * (view .ro 33).cur.len < (view .ro 33).cur.off + (64 : BitVec 8).toNat
    ∧ (65 : BitVec 8).toNat > 64 ∧ (0 : BitVec 8).toNat < 1 ∧ (on 0 (start 0 [])).Runs (start 0 []) :=
  ⟨rfl, rfl, by decide, rfl, by decide, by decide, by decide, rfl⟩

theorem witness_CursorWritesStoreTheField : (on 0 (view .rw 88)).Runs (view .rw 88) ∧ (view .rw 88).hb.wf
    ∧ Instr.cursorWrite (.curWrb8 0x1FF) = some (8, 0x1FF) ∧ 8 * (view .rw 88).cur.len = (view .rw 88).cur.off + 8
    ∧ Instr.cursorWrite (.curWru 9 1) = some (9, 1) ∧ 8 * (view .rw 88).cur.len < (view .rw 88).cur.off + 9
    ∧ Instr.cursorWrite (.curWrs 64 1) = some (64, 1) ∧ 8 * (view .rw 32).cur.len = (view .rw 32).cur.off + 64
    ∧ Instr.cursorWrite (.curWrb16 1) = some (16, 1) ∧ Instr.cursorWrite (.curWrb32 1) = some (32, 1)
    ∧ Instr.cursorWrite (.curWru 0 1) = some (0, 1) ∧ Instr.cursorWrite (.curWrs 65 1) = some (65, 1)
    ∧ (on 0 (view .ro 0)).Runs (view .ro 0) ∧ (view .ro 0).cur.mode = .ro ∧ (on 0 (start 0 [])).Runs (start 0 []) :=
  ⟨rfl, by decide, rfl, by decide, rfl, by decide, rfl, by decide, rfl, rfl, rfl, rfl, rfl, rfl, rfl⟩

theorem witness_ByteAlignedHelpersMoveBytes : (on 0 (view .rw 64)).Runs (view .rw 64) ∧ (view .rw 64).hb.wf
    ∧ (view .rw 64).cur.isOpen = true ∧ (view .rw 64).cur.off = 8 * 8 ∧ 8 + 4 = (view .rw 64).cur.len
    ∧ (view .rw 80).cur.off = 8 * 10 ∧ 10 + 2 = (view .rw 80).cur.len
    ∧ (view .rw 88).cur.off = 8 * 11 ∧ 11 + 1 = (view .rw 88).cur.len ∧ (view .rw 64).cur.mode = .rw :=
  ⟨rfl, by decide, rfl, rfl, rfl, rfl, rfl, rfl, rfl, rfl⟩

/-- A field of 64 bits that ends the view, and one of 1 bit with the signed value -1. -/
theorem witness_CursorFieldRoundTrip : (on 0 (view .rw 32)).Inv ∧ (on 0 (view .rw 32)).Runs (view .rw 32)
    ∧ (view .rw 32).cur.isOpen = true ∧ (view .rw 32).cur.mode = .rw ∧ (view .rw 32).cur.len = (12 : BitVec 32).toNat
    ∧ 1 ≤ (64 : BitVec 8).toNat ∧ (64 : BitVec 8).toNat ≤ 64
    ∧ (view .rw 32).cur.off + (64 : BitVec 8).toNat ≤ 8 * (view .rw 32).cur.len
    ∧ (0xFFFFFFFFFFFFFFFF : DataWord).toNat < 2 ^ (64 : BitVec 8).toNat
    ∧ -(2 : Int) ^ ((1 : BitVec 8).toNat - 1) ≤ (0xFFFFFFFFFFFFFFFF : DataWord).toInt
    ∧ (0xFFFFFFFFFFFFFFFF : DataWord).toInt < 2 ^ ((1 : BitVec 8).toNat - 1) :=
  ⟨State.inv_of_check (by decide), rfl, rfl, rfl, rfl, by decide, by decide, by decide, by decide, by decide, by decide⟩

theorem witness_CursorOffsetMovesByTheWidth :
    (∃ t y, exec (.curRdu 8) (on 0 (view .ro 88)) = .next t ∧ t.Runs y ∧ Status.isError t.rsp.status = false)
    ∧ (∃ t y, exec (.curRdu 9) (on 0 (view .ro 88)) = .next t ∧ t.Runs y ∧ Status.isError t.rsp.status = true)
    ∧ (∃ t y, exec (.curOpen .rw (.hostBuffer 12)) (on 0 (view .ro 88)) = .next t ∧ t.Runs y
        ∧ Status.isError t.rsp.status = false)
    ∧ (∃ t y, exec .curClose (on 0 (view .ro 88)) = .next t ∧ t.Runs y) ∧ (on 0 (view .ro 88)).Runs (view .ro 88) :=
  ⟨⟨_, _, rfl, rfl, rfl⟩, ⟨_, _, rfl, rfl, rfl⟩, ⟨_, _, rfl, rfl, rfl⟩, ⟨_, _, rfl, rfl⟩, rfl⟩

theorem witness_FxClearGetSize : (on 0 (fielded (start 0 []) [0x80])).Runs (fielded (start 0 []) [0x80])
    ∧ (fielded (start 0 []) [0x80]).fx.Inv tiny ∧ (fielded (start 0 []) [0x80]).fx.n ≤ (7 : BitVec 16).toNat / 7
    ∧ ¬ (fielded (start 0 []) [0x80]).fx.n ≤ (6 : BitVec 16).toNat / 7 :=
  ⟨rfl, ⟨by decide, by decide⟩, by decide, by decide⟩

theorem witness_FxSetWritesOneBit : (on 0 (fielded (start 0 []) [0x80])).Runs (fielded (start 0 []) [0x80])
    ∧ (fielded (start 0 []) [0x80]).fx.Inv tiny ∧ tiny.fxMax ≤ (14 : BitVec 16).toNat / 7
    ∧ ¬ tiny.fxMax ≤ (13 : BitVec 16).toNat / 7 :=
  ⟨rfl, ⟨by decide, by decide⟩, by decide, by decide⟩

/-- A view of `n` bytes `bytes`, at its start. -/
def chainView (bytes : List Byte) (n : Nat) : Instance := viewed (start 0 bytes) .ro n 0

/-- The five ends of FX.DESER with `FX_MAX = 2`: closed, no octet, complete after 1 and after 2, truncated after 1, malformed. -/
theorem witness_FxDeserReadsTheChain : (on 0 (start 0 [])).Runs (start 0 []) ∧ 1 ≤ tiny.fxMax
    ∧ (on 0 (chainView [] 0)).Runs (chainView [] 0) ∧ 8 * (chainView [] 0).cur.len < (chainView [] 0).cur.off + 8
    ∧ (chainView [0x80] 1).hb.bit (0 + 8 * 0 + 7) = 0
    ∧ (chainView [0x81, 0x40] 2).hb.bit (0 + 8 * 0 + 7) = 1 ∧ (chainView [0x81, 0x40] 2).hb.bit (0 + 8 * 1 + 7) = 0
    ∧ 0 + 8 * 2 = 8 * (chainView [0x81, 0x40] 2).cur.len
    ∧ (chainView [1, 1] 1).hb.bit (0 + 8 * 0 + 7) = 1 ∧ 8 * (chainView [1, 1] 1).cur.len < 0 + 8 * 1 + 8
    ∧ (chainView [1, 1] 2).hb.bit (0 + 8 * 0 + 7) = 1 ∧ (chainView [1, 1] 2).hb.bit (0 + 8 * 1 + 7) = 1
    ∧ 0 + 8 * tiny.fxMax = 8 * (chainView [1, 1] 2).cur.len :=
  ⟨rfl, by decide, rfl, by decide, by decide, by decide, by decide, by decide, by decide, by decide, by decide, by decide,
    by decide⟩

/-- Two octets in a view at `off`. -/
def octetsView (mode : ViewMode) (off : Nat) : Instance := viewed (fielded (start 0 [0xAA]) [0x80, 0x03]) mode 12 off

theorem witness_FxSerWritesTheChain : (on 0 (octetsView .rw 80)).Runs (octetsView .rw 80)
    ∧ (octetsView .rw 80).fx.Inv tiny ∧ (octetsView .rw 80).hb.wf
    ∧ 8 * (octetsView .rw 80).cur.len = (octetsView .rw 80).cur.off + 8 * (octetsView .rw 80).fx.n
    ∧ 8 * (octetsView .rw 81).cur.len < (octetsView .rw 81).cur.off + 8 * (octetsView .rw 81).fx.n
    ∧ (on 0 (octetsView .ro 80)).Runs (octetsView .ro 80) ∧ (octetsView .ro 80).cur.mode = .ro
    ∧ (on 0 (start 0 [])).Runs (start 0 []) ∧ (start 0 []).cur.isOpen = false :=
  ⟨rfl, ⟨by decide, by decide⟩, by decide, by decide, by decide, rfl, rfl, rfl, rfl⟩

theorem witness_FxFieldRoundTrip : (on 0 (octetsView .rw 80)).Inv ∧ (on 0 (octetsView .rw 80)).Runs (octetsView .rw 80)
    ∧ (octetsView .rw 80).cur.isOpen = true ∧ (octetsView .rw 80).cur.mode = .rw ∧ 1 ≤ (octetsView .rw 80).fx.n
    ∧ (octetsView .rw 80).cur.off + 8 * (octetsView .rw 80).fx.n ≤ 8 * (octetsView .rw 80).cur.len
    ∧ (octetsView .rw 80).cur.off + 8 * (octetsView .rw 80).fx.n ≤ 8 * (12 : BitVec 32).toNat
    ∧ (12 : BitVec 32).toNat ≤ tiny.hbCap
    ∧ (on 0 (chainView [1, 1] 2)).Inv ∧ (on 0 (chainView [1, 1] 2)).Runs (chainView [1, 1] 2)
    ∧ (chainView [1, 1] 2).cur.off + 8 * tiny.fxMax ≤ 8 * (chainView [1, 1] 2).cur.len
    ∧ ∀ j, j < tiny.fxMax → (chainView [1, 1] 2).hb.bit ((chainView [1, 1] 2).cur.off + 8 * j + 7) = 1 :=
  ⟨State.inv_of_check (by decide), rfl, rfl, rfl, by decide, by decide, by decide, by decide,
    State.inv_of_check (by decide), rfl, by decide, by decide⟩

theorem witness_CkComputeGivesTheChecksum : (on 0 (start 0 [])).Runs (start 0 []) ∧ 2 < (3 : BitVec 4).toNat
    ∧ ¬ 2 < (2 : BitVec 4).toNat ∧ tiny.hbCap < (11 : BitVec 32).toNat + (2 : BitVec 32).toNat
    ∧ ¬ tiny.hbCap < (11 : BitVec 32).toNat + (1 : BitVec 32).toNat :=
  ⟨rfl, by decide, by decide, by decide, by decide⟩

theorem witness_CkCheckComparesTheChecksum : (on 0 (start 0 [])).Runs (start 0 []) ∧ 256 ≤ (0x100 : BitVec 16).toNat
    ∧ ¬ 256 ≤ (0xFF : BitVec 16).toNat ∧ tiny.hbCap < (12 : BitVec 32).toNat + (1 : BitVec 32).toNat :=
  ⟨rfl, by decide, by decide, by decide⟩

theorem witness_ChecksumsInClosedForm : ([1, 2] : List Byte).length = ([3, 4] : List Byte).length := by decide

theorem witness_OneByteErrorChangesTheChecksum : (0x01 : Byte) ≠ 0x81 := by decide

theorem witness_PushResultLaw : (on 0 (parsing (start 0 []) .expectLf [0x41] 0x41)).Inv
    ∧ (on 0 (parsing (start 0 []) .expectLf [0x41] 0x41)).Runs (parsing (start 0 []) .expectLf [0x41] 0x41)
    ∧ (on 1 (parsing (start 1 []) (.bSync 2) [] 0)).Inv :=
  ⟨State.inv_of_check (by decide), rfl, State.inv_of_check (by decide)⟩

theorem witness_TextStartByteStartsAFrame : tiny.instProfile? 0 = some .text
    ∧ (on 0 (start 0 [])).Runs (start 0 []) ∧ (start 0 []).fp.st = .sync
    ∧ (on 0 (parsing (start 0 []) .expectLf [0x41] 0)).Runs (parsing (start 0 []) .expectLf [0x41] 0)
    ∧ ParserState.fits .text (parsing (start 0 []) .expectLf [0x41] 0).fp.st = true :=
  ⟨rfl, rfl, rfl, rfl, rfl⟩

/-- `Accumulating` with a full buffer and with one byte of room. -/
theorem witness_TextAccumulatesBytes : tiny.instProfile? 0 = some .text
    ∧ (on 0 (parsing (start 0 []) .accumulating [1, 2, 3, 4] 0)).Runs (parsing (start 0 []) .accumulating [1, 2, 3, 4] 0)
    ∧ ParserUnit.check tiny .text (parsing (start 0 []) .accumulating [1, 2, 3, 4] 0).fp = true
    ∧ (parsing (start 0 []) .accumulating [1, 2, 3, 4] 0).fp.cnt = tiny.bufCap
    ∧ (on 0 (parsing (start 0 []) .accumulating [1, 2, 3] 0)).Runs (parsing (start 0 []) .accumulating [1, 2, 3] 0)
    ∧ ParserUnit.check tiny .text (parsing (start 0 []) .accumulating [1, 2, 3] 0).fp = true
    ∧ (parsing (start 0 []) .accumulating [1, 2, 3] 0).fp.cnt + 1 = tiny.bufCap ∧ (0x2A : Byte) ≠ 0x24 ∧ (0x0D : Byte) ≠ 0x21 :=
  ⟨rfl, rfl, by decide, by decide, rfl, by decide, by decide, by decide, by decide⟩

theorem witness_TextChecksumAndTerminators : tiny.instProfile? 0 = some .text ∧ hexval 0x66 = some 15 ∧ hexval 0x67 = none
    ∧ (on 0 (parsing (start 0 []) .checksum1 [1] 0)).Runs (parsing (start 0 []) .checksum1 [1] 0)
    ∧ (on 0 (parsing (start 0 []) .checksum2 [1] 0x40)).Runs (parsing (start 0 []) .checksum2 [1] 0x40)
    ∧ (on 0 (parsing (start 0 []) .expectCr [1] 0x41)).Runs (parsing (start 0 []) .expectCr [1] 0x41)
    ∧ (on 0 (parsing (start 0 []) .expectLf [1] 1)).Runs (parsing (start 0 []) .expectLf [1] 1)
    ∧ xor8 ((parsing (start 0 []) .expectLf [1] 1).fp.buf.take (parsing (start 0 []) .expectLf [1] 1).fp.cnt)
        = (parsing (start 0 []) .expectLf [1] 1).fp.ckrx :=
  ⟨rfl, by decide, by decide, rfl, rfl, rfl, rfl, by decide⟩

theorem witness_MessageIdsOfFrames : (0x2C : Byte) ∉ ([0x47, 0x50] : List Byte) := by decide

theorem witness_BinarySyncHunts : tiny.instProfile? 1 = some (.binary trailerProfile)
    ∧ (on 1 (parsing (start 1 []) (.bSync 2) [] 0)).Runs (parsing (start 1 []) (.bSync 2) [] 0)
    ∧ (parsing (start 1 []) (.bSync 2) [] 0).fp.st = .bSync 2 ∧ 2 < trailerProfile.sync.length
    ∧ trailerProfile.sync[2]? = some 2 ∧ 2 + 1 = trailerProfile.sync.length ∧ trailerProfile.sync[0]? = some 1
    ∧ (on 1 (parsing (start 1 []) (.bSync 0) [] 0)).Runs (parsing (start 1 []) (.bSync 0) [] 0)
    ∧ (on 1 (parsing (start 1 []) (.bSync 1) [] 0)).Runs (parsing (start 1 []) (.bSync 1) [] 0) :=
  ⟨rfl, rfl, rfl, by decide, by decide, by decide, by decide, rfl, rfl⟩

/-- Instance `k` in `BHeader` with `n` header bytes received. -/
def inHeader (k : Nat) (n : Nat) : Instance :=
  { start k [] with fp := { (start k []).fp with st := .bHeader, hcnt := n } }

/-- The header bytes of instance 2 (lengths 2, 5, 4 and 8 against `LEN_ADJ = 2`, `LEN_MULT = 2`, `BUF_CAP = 4`) and 1: not
complete, complete and empty, aborted three ways, with a payload. -/
theorem witness_BinaryHeaderGivesTheLength : tiny.instProfile? 2 = some (.binary headerProfile) ∧ headerProfile.wf = true
    ∧ (on 2 (inHeader 2 3)).Runs (inHeader 2 3) ∧ ParserUnit.check tiny (.binary headerProfile) (inHeader 2 3).fp = true
    ∧ ParserUnit.check tiny (.binary headerProfile) (inHeader 2 2).fp = true ∧ (inHeader 2 2).fp.hcnt + 1 < headerProfile.hlen
    ∧ ¬ (inHeader 2 3).fp.hcnt + 1 < headerProfile.hlen
    ∧ fieldValue ((inHeader 2 3).fp.hdr.set 3 2) 3 1 .le = headerProfile.lenAdj
    ∧ fieldValue ((inHeader 2 3).fp.hdr.set 3 1) 3 1 .le < headerProfile.lenAdj
    ∧ fieldValue ((inHeader 2 3).fp.hdr.set 3 5) 3 1 .le % headerProfile.lenMult ≠ 0
    ∧ tiny.bufCap < fieldValue ((inHeader 2 3).fp.hdr.set 3 8) 3 1 .le - headerProfile.lenAdj
    ∧ fieldValue ((inHeader 2 3).fp.hdr.set 3 6) 3 1 .le - headerProfile.lenAdj = tiny.bufCap
    ∧ (on 1 (inHeader 1 1)).Runs (inHeader 1 1) ∧ trailerProfile.wf = true
    ∧ ParserUnit.check tiny (.binary trailerProfile) (inHeader 1 1).fp = true
    ∧ 3 + 1 ≤ (inHeader 2 3).fp.hdr.length :=
  ⟨rfl, by decide, rfl, by decide, by decide, by decide, by decide, by decide, by decide, by decide, by decide, by decide,
    rfl, by decide, by decide, by decide⟩

/-- Instance `k` in `BPayload` with `bytes` of a payload of `plen` received. -/
def inPayload (k : Nat) (bytes : List Byte) (plen : Nat) : Instance :=
  { parsing (start k []) .bPayload bytes 0 with fp := { (parsing (start k []) .bPayload bytes 0).fp with plen := plen } }

/-- Instance 1 in `BTrailer` with `n` trailer bytes received after a payload of one byte. -/
def inTrailer (n : Nat) : Instance :=
  { inPayload 1 [9] 1 with fp := { (inPayload 1 [9] 1).fp with st := .bTrailer, tcnt := n } }

theorem witness_BinaryPayloadAndTrailer : (on 1 (inPayload 1 [1, 2] 4)).Runs (inPayload 1 [1, 2] 4)
    ∧ ParserUnit.check tiny (.binary trailerProfile) (inPayload 1 [1, 2] 4).fp = true
    ∧ (inPayload 1 [1, 2] 4).fp.cnt + 1 < (inPayload 1 [1, 2] 4).fp.plen
    ∧ ParserUnit.check tiny (.binary trailerProfile) (inPayload 1 [1, 2, 3] 4).fp = true
    ∧ ¬ (inPayload 1 [1, 2, 3] 4).fp.cnt + 1 < (inPayload 1 [1, 2, 3] 4).fp.plen
    ∧ ParserUnit.check tiny (.binary headerProfile) (inPayload 2 [1, 2, 3] 4).fp = true
    ∧ ParserUnit.check tiny (.binary trailerProfile) (inTrailer 0).fp = true
    ∧ ParserUnit.check tiny (.binary trailerProfile) (inTrailer 1).fp = true
    ∧ (on 1 (inTrailer 1)).Runs (inTrailer 1) ∧ tiny.instProfile? 1 = some (.binary trailerProfile)
    ∧ trailerProfile.wf = true :=
  ⟨rfl, by decide, by decide, by decide, by decide, by decide, by decide, by decide, rfl, rfl, by decide⟩

theorem witness_FpResetClearsTheParser : (on 1 (inTrailer 1)).Runs (inTrailer 1)
    ∧ tiny.instProfile? 1 = some (.binary trailerProfile)
    ∧ ParserUnit.check tiny (.binary trailerProfile) (inTrailer 1).fp = true
    ∧ (on 0 (parsing (start 0 []) .checksum2 [1] 0x40)).Runs (parsing (start 0 []) .checksum2 [1] 0x40)
    ∧ tiny.instProfile? 0 = some .text
    ∧ ParserUnit.check tiny .text (parsing (start 0 []) .checksum2 [1] 0x40).fp = true :=
  ⟨rfl, rfl, by decide, rfl, rfl, by decide⟩

/-- The lengths at which FP.WRAP's checks meet: TEXT 4 and 5; instance 1 (`HLEN = 2`) 1, 2, 6 and 7; instance 2 (`HLEN = 4`)
5, whose raw length 3 is odd, and 4. -/
theorem witness_FpWrapFramesThePayload : (on 0 (start 0 [])).Runs (start 0 []) ∧ tiny.instProfile? 0 = some .text
    ∧ tiny.bufCap < (5 : BitVec 32).toNat ∧ ¬ tiny.bufCap < (4 : BitVec 32).toNat
    ∧ (on 1 (start 1 [])).Runs (start 1 []) ∧ tiny.instProfile? 1 = some (.binary trailerProfile) ∧ trailerProfile.wf = true
    ∧ (1 : BitVec 32).toNat < trailerProfile.hlen ∧ ¬ tiny.bufCap < (6 : BitVec 32).toNat - trailerProfile.hlen
    ∧ tiny.bufCap < (7 : BitVec 32).toNat - trailerProfile.hlen
    ∧ (on 2 (start 2 [])).Runs (start 2 []) ∧ tiny.instProfile? 2 = some (.binary headerProfile) ∧ headerProfile.wf = true
    ∧ ((5 : BitVec 32).toNat - headerProfile.hlen + headerProfile.lenAdj) % headerProfile.lenMult ≠ 0
    ∧ ((4 : BitVec 32).toNat - headerProfile.hlen + headerProfile.lenAdj) % headerProfile.lenMult = 0 :=
  ⟨rfl, rfl, by decide, by decide, rfl, rfl, by decide, by decide, by decide, by decide, rfl, rfl, by decide, by decide,
    by decide⟩

theorem witness_WrapThenParseText : (on 0 (start 0 [0x41])).Runs (start 0 [0x41]) ∧ tiny.instProfile? 0 = some .text
    ∧ (∃ t, exec (.fpWrap 0x24 1) (on 0 (start 0 [0x41])) = .next t ∧ t.rsp.status = .sOk)
    ∧ Holds (start 0 [0x41]).hb 0 (1 : BitVec 32).toNat [0x41]
    ∧ (∀ b ∈ ([0x41] : List Byte), b ≠ 0x24 ∧ b ≠ 0x21 ∧ b ≠ 0x2A ∧ b ≠ 0x0D)
    ∧ (on 0 (start 0 [])).Inv ∧ (on 0 (start 0 [])).cfg = (on 0 (start 0 [0x41])).cfg
    ∧ (on 0 (start 0 [])).Runs (start 0 []) ∧ (start 0 []).fp.st = .sync :=
  ⟨rfl, rfl, ⟨_, rfl, rfl⟩, ⟨rfl, by decide⟩, by decide, State.inv_of_check (by decide), rfl, rfl, rfl⟩

theorem witness_WrapThenParseBinary : (on 1 (start 1 [7, 0, 9])).Runs (start 1 [7, 0, 9])
    ∧ tiny.instProfile? 1 = some (.binary trailerProfile)
    ∧ (∃ t, exec (.fpWrap 0 3) (on 1 (start 1 [7, 0, 9])) = .next t ∧ t.rsp.status = .sOk)
    ∧ Holds (start 1 [7, 0, 9]).hb trailerProfile.hlen ((3 : BitVec 32).toNat - trailerProfile.hlen) [9]
    ∧ (on 1 (start 1 [])).Inv ∧ (on 1 (start 1 [])).Runs (start 1 []) ∧ (start 1 []).fp.st = .bSync 0 :=
  ⟨rfl, rfl, ⟨_, rfl, rfl⟩, ⟨rfl, by decide⟩, State.inv_of_check (by decide), rfl, rfl⟩

/-- Fewer than six bytes hold no wire frame. -/
theorem noTextWire_of_short (c : Config) (j : List Byte) (h : j.length < 6) : NoTextWire c j := by
  intro st p h1 h2 _ hin
  have := hin.length_le
  simp [textWire] at this
  omega

/-- `$A*41` and a lower-case `$m*6d`, with the start of a frame between them. -/
theorem witness_TextResynchronization : (on 0 (start 0 [])).Inv ∧ (on 0 (start 0 [])).Runs (start 0 [])
    ∧ tiny.instProfile? 0 = some .text ∧ (start 0 []).fp.st = .sync
    ∧ isTextWire tiny 0x24 [0x41] 0x34 0x31 = true ∧ isTextWire tiny 0x21 [0x6D] 0x36 0x64 = true
    ∧ NoTextWire tiny [0x24, 0x41, 0x2A, 0x34] :=
  ⟨State.inv_of_check (by decide), rfl, rfl, rfl, by decide, by decide, noTextWire_of_short _ _ (by decide)⟩

/-- A hunt over one byte, from its two ends. -/
theorem huntsTo_one {t : State} {b : Byte} {k : Nat}
    (h0 : ∃ rs u y n, runAll (feed []) t = some (rs, u) ∧ u.Runs y ∧ y.fp.st = .bSync n)
    (h1 : ∃ rs u y, runAll (feed [b]) t = some (rs, u) ∧ u.Runs y ∧ y.fp.st = .bSync k) : HuntsTo t [b] k := by
  refine ⟨fun i hi => ?_, h1⟩
  have : i = 0 ∨ i = 1 := by simp at hi; omega
  rcases this with rfl | rfl
  · exact h0
  · obtain ⟨rs, u, y, h⟩ := h1
    exact ⟨rs, u, y, k, h⟩

/-- The wire frame of instance 1 for id 5 and no payload: FLETCHER8 of `05 00` is A = 5, B = 10. After it a byte that is no sync
byte leaves the parser in `BSync(0)`, a lone first sync byte in `BSync(1)`. -/
theorem binWire_trailer : (on 1 (start 1 [])).Inv ∧ (on 1 (start 1 [])).Runs (start 1 [])
    ∧ tiny.instProfile? 1 = some (.binary trailerProfile) ∧ (start 1 []).fp.st = .bSync 0
    ∧ IsBinWire tiny trailerProfile [] [1, 1, 2, 5, 0, 5, 10]
    ∧ ∃ rs t, runAll (feed [1, 1, 2, 5, 0, 5, 10]) (on 1 (start 1 [])) = some (rs, t) ∧ HuntsTo t [9] 0 ∧ HuntsTo t [1] 1 :=
  ⟨State.inv_of_check (by decide), rfl, rfl, rfl, ⟨[5, 0], rfl, by decide, by decide⟩, _, _, rfl,
    huntsTo_one ⟨_, _, _, _, rfl, rfl, rfl⟩ ⟨_, _, _, rfl, rfl, rfl⟩,
    huntsTo_one ⟨_, _, _, _, rfl, rfl, rfl⟩ ⟨_, _, _, rfl, rfl, rfl⟩⟩

/-- `k = 0` on instance 1, whose SYNC repeats its first byte, and `k = 1` on the UBX instance of State.reset, whose SYNC does not,
with the wire frame of id `05 01` and no payload (FLETCHER8 of `05 01 00 00` is A = 6, B = 23). -/
theorem witness_BinaryResynchronization : ((on 1 (start 1 [])).Inv ∧ (on 1 (start 1 [])).Runs (start 1 [])
    ∧ tiny.instProfile? 1 = some (.binary trailerProfile) ∧ (start 1 []).fp.st = .bSync 0
    ∧ IsBinWire tiny trailerProfile [] [1, 1, 2, 5, 0, 5, 10]
    ∧ ∃ rs t, runAll (feed [1, 1, 2, 5, 0, 5, 10]) (on 1 (start 1 [])) = some (rs, t) ∧ HuntsTo t [9] 0)
    ∧ ({ State.reset with port := 1 } : State).Inv
    ∧ ({ State.reset with port := 1 } : State).Runs (Instance.initial Config.reference 1 Memory.empty)
    ∧ Config.reference.instProfile? 1 = some (.binary Profile.ubx)
    ∧ (Instance.initial Config.reference 1 Memory.empty).fp.st = .bSync 0
    ∧ IsBinWire Config.reference Profile.ubx [] [0xB5, 0x62, 5, 1, 0, 0, 6, 23]
    ∧ (∃ rs t, runAll (feed [0xB5, 0x62, 5, 1, 0, 0, 6, 23]) { State.reset with port := 1 } = some (rs, t)
        ∧ HuntsTo t [0xB5] 1)
    ∧ ∀ i, 0 < i → Profile.ubx.sync[i]? ≠ Profile.ubx.sync[0]? := by
  obtain ⟨h1, h2, h3, h4, h5, rs, t, h6, h7, -⟩ := binWire_trailer
  refine ⟨⟨h1, h2, h3, h4, h5, rs, t, h6, h7⟩, State.inv_of_check (by decide), rfl, rfl, rfl,
    ⟨[5, 1, 0, 0], rfl, by decide, by decide⟩,
    ⟨_, _, rfl, huntsTo_one ⟨_, _, _, _, rfl, rfl, rfl⟩ ⟨_, _, _, rfl, rfl, rfl⟩⟩, ?_⟩
  intro i hi
  match i, hi with
  | 1, _ => decide
  | n + 2, _ => simp [Profile.ubx]

/-- The frame of instance 1 and a lone first sync byte meet the hypotheses of the literal reading, with `k = 1`. -/
theorem witness_BinaryResynchronizationFromPartialSync :
    (on 1 (start 1 [])).Inv ∧ (on 1 (start 1 [])).Runs (start 1 []) ∧ tiny.instProfile? 1 = some (.binary trailerProfile)
    ∧ (start 1 []).fp.st = .bSync 0 ∧ IsBinWire tiny trailerProfile [] [1, 1, 2, 5, 0, 5, 10]
    ∧ ∃ rs t, runAll (feed [1, 1, 2, 5, 0, 5, 10]) (on 1 (start 1 [])) = some (rs, t) ∧ HuntsTo t [1] 1 := by
  obtain ⟨h1, h2, h3, h4, h5, rs, t, h6, -, h7⟩ := binWire_trailer
  exact ⟨h1, h2, h3, h4, h5, rs, t, h6, h7⟩

/-- A push that emits nothing, a push that emits, FP.RESET and a command of another unit. -/
theorem witness_FrameOutputLifetime : (on 0 (start 0 [])).Runs (start 0 [])
    ∧ (∃ t y, exec (.fpPush 0x41) (registered (on 0 (start 0 [])) true []) = .next t ∧ t.Runs y ∧ t.rsp.frame = none
        ∧ t.reg.isSealed = true)
    ∧ (∃ t y f, exec (.fpPush 0x0D) (on 0 (parsing (start 0 []) .accumulating [0x41] 0)) = .next t ∧ t.Runs y
        ∧ t.rsp.frame = some f)
    ∧ (∃ t y, exec .fpReset (on 0 (start 0 [])) = .next t ∧ t.Runs y) ∧ ∃ t y, exec .curClose (on 0 (start 0 [])) = .next t ∧ t.Runs y :=
  ⟨rfl, ⟨_, _, rfl, rfl, rfl, rfl⟩, ⟨_, _, _, rfl, rfl, rfl⟩, ⟨_, _, rfl, rfl⟩, ⟨_, _, rfl, rfl⟩⟩

theorem witness_KeysMatchByFoldedBytes : keyMatches .text 0 [0x67] entry = true ∧ entry.id[0]? = some 0x47 := by decide

/-- The registry witnesses' state: one entry, room for one more. -/
def oneEntry (isSealed : Bool) : State := registered (on 0 (holding (start 0 []) (frameOfLength 2))) isSealed [entry]

/-- The same with both entries in use. -/
def full : State := registered (on 0 (start 0 [])) false [entry, { entry with id := [0x48] }]

theorem idBytes_example : IdBytes 0x6700000000000000 (1 : BitVec 4).toNat [0x67] ∧ IdBytes 0x4900000000000000 1 [0x49] := by
  exact ⟨⟨rfl, by decide⟩, ⟨rfl, by decide⟩⟩

theorem matchesAt_example (b : Bool) : MatchesAt (oneEntry b).reg .text 0 [0x67] 0 entry := by
  cases b <;> exact ⟨by decide, by decide, by decide⟩

/-- No entry of `[entry]` or `[entry, H]` has the id `I`. -/
theorem unmatched_example : (∀ b, Unmatched (oneEntry b).reg .text 0 [0x49]) ∧ Unmatched full.reg .text 0 [0x49] := by
  constructor
  · intro b j e h
    obtain ⟨h1, h2, h3⟩ := h
    have hj : j = 0 := by simp [oneEntry, registered] at h1; omega
    subst hj
    have he : e = entry := by simpa [oneEntry, registered] using h2.symm
    subst he
    exact absurd h3 (by decide)
  · intro j e h
    obtain ⟨h1, h2, h3⟩ := h
    have hj : j = 0 ∨ j = 1 := by simp [full, registered] at h1; omega
    rcases hj with rfl | rfl
    · have he : e = entry := by simpa [full, registered] using h2.symm
      subst he
      exact absurd h3 (by decide)
    · have he : e = { entry with id := [0x48] } := by simpa [full, registered] using h2.symm
      subst he
      exact absurd h3 (by decide)

/-- Sealed, absent protocol, id length 9, duplicate, full and room for one. -/
theorem witness_RegAddAppendsAnEntry : (oneEntry true).reg.isSealed = true ∧ (oneEntry false).reg.isSealed = false
    ∧ (oneEntry false).reg.Inv tiny ∧ full.reg.Inv tiny ∧ tiny.profile? 3 = none ∧ tiny.profile? 0 = some .text
    ∧ 8 < (9 : BitVec 4).toNat ∧ ¬ 8 < (8 : BitVec 4).toNat ∧ IdBytes 0x6700000000000000 (1 : BitVec 4).toNat [0x67]
    ∧ MatchesAt (oneEntry false).reg .text 0 [0x67] 0 entry ∧ Unmatched (oneEntry false).reg .text 0 [0x49]
    ∧ Unmatched full.reg .text 0 [0x49] ∧ full.reg.n = tiny.regCap ∧ (oneEntry false).reg.n + 1 = tiny.regCap :=
  ⟨rfl, rfl, Registry.inv_of_check (by decide), Registry.inv_of_check (by decide), by decide, by decide, by decide, by decide,
    idBytes_example.1, matchesAt_example false, unmatched_example.1 false, unmatched_example.2, by decide, by decide⟩

theorem witness_RegSealAndLookup : (oneEntry true).reg.Inv tiny ∧ IdBytes 0x6700000000000000 (1 : BitVec 4).toNat [0x67]
    ∧ (oneEntry false).reg.isSealed = false ∧ MatchesAt (oneEntry true).reg .text 0 [0x67] 0 entry
    ∧ Unmatched (oneEntry true).reg .text 0 [0x49] :=
  ⟨Registry.inv_of_check (by decide), idBytes_example.1, rfl, matchesAt_example true, unmatched_example.1 true⟩

/-- A held frame whose id is registered, one that is not, and one of nine bytes. -/
theorem witness_RegDispatchSelectsTheDecoder :
    (oneEntry true).Runs (holding (start 0 []) (frameOfLength 2)) ∧ (oneEntry true).reg.Inv tiny
    ∧ (oneEntry true).cfg.protoId[(oneEntry true).port]? = some 0 ∧ tiny.profile? 0 = some .text
    ∧ (frameOfLength 2).id.length ≤ 8 ∧ MatchesAt (oneEntry true).reg .text 0 (frameOfLength 2).id 0 entry
    ∧ Unmatched (oneEntry true).reg .text 0 [0x49]
    ∧ 8 < ({ frameOfLength 2 with id := List.replicate 9 0x47 } : Frame).id.length ∧ (start 0 []).fo.valid = false :=
  ⟨rfl, Registry.inv_of_check (by decide), by decide, by decide, by decide,
    ⟨by decide, by decide, by decide⟩, unmatched_example.1 true, by decide, rfl⟩

theorem witness_SealedRegistryIsImmutable : (given (oneEntry true) 0x52000001 0x4900000000000000).reg.isSealed = true
    ∧ (∃ t, step (given (oneEntry true) 0x52000001 0x4900000000000000) = .next t)
    ∧ (∀ rest, (given (oneEntry true) 0x52000001 0x4900000000000000).inbox ≠ .hardReset :: rest)
    ∧ Instr.isReg (.fpPush 1) = false :=
  ⟨rfl, ⟨_, rfl⟩, (by intro rest h; cases h), rfl⟩

theorem witness_RegisteredIdIsFound : (oneEntry false).reg.Inv tiny ∧ (oneEntry false).reg.isSealed = false
    ∧ tiny.profile? 0 = some .text ∧ (1 : BitVec 4).toNat ≤ 8 ∧ (oneEntry false).reg.n < tiny.regCap
    ∧ IdBytes 0x4900000000000000 (1 : BitVec 4).toNat [0x49] ∧ IdBytes 0x6900000000000000 (1 : BitVec 4).toNat [0x69]
    ∧ Unmatched (oneEntry false).reg .text 0 [0x49] ∧ ([0x49] : List Byte).map foldCase = ([0x69] : List Byte).map foldCase :=
  ⟨Registry.inv_of_check (by decide), rfl, by decide, by decide, by decide, ⟨rfl, by decide⟩, ⟨rfl, by decide⟩,
    unmatched_example.1 false, by decide⟩

theorem witness_DecodeOpensTheHeldFrame :
    (oneEntry true).Runs (holding (start 0 []) (frameOfLength 2)) ∧ (oneEntry true).reg.Inv tiny ∧ (start 0 []).hb.wf
    ∧ (oneEntry true).cfg.protoId[(oneEntry true).port]? = some 0 ∧ tiny.profile? 0 = some .text
    ∧ (oneEntry true).reg.isSealed = true ∧ (frameOfLength 12).payload.length ≤ tiny.hbCap
    ∧ MatchesAt (oneEntry true).reg .text 0 (frameOfLength 2).id 0 entry ∧ Unmatched (oneEntry true).reg .text 0 [0x49] :=
  ⟨rfl, Registry.inv_of_check (by decide), by decide, by decide, by decide, rfl, by decide,
    ⟨by decide, by decide, by decide⟩, unmatched_example.1 true⟩

theorem witness_EveryCommandIsAnswered : (given (on 2 (start 2 [])) 0x01000000 0).Inv
    ∧ (given (on 2 (start 2 [])) 0x01000000 0).inbox = .command 2 0x01000000 0 :: [] ∧ 2 < tiny.nInst :=
  ⟨State.inv_of_check (by decide), rfl, by decide⟩

theorem witness_ErrorsChangeNothing : ∃ t, (on 0 (start 0 [])).runCommand 0x12080000 0 = .next t
    ∧ Status.isError t.rsp.status = true := ⟨_, rfl, rfl⟩

theorem witness_CommandsAnswerTheirStatuses : ∃ t, exec (.curRdu 8) (on 0 (start 0 [])) = .next t := ⟨_, rfl⟩

theorem witness_StepKeepsTheInvariant : (given (on 0 (view .rw 88)) 0x19000000 5).Inv
    ∧ ∃ t, step (given (on 0 (view .rw 88)) 0x19000000 5) = .next t := ⟨State.inv_of_check (by decide), _, rfl⟩

theorem witness_LaunchMeetsTheInvariant : (∃ s, State.build tiny [Memory.empty.writeBytes 0 [1, 2]] = some s)
    ∧ ∀ m ∈ [Memory.empty.writeBytes 0 [1, 2]], m.Inv tiny := by
  refine ⟨⟨_, rfl⟩, ?_⟩
  intro m hm
  simp only [List.mem_singleton] at hm
  subst hm
  exact ⟨by decide, by decide⟩

theorem witness_HardwareResetRestoresTheRegisters :
    ({ oneEntry true with inbox := [.hardReset] } : State).Inv ∧ ({ oneEntry true with inbox := [.hardReset] } : State).insts[0]?
      = some (holding (start 0 []) (frameOfLength 2)) ∧ tiny.instProfile? 0 = some .text :=
  ⟨State.inv_of_check (by decide), rfl, rfl⟩

theorem witness_OtherInstancesAreUntouched : (∃ t, exec .regSeal (oneEntry false) = .next t)
    ∧ ∃ t, exec (.curWrb8 5) (on 0 (view .rw 88)) = .next t := ⟨⟨_, rfl⟩, ⟨_, rfl⟩⟩

/-- Two FPCEs that agree on instance 0 and differ in the host buffer and the parser of instance 1. -/
theorem witness_InstancesDoNotInterfere :
    (on 0 (view .rw 88)).cfg = ({ on 0 (view .rw 88) with insts := (on 0 (view .rw 88)).insts.set 1 (inTrailer 1) } : State).cfg
    ∧ (on 0 (view .rw 88)).insts[0]?
      = ({ on 0 (view .rw 88) with insts := (on 0 (view .rw 88)).insts.set 1 (inTrailer 1) } : State).insts[0]?
    ∧ (on 0 (view .rw 88)).Inv
    ∧ ({ on 0 (view .rw 88) with insts := (on 0 (view .rw 88)).insts.set 1 (inTrailer 1) } : State).Inv
    ∧ ∃ t, exec (.curWrb8 5) (on 0 (view .rw 88)) = .next t :=
  ⟨rfl, rfl, State.inv_of_check (by decide), State.inv_of_check (by decide), _, rfl⟩

/-- An instance with other bytes in an octet past `FX_N`, a buffer byte past `FP_CNT` and the content of an invalid `FO`. -/
def shadowed : Instance :=
  { parsing (start 0 []) .accumulating [1] 0 with
    fx := { n := 1, oct := [0, 0xFF] },
    fp := { (parsing (start 0 []) .accumulating [1] 0).fp with buf := [1, 9, 9, 9] },
    fo := { valid := false, frame := frameOfLength 3 } }

/-- The same instance without them. -/
def plain : Instance := { parsing (start 0 []) .accumulating [1] 0 with fx := { n := 1, oct := [0, 0] } }

theorem witness_UnreadStorageIsNeverSeen : (given (on 0 shadowed) 0x4000000D 0).Inv ∧ (given (on 0 plain) 0x4000000D 0).Inv
    ∧ (given (on 0 shadowed) 0x4000000D 0).Alike (given (on 0 plain) 0x4000000D 0)
    ∧ ∃ t, step (given (on 0 shadowed) 0x4000000D 0) = .next t := by
  refine ⟨State.inv_of_check (by decide), State.inv_of_check (by decide),
    ⟨rfl, rfl, rfl, rfl, ⟨rfl, rfl, rfl⟩, rfl, ?_⟩, _, rfl⟩
  intro k x y hx hy
  match k with
  | 0 =>
    have h1 : x = shadowed := (Option.some.inj (show some shadowed = some x from hx)).symm
    have h2 : y = plain := (Option.some.inj (show some plain = some y from hy)).symm
    subst h1; subst h2
    exact ⟨rfl, rfl, ⟨rfl, rfl⟩, ⟨rfl, rfl⟩, rfl, by intro h; cases h⟩
  | k + 1 =>
    have h3 : x = y := by
      simp only [given, on, List.getElem?_set, Nat.zero_ne_add_one, if_false] at hx hy
      rw [hx] at hy
      exact Option.some.inj hy
    subst h3
    exact ⟨rfl, rfl, ⟨rfl, rfl⟩, ⟨rfl, rfl⟩, rfl, fun _ => rfl⟩

end Sys2Proof.Tests
end

/-! ## Building an FPCE

Which parameter sets an FPCE is built from (00_scope.md R6, R7; 43_frame_parser.md R220, R221), and that a launch from one
of them meets `State.Inv`. -/

namespace Sys2Proof.Machine

/-! ### The constraints on a profile -/

/-- The bound check on two nonempty header ranges says that they share no byte. -/
theorem rangesApart_iff_no_common_byte {a m b n : Nat} (hm : 0 < m) (hn : 0 < n) :
    rangesApart a m b n = true ↔ ∀ k, a ≤ k → k < a + m → ¬(b ≤ k ∧ k < b + n) := by
  simp only [rangesApart, Bool.or_eq_true, decide_eq_true_eq]
  constructor
  · omega
  · intro h
    have := h (max a b)
    omega

/-- The checksum bytes of a HEADER profile stand outside the length and id fields (43_frame_parser.md R221). -/
theorem checksum_rangesApart_iff {p : BinProfile} (hl : 0 < p.lenBytes) (hi : 0 < p.idBytes) :
    (rangesApart p.ckOff 2 p.lenOff p.lenBytes = true ∧ rangesApart p.ckOff 2 p.idOff p.idBytes = true)
      ↔ ∀ k, p.ckOff ≤ k → k < p.ckOff + 2 →
          ¬(p.lenOff ≤ k ∧ k < p.lenOff + p.lenBytes) ∧ ¬(p.idOff ≤ k ∧ k < p.idOff + p.idBytes) := by
  simp only [rangesApart_iff_no_common_byte two_pos hl, rangesApart_iff_no_common_byte two_pos hi, forall_and]

theorem CkLoc.eq_trailer_or_iff {l : CkLoc} {P : Prop} : l = .trailer ∨ P ↔ (l = .header → P) := by
  cases l <;> simp

/-- The evaluated check of a BINARY profile says what R220 and R221 say. -/
theorem BinProfile.wf_iff_constraints (p : BinProfile) : p.wf = true ↔ BinProfile.Constraints p := by
  simp only [BinProfile.wf, BinProfile.Constraints, Bool.and_eq_true, Bool.or_eq_true, decide_eq_true_eq, beq_iff_eq,
    CkLoc.eq_trailer_or_iff, or_assoc, and_assoc]
  simp only [idMax, and_congr_right_iff]
  intro _ _ _ _ hlen _ hid _ _ _ _ _ _
  exact imp_congr_right fun _ => and_congr_right fun _ => checksum_rangesApart_iff (by omega) hid

theorem Profile.wf_iff_constraints (p : Profile) : p.wf = true ↔ ∀ q, p = .binary q → BinProfile.Constraints q := by
  cases p with
  | text => simp [Profile.wf]
  | binary q => simp [Profile.wf, BinProfile.wf_iff_constraints]

/-! ### The constraints on a parameter set -/

theorem Config.profile?_eq_some_iff {c : Config} {proto : BitVec 8} {p : Profile} :
    c.profile? proto = some p ↔ c.profiles[proto.toNat]? = some (some p) := by
  simp [Config.profile?, Option.getD_eq_iff]

/-- With at most 256 entries, every entry of `PROFILES` has a protocol index (log 6). -/
theorem Config.mem_profiles_iff {c : Config} (hl : c.profiles.length ≤ 256) {p : Profile} :
    some p ∈ c.profiles ↔ ∃ proto, c.profile? proto = some p := by
  simp only [Config.profile?_eq_some_iff]
  constructor
  · intro h
    obtain ⟨i, hi, he⟩ := List.getElem_of_mem h
    refine ⟨BitVec.ofNat 8 i, ?_⟩
    rw [BitVec.toNat_ofNat, Nat.mod_eq_of_lt (by omega), List.getElem?_eq_getElem hi, he]
  · rintro ⟨proto, h⟩
    exact List.mem_of_getElem? h

/-- Checking the entries of `PROFILES` checks what the protocol indices name. -/
theorem Config.profiles_wf_iff {c : Config} (hl : c.profiles.length ≤ 256) :
    (∀ p, some p ∈ c.profiles → p.wf = true)
      ↔ ∀ (proto : BitVec 8) (q : BinProfile), c.profile? proto = some (.binary q) → BinProfile.Constraints q := by
  simp only [Config.mem_profiles_iff hl, Profile.wf_iff_constraints]
  constructor
  · intro h proto q hq
    exact h _ ⟨proto, hq⟩ q rfl
  · rintro h p ⟨proto, hp⟩ q rfl
    exact h proto q hp

theorem Config.instProfile?_eq_some_iff {c : Config} {k : Nat} {p : Profile} :
    c.instProfile? k = some p ↔ ∃ proto, c.protoId[k]? = some proto ∧ c.profile? proto = some p := by
  unfold Config.instProfile?
  cases c.protoId[k]? <;> simp

/-- `PROTO_ID` names only present profiles where every `k < N_INST` is bound to one (00_scope.md R6). -/
theorem Config.protoId_bound_iff (c : Config) :
    (∀ proto ∈ c.protoId, (c.profile? proto).isSome = true) ↔ ∀ k, k < c.nInst → ∃ p, c.instProfile? k = some p := by
  simp only [List.forall_mem_iff_getElem, Config.nInst, Config.instProfile?_eq_some_iff, Option.isSome_iff_exists]
  refine forall_congr' fun k => forall_congr' fun hk => ?_
  simp [List.getElem?_eq_getElem hk]

/-- The evaluated check of a parameter set says what R6, R220 and R221 say. -/
theorem Config.wf_iff_constraints (c : Config) : c.wf = true ↔ Config.Constraints c := by
  simp only [Config.wf, Config.Constraints, Bool.and_eq_true, decide_eq_true_eq, List.all_eq_true, Option.forall,
    implies_true, true_and, Config.protoId_bound_iff, and_assoc]
  simp only [and_congr_right_iff]
  intro _ _ _ _ _ _ _ _
  constructor
  · rintro ⟨hl, hp, hn, hb⟩
    exact ⟨hn, hl, (Config.profiles_wf_iff hl).mp hp, hb⟩
  · rintro ⟨hn, hl, hp, hb⟩
    exact ⟨hl, (Config.profiles_wf_iff hl).mpr hp, hn, hb⟩

/-- In a well-formed parameter set every `k < N_INST` is bound to a well-formed profile. -/
theorem Config.exists_instProfile {c : Config} (hw : c.wf = true) {k : Nat} (hk : k < c.nInst) :
    ∃ p, c.instProfile? k = some p ∧ p.wf = true := by
  obtain ⟨-, -, -, -, -, -, hprofiles, hbound⟩ := (Config.wf_iff_constraints c).mp hw
  obtain ⟨p, hp⟩ := hbound k hk
  obtain ⟨proto, -, hproto⟩ := Config.instProfile?_eq_some_iff.mp hp
  refine ⟨p, hp, (Profile.wf_iff_constraints p).mpr ?_⟩
  rintro q rfl
  exact hprofiles proto q hproto

theorem Config.nInst_pos {c : Config} (hw : c.wf = true) : 0 < c.nInst := by
  obtain ⟨-, -, -, -, hn, -⟩ := (Config.wf_iff_constraints c).mp hw
  exact hn

/-! ### The reset values meet the invariant -/

theorem CursorUnit.closed_inv (c : Config) : CursorUnit.closed.Inv c :=
  ⟨Nat.zero_le _, Nat.le_refl _, fun _ => rfl⟩

theorem ParserUnit.initial_inv (c : Config) {p : Profile} (hw : p.wf = true) : (ParserUnit.initial c p).Inv c p := by
  cases p with
  | text => simp [ParserUnit.Inv, ParserUnit.initial, ParserState.start, ParserState.fits]
  | binary q =>
    have idle : ParserUnit.initial c (.binary q) = binIdle (ParserUnit.initial c (.binary q)) := rfl
    rw [idle]
    exact binIdle_inv hw List.length_replicate List.length_replicate rfl

theorem Frame.empty_inv (c : Config) : Frame.empty.Inv c := ⟨Nat.zero_le _, Nat.zero_le _⟩

theorem Memory.empty_inv (c : Config) : Memory.empty.Inv c := ⟨Memory.empty_wf, Memory.empty_below c.hbCap⟩

theorem Instance.initial_inv {c : Config} {k : Nat} {p : Profile} {hb : Memory} (hp : c.instProfile? k = some p)
    (hw : p.wf = true) (hm : hb.Inv c) : (Instance.initial c k hb).Inv c p := by
  refine ⟨CursorUnit.closed_inv c, FieldUnit.empty_inv c, ?_, Frame.empty_inv c, hm⟩
  simpa [Instance.initial, hp] using ParserUnit.initial_inv c hw

@[simp] theorem Registry.initial_used (c : Config) : (Registry.initial c).used = [] := by
  simp [Registry.used, Registry.initial]

theorem Registry.initial_inv (c : Config) : (Registry.initial c).Inv c := by
  refine ⟨Nat.zero_le _, List.length_replicate, ?_, by simp, by simp⟩
  intro e he
  rw [List.eq_of_mem_replicate he]
  exact Nat.zero_le _

/-! ### The launch -/

@[simp] theorem State.launch_cfg (c : Config) (hbs : List Memory) : (State.launch c hbs).cfg = c := rfl

@[simp] theorem State.launch_insts_length (c : Config) (hbs : List Memory) : (State.launch c hbs).insts.length = c.nInst := by
  simp [State.launch]

/-- Entry `k` of a launch holds the reset values and the host buffer given for `k`. -/
theorem State.launch_insts_eq_some_iff {c : Config} {hbs : List Memory} {k : Nat} {x : Instance} :
    (State.launch c hbs).insts[k]? = some x ↔ k < c.nInst ∧ x = Instance.initial c k ((hbs[k]?).getD Memory.empty) := by
  simp [State.launch, List.getElem?_eq_some_iff, eq_comm (a := x)]

/-- The host buffer a launch takes for `k`, given or all 0, is canonical and inside `HB[0..HB_CAP)`. -/
theorem Memory.getElem?_getD_empty_inv {c : Config} {hbs : List Memory} (hm : ∀ m ∈ hbs, m.Inv c) (k : Nat) :
    ((hbs[k]?).getD Memory.empty).Inv c := by
  cases hk : hbs[k]? with
  | none => exact Memory.empty_inv c
  | some m => exact hm m (List.mem_of_getElem? hk)

/-- A launch from a well-formed parameter set meets the invariant, whatever the host buffers hold (20_memory.md R61). -/
theorem State.launch_inv {c : Config} {hbs : List Memory} (hw : c.wf = true) (hm : ∀ m ∈ hbs, m.Inv c) :
    (State.launch c hbs).Inv := by
  refine ⟨hw, State.launch_insts_length c hbs, ?_, ?_, Registry.initial_inv c⟩
  · rw [State.launch_insts_length]
    exact Config.nInst_pos hw
  · intro k x hx
    obtain ⟨hk, rfl⟩ := State.launch_insts_eq_some_iff.mp hx
    obtain ⟨p, hp, hpw⟩ := Config.exists_instProfile hw hk
    exact ⟨p, hp, Instance.initial_inv hp hpw (Memory.getElem?_getD_empty_inv hm k)⟩

theorem State.build_eq_none_iff {c : Config} {hbs : List Memory} : State.build c hbs = none ↔ ¬ c.wf = true := by
  simp [State.build]

theorem State.build_eq_some_iff {c : Config} {hbs : List Memory} {s : State} :
    State.build c hbs = some s ↔ c.wf = true ∧ State.launch c hbs = s := by
  simp [State.build]

/-- Settles O56: the evaluated check is the written constraints, and each unit's reset values meet its invariant. -/
theorem launchMeetsTheInvariant : Obligations.LaunchMeetsTheInvariant := by
  intro c hbs
  refine ⟨State.build_eq_none_iff.trans (not_congr (Config.wf_iff_constraints c)), Config.wf_iff_constraints c, ?_⟩
  intro s hs hm
  obtain ⟨hw, rfl⟩ := State.build_eq_some_iff.mp hs
  refine ⟨State.launch_inv hw hm, State.launch_cfg c hbs, ?_⟩
  intro k m x hk hx
  obtain ⟨-, rfl⟩ := State.launch_insts_eq_some_iff.mp hx
  simp [Instance.initial, hk]

end Sys2Proof.Machine

/-! ## The state and the step

What one step can do, what a command does to the `Instance` it is issued to, and what every step keeps (10_state.md). -/

section
/-! ### The inputs of a step -/

namespace Sys2Proof.Machine

theorem step_of_nil {s : State} (h : s.inbox = []) : step s = .next s := by
  simp [step, h]

theorem step_of_command {s : State} {k : Nat} {cmd : CmdWord} {data : DataWord} {rest : List HostInput}
    (h : s.inbox = .command k cmd data :: rest) (hk : k < s.insts.length) :
    step s = ({ s with inbox := rest, port := k } : State).runCommand cmd data := by
  simp [step, h, hk]

theorem step_of_writeByte {s : State} {k a : Nat} {b : Byte} {rest : List HostInput}
    (h : s.inbox = .writeByte k a b :: rest) : step s = ({ s with inbox := rest } : State).hostWrite k a b := by
  simp [step, h]

theorem step_of_hardReset {s : State} {rest : List HostInput} (h : s.inbox = .hardReset :: rest) :
    step s = .next ({ s with inbox := rest } : State).hardReset := by
  simp [step, h]

/-- Everything a step can do, by the input it takes (log 2). -/
theorem step_next_cases {s t : State} (h : step s = .next t) :
    (s.inbox = [] ∧ t = s) ∨
    (∃ k cmd data rest, s.inbox = .command k cmd data :: rest ∧ k < s.insts.length ∧
      ({ s with inbox := rest, port := k } : State).runCommand cmd data = .next t) ∨
    (∃ k a b rest, s.inbox = .writeByte k a b :: rest ∧
      ({ s with inbox := rest } : State).hostWrite k a b = .next t) ∨
    (∃ rest, s.inbox = .hardReset :: rest ∧ t = ({ s with inbox := rest } : State).hardReset) := by
  cases hin : s.inbox with
  | nil =>
    rw [step_of_nil hin] at h
    exact .inl ⟨rfl, (Host.Outcome.next.inj h).symm⟩
  | cons input rest =>
    cases input with
    | command k cmd data =>
      by_cases hk : k < s.insts.length
      · rw [step_of_command hin hk] at h
        exact .inr (.inl ⟨k, cmd, data, rest, rfl, hk, h⟩)
      · simp [step, hin, hk] at h
    | writeByte k a b =>
      rw [step_of_writeByte hin] at h
      exact .inr (.inr (.inl ⟨k, a, b, rest, rfl, h⟩))
    | hardReset =>
      rw [step_of_hardReset hin] at h
      exact .inr (.inr (.inr ⟨rest, rfl, (Host.Outcome.next.inj h).symm⟩))

theorem State.runCommand_of_decode {s : State} {cmd : CmdWord} {data : DataWord} {i : Instr}
    (h : decode cmd data = .ok i) : s.runCommand cmd data = exec i s := by
  simp [State.runCommand, h]

theorem State.runCommand_of_illegal {s : State} {cmd : CmdWord} {data : DataWord} {e : Illegal}
    (h : decode cmd data = .error e) : s.runCommand cmd data = s.raise .eIllegalCommand (cmd.setWidth 64) := by
  simp [State.runCommand, h]

/-- A command word that answers is a decoded command that does, or an illegal word, which changes the response alone. -/
theorem State.runCommand_next_cases {s t : State} {cmd : CmdWord} {data : DataWord}
    (h : s.runCommand cmd data = .next t) : (∃ i, exec i s = .next t) ∨ ∃ r, t = { s with rsp := r } := by
  cases hd : decode cmd data with
  | ok i => exact .inl ⟨i, by rwa [State.runCommand_of_decode hd] at h⟩
  | error e =>
    rw [State.runCommand_of_illegal hd, State.raise_next] at h
    exact .inr ⟨_, h⟩

/-- Settles O4: the step takes the command, and its words decode to `i`. -/
theorem stepRunsTheDecodedCommand : Obligations.StepRunsTheDecodedCommand := by
  intro s k cmd data rest i hin hk hd
  rw [step_of_command hin hk, State.runCommand_of_decode hd]

/-- Settles O55: the reference parameter set is well formed, and a launch from such a set meets the invariant. -/
theorem resetMeetsTheInvariant : Obligations.ResetMeetsTheInvariant :=
  State.launch_inv (by decide) (by simp)

/-- Settles O57: an `Instance` after a hardware reset holds its reset values, written out, and its host buffer. -/
theorem hardwareResetRestoresTheRegisters : Obligations.HardwareResetRestoresTheRegisters := by
  rintro s rest ⟨-, hlength, -⟩ hin
  refine ⟨_, step_of_hardReset hin, rfl, rfl, ?_, rfl, ?_⟩
  · exact (State.launch_insts_length _ _).trans hlength.symm
  · intro k x p hx hp
    refine (State.hardReset_getElem? (s := { s with inbox := rest }) hlength hx).trans ?_
    simp only [Instance.initial, hp, Option.getD_some]
    cases p <;> rfl

end Sys2Proof.Machine
end

section
/-! ### What a command does to its `Instance`

Every command outside REG.* answers from the parameters and the issuing `Instance` alone: `Instr.reply` is that answer. -/

namespace Sys2Proof.Machine

/-- The reply of FP.WRAP under a profile (43_frame_parser.md R240). -/
def wrapReply (c : Config) (start : Byte) (count : BitVec 32) (x : Instance) : Profile → Reply
  | .text => wrapTextReply c start count.toNat x
  | .binary bp => wrapBinReply c bp start count x

/-- The reply of a command on `Instance` `x` of port `k`; none for a command of the registry unit, an absent profile, or
a parser state of the other profile kind (log 8, log 9). -/
def Instr.reply (c : Config) (k : Nat) (x : Instance) : Instr → Option Reply
  | .nop => some (.done x (Response.ok 0))
  | .curOpen mode (.hostBuffer len) => some (openHostBuffer c mode len.toNat x)
  | .curOpen mode .frameOutput => some (openFrameOutput c mode x)
  | .curClose => some (.done { x with cur := CursorUnit.closed } (Response.ok 0))
  | .curRdu w => some (readField w.toNat true zext64 x)
  | .curRds w => some (readField w.toNat true (fun v => sext64 v w.toNat) x)
  | .curWru w value => some (writeField w.toNat true value.toNat x)
  | .curWrs w value => some (writeField w.toNat true (value.toInt % 2 ^ w.toNat).toNat x)
  | .curRdb8 => some (readField 8 false zext64 x)
  | .curRdb16 => some (readField 16 false zext64 x)
  | .curRdb32 => some (readField 32 false zext64 x)
  | .curWrb8 value => some (writeField 8 false value.toNat x)
  | .curWrb16 value => some (writeField 16 false value.toNat x)
  | .curWrb32 value => some (writeField 32 false value.toNat x)
  | .curSkip bits => some (readField bits.toNat false (fun _ => 0) x)
  | .curTell => some (if !x.cur.isOpen then .error .eNoCursor 0 else .done x (Response.ok (zext64 x.cur.off)))
  | .fxClear => some (.done { x with fx := FieldUnit.empty c } (Response.ok 0))
  | .fxGet index => some (.done x (Response.ok (x.fx.get index.toNat)))
  | .fxSet v index => some (
      if index.toNat / 7 ≥ c.fxMax then .error .eFxCapacity (zext64 index.toNat)
      else .done { x with fx := x.fx.setBit index.toNat v } (Response.ok (zext64 (x.fx.setBit index.toNat v).n)))
  | .fxDeser => some (deserialize c x)
  | .fxSer => some (serialize x)
  | .fxSize => some (.done x (Response.ok (zext64 x.fx.n)))
  | .ckCompute kind start count => some (
      match kindOfCode kind with
      | none => .error .eBadKind (kind.setWidth 64)
      | some ck =>
        if !rangeFits c start count then .error .eRange (start.setWidth 64)
        else .done x (Response.ok (checksumOf ck (x.hb.readBytes start.toNat count.toNat))))
  | .ckFormat order kind value => some (
      match kindOfCode kind with
      | none => .error .eBadKind (kind.setWidth 64)
      | some ck =>
        if ck != .crc16 && order then .error .eIllegalCommand (commandInfo (.ckFormat order kind value))
        else .done x { Response.ok 0 with bytes := formatOf ck order value })
  | .ckCheck kind rx start count => some (
      match kindOfCode kind with
      | none => .error .eBadKind (kind.setWidth 64)
      | some ck =>
        if ck == .xor8 && highByte rx != 0 then .error .eIllegalCommand (commandInfo (.ckCheck kind rx start count))
        else if !rangeFits c start count then .error .eRange (start.setWidth 64)
        else .done x (Response.ok
          (bit01 (checksumOf ck (x.hb.readBytes start.toNat count.toNat) == rx.setWidth 64))))
  | .fpPush b => (c.instProfile? k).bind (fun p =>
      (parserStep c p x.fp b).map (fun r => .done (x.afterPush r) r.response))
  | .fpReset => (c.instProfile? k).map (fun p =>
      .done { x with fp := x.fp.reset p, fo := x.fo.drop } (Response.ok 0))
  | .fpWrap start count => (c.instProfile? k).map (wrapReply c start count x)
  | .regAdd _ _ _ _ | .regSeal | .regLookup _ _ _ | .regDispatch => none

/-- A reply that keeps the `Instance` changes the response alone. -/
theorem State.commit_done_same {s : State} {x : Instance} (hx : s.Runs x) (r : Response) :
    s.commit (.done x r) = s.respond r := by
  simp [State.commit, State.respond, State.setInst, State.set_same hx]

theorem State.runInst_of_runs {s : State} {x : Instance} (hx : s.Runs x) (f : Instance → Reply) :
    s.runInst f = s.commit (f x) := State.withInst_of_some hx _

/-- With the issuing `Instance` present, a command outside REG.* that has a reply carries it out. -/
theorem exec_of_reply {i : Instr} {s : State} {x : Instance} {q : Reply} (hx : s.Runs x)
    (hq : Instr.reply s.cfg s.port x i = some q) : exec i s = s.commit q := by
  cases i with
  | nop =>
    obtain rfl := Option.some.inj hq
    exact (State.commit_done_same hx _).symm
  | ckFormat order kind value =>
    obtain rfl := Option.some.inj hq
    simp only [exec, execCkFormat]
    cases kindOfCode kind with
    | none => rfl
    | some ck =>
      by_cases hck : (ck != .crc16 && order) = true
      · simp only [if_pos hck]; rfl
      · simp only [if_neg hck]; exact (State.commit_done_same hx _).symm
  | curOpen mode src => cases src <;> (obtain rfl := Option.some.inj hq; exact State.runInst_of_runs hx _)
  | fpPush b =>
    obtain ⟨p, hp, hq⟩ := Option.bind_eq_some_iff.mp hq
    obtain ⟨r, hr, rfl⟩ := Option.map_eq_some_iff.mp hq
    simp [exec, execFpPush, State.withInst_of_some hx, State.withProfile_of_some hp, hr]
  | fpReset =>
    obtain ⟨p, hp, rfl⟩ := Option.map_eq_some_iff.mp hq
    simp [exec, execFpReset, State.withInst_of_some hx, State.withProfile_of_some hp]
  | fpWrap start count =>
    obtain ⟨p, hp, rfl⟩ := Option.map_eq_some_iff.mp hq
    simp only [exec, execFpWrap, State.withInst_of_some hx, State.withProfile_of_some hp]
    cases p <;> rfl
  | regAdd | regSeal | regLookup | regDispatch => cases hq
  | _ =>
    obtain rfl := Option.some.inj hq
    exact State.runInst_of_runs hx _

/-- A command outside REG.* that answers has a reply. -/
theorem exists_reply_of_exec {i : Instr} {s t : State} {x : Instance} (hx : s.Runs x) (hi : Instr.isReg i = false)
    (h : exec i s = .next t) : ∃ q, Instr.reply s.cfg s.port x i = some q := by
  cases i with
  | curOpen mode src => cases src <;> exact ⟨_, rfl⟩
  | fpPush b =>
    simp only [exec, execFpPush, State.withInst_of_some hx] at h
    obtain ⟨p, hp, h⟩ := State.withProfile_next h
    split at h
    · rename_i r hr
      exact ⟨_, Option.bind_eq_some_iff.mpr ⟨p, hp, Option.map_eq_some_iff.mpr ⟨r, hr, rfl⟩⟩⟩
    · cases h
  | fpReset =>
    simp only [exec, execFpReset, State.withInst_of_some hx] at h
    obtain ⟨p, hp, -⟩ := State.withProfile_next h
    exact ⟨_, Option.map_eq_some_iff.mpr ⟨p, hp, rfl⟩⟩
  | fpWrap start count =>
    simp only [exec, execFpWrap, State.withInst_of_some hx] at h
    obtain ⟨p, hp, -⟩ := State.withProfile_next h
    exact ⟨_, Option.map_eq_some_iff.mpr ⟨p, hp, rfl⟩⟩
  | regAdd | regSeal | regLookup | regDispatch => cases hi
  | _ => exact ⟨_, rfl⟩

/-- A command outside REG.* that answers, with the issuing `Instance` present: its reply is carried out. -/
theorem exec_next_reply {i : Instr} {s t : State} {x : Instance} (hx : s.Runs x) (hi : Instr.isReg i = false)
    (h : exec i s = .next t) :
    (∃ y r, Instr.reply s.cfg s.port x i = some (.done y r) ∧ t = { s.setInst y with rsp := r }) ∨
    (∃ e info, Instr.reply s.cfg s.port x i = some (.error e info) ∧ t = { s with rsp := Response.error e info }) := by
  obtain ⟨q, hq⟩ := exists_reply_of_exec hx hi h
  rw [exec_of_reply hx hq] at h
  rcases State.commit_next h with ⟨y, r, rfl, ht⟩ | ⟨e, info, rfl, ht⟩
  · exact .inl ⟨y, r, hq, ht⟩
  · exact .inr ⟨e, info, hq, ht⟩

/-- The `Instance` a command left in place is the one its reply gave. -/
theorem State.runs_setInst {s : State} {x y z : Instance} {r : Response} (hx : s.Runs x)
    (hz : ({ s.setInst y with rsp := r } : State).Runs z) : z = y := by
  have hport : s.port < s.insts.length := (List.getElem?_eq_some_iff.mp hx).1
  simpa [State.Runs, State.setInst, List.getElem?_set_self hport, eq_comm] using hz

/-! ### What a command of the registry unit does -/

/-- The changes a command can make to a registry: REG.ADD appends an entry of a new key (44_registry_dispatch.md R263),
REG.SEAL seals (R264). -/
inductive Registry.Update (c : Config) (g : Registry) : Instr → Registry → Prop
  | newEntry {proto handle : BitVec 8} {m : BitVec 4} {data : DataWord} {p : Profile} (unsealed : g.isSealed = false)
      (profile : c.profile? proto = some p) (short : m.toNat ≤ idMax)
      (fresh : g.find p proto (idOperand m data) = none) (room : g.n ≠ c.regCap) :
      Update c g (.regAdd proto handle m data)
        (g.append { proto := proto, id := idOperand m data, handle := handle })
  | sealing : Update c g .regSeal g.seal

/-- A command of the registry unit that answers changes the response, or the registry with it, and nothing else. -/
theorem exec_reg_next {i : Instr} {s t : State} (hi : Instr.isReg i = true) (h : exec i s = .next t) :
    (∃ r, t = { s with rsp := r }) ∨ ∃ g r, s.reg.Update s.cfg i g ∧ t = { s.setReg g with rsp := r } := by
  cases i with
  | regAdd proto handle m data =>
    simp only [exec, execRegAdd] at h
    split at h
    · exact .inl ⟨_, (State.raise_next _ _ _ _).mp h⟩
    · rename_i hsealed
      split at h
      · exact .inl ⟨_, (State.raise_next _ _ _ _).mp h⟩
      · rename_i p hp
        split at h
        · exact .inl ⟨_, (State.raise_next _ _ _ _).mp h⟩
        · rename_i hm
          split at h
          · exact .inl ⟨_, (State.raise_next _ _ _ _).mp h⟩
          · rename_i hfresh
            split at h
            · exact .inl ⟨_, (State.raise_next _ _ _ _).mp h⟩
            · rename_i hroom
              exact .inr ⟨_, _, .newEntry (by simpa using hsealed) hp (by omega) hfresh hroom,
                (State.respond_next _ _ _).mp h⟩
  | regSeal => exact .inr ⟨_, _, .sealing, (State.respond_next _ _ _).mp h⟩
  | regLookup proto m data =>
    simp only [exec, execRegLookup] at h
    split at h
    · exact .inl ⟨_, (State.raise_next _ _ _ _).mp h⟩
    · split at h
      · exact .inl ⟨_, (State.raise_next _ _ _ _).mp h⟩
      · split at h
        · exact .inl ⟨_, (State.raise_next _ _ _ _).mp h⟩
        · exact .inl ⟨_, (State.respond_next _ _ _).mp h⟩
  | regDispatch =>
    obtain ⟨x, -, h⟩ := State.withInst_next h
    split at h
    · exact .inl ⟨_, (State.raise_next _ _ _ _).mp h⟩
    · split at h
      · exact .inl ⟨_, (State.raise_next _ _ _ _).mp h⟩
      · obtain ⟨p, -, h⟩ := State.withProfile_next h
        exact .inl ⟨_, (State.respond_next _ _ _).mp h⟩
  | _ => cases hi

end Sys2Proof.Machine
end

section
/-! ### What a command leaves alone -/

namespace Sys2Proof.Machine

/-- Carrying out a reply changes the issuing `Instance` and the response at most. -/
theorem State.commit_next_frame {s t : State} {q : Reply} (h : s.commit q = .next t) :
    (∃ r, t = { s with rsp := r }) ∨ ∃ y r, t = { s.setInst y with rsp := r } := by
  rcases State.commit_next h with ⟨y, r, -, ht⟩ | ⟨e, info, -, ht⟩
  · exact .inr ⟨y, r, ht⟩
  · exact .inl ⟨_, ht⟩

theorem State.runInst_next_frame {s t : State} {f : Instance → Reply} (h : s.runInst f = .next t) :
    (∃ r, t = { s with rsp := r }) ∨ ∃ y r, t = { s.setInst y with rsp := r } := by
  obtain ⟨x, -, h⟩ := State.withInst_next h
  exact State.commit_next_frame h

/-- A command outside REG.* changes the issuing `Instance` and the response at most (20_memory.md R73). -/
theorem exec_next_frame {i : Instr} {s t : State} (hi : Instr.isReg i = false) (h : exec i s = .next t) :
    (∃ r, t = { s with rsp := r }) ∨ ∃ y r, t = { s.setInst y with rsp := r } := by
  cases i with
  | nop => exact .inl ⟨_, (State.respond_next _ _ _).mp h⟩
  | ckFormat order kind value =>
    simp only [exec, execCkFormat] at h
    split at h
    · exact .inl ⟨_, (State.raise_next _ _ _ _).mp h⟩
    · split at h
      · exact .inl ⟨_, (State.raise_next _ _ _ _).mp h⟩
      · exact .inl ⟨_, (State.respond_next _ _ _).mp h⟩
  | curOpen mode src => cases src <;> exact State.runInst_next_frame h
  | fpPush b =>
    obtain ⟨x, -, h⟩ := State.withInst_next h
    obtain ⟨p, -, h⟩ := State.withProfile_next h
    split at h
    · exact State.commit_next_frame h
    · cases h
  | fpReset | fpWrap =>
    obtain ⟨x, -, h⟩ := State.withInst_next h
    obtain ⟨p, -, h⟩ := State.withProfile_next h
    exact State.commit_next_frame h
  | regAdd | regSeal | regLookup | regDispatch => cases hi
  | _ => exact State.runInst_next_frame h

/-- A command keeps the parameters, the waiting inputs, the port and every other `Instance` (10_state.md R53,
20_memory.md R73). -/
theorem exec_next_keeps {i : Instr} {s t : State} (h : exec i s = .next t) :
    t.cfg = s.cfg ∧ t.inbox = s.inbox ∧ t.port = s.port ∧ t.insts.length = s.insts.length ∧
      ∀ k, k ≠ s.port → t.insts[k]? = s.insts[k]? := by
  cases hi : Instr.isReg i with
  | false =>
    rcases exec_next_frame hi h with ⟨r, rfl⟩ | ⟨y, r, rfl⟩
    · exact ⟨rfl, rfl, rfl, rfl, fun _ _ => rfl⟩
    · exact ⟨rfl, rfl, rfl, List.length_set, fun k hk => List.getElem?_set_ne (Ne.symm hk)⟩
  | true =>
    rcases exec_reg_next hi h with ⟨r, rfl⟩ | ⟨g, r, -, rfl⟩ <;> exact ⟨rfl, rfl, rfl, rfl, fun _ _ => rfl⟩

/-- A command of the registry unit keeps every `Instance` (60_exceptions.md R312). -/
theorem exec_reg_next_insts {i : Instr} {s t : State} (hi : Instr.isReg i = true) (h : exec i s = .next t) :
    t.insts = s.insts := by
  rcases exec_reg_next hi h with ⟨r, rfl⟩ | ⟨g, r, -, rfl⟩ <;> rfl

/-- The registry after a command is the one before it or an update of it (10_state.md R51). -/
theorem exec_next_registry {i : Instr} {s t : State} (h : exec i s = .next t) :
    t.reg = s.reg ∨ s.reg.Update s.cfg i t.reg := by
  cases hi : Instr.isReg i with
  | false => rcases exec_next_frame hi h with ⟨r, rfl⟩ | ⟨y, r, rfl⟩ <;> exact .inl rfl
  | true =>
    rcases exec_reg_next hi h with ⟨r, rfl⟩ | ⟨g, r, hupd, rfl⟩
    · exact .inl rfl
    · exact .inr hupd

/-- Settles O58: REG.ADD and REG.SEAL are of the registry unit, and no other command updates the registry. -/
theorem otherInstancesAreUntouched : Obligations.OtherInstancesAreUntouched := by
  intro i s t h
  obtain ⟨hcfg, hinbox, hport, hlength, hothers⟩ := exec_next_keeps h
  refine ⟨hcfg, hinbox, hport, hlength, hothers, ?_⟩
  have hreg := exec_next_registry h
  cases i with
  | regAdd | regSeal => exact exec_reg_next_insts rfl h
  | _ => exact hreg.resolve_right (by rintro ⟨⟩)

/-! ### The registry in the sealed phase -/

/-- In the sealed phase REG.ADD raises and REG.SEAL seals again: no command changes the registry (10_state.md R51). -/
theorem Registry.Update.eq_of_sealed {c : Config} {g g' : Registry} {i : Instr} (h : g.Update c i g')
    (hg : g.isSealed = true) : g' = g := by
  cases h with
  | newEntry unsealed => rw [hg] at unsealed; cases unsealed
  | sealing => cases g; cases hg; rfl

theorem exec_next_reg_of_sealed {i : Instr} {s t : State} (hs : s.reg.isSealed = true) (h : exec i s = .next t) :
    t.reg = s.reg := by
  rcases exec_next_registry h with hreg | hupd
  · exact hreg
  · exact hupd.eq_of_sealed hs

/-- An outcome with the registry of its next state replaced. -/
def outcomeWithReg (g : Registry) : Host.Outcome State Fault Refusal → Host.Outcome State Fault Refusal
  | .next t => .next (t.setReg g)
  | .fault r => .fault r
  | .refused r => .refused r

theorem State.commit_setReg (s : State) (g : Registry) (q : Reply) :
    (s.setReg g).commit q = outcomeWithReg g (s.commit q) := by
  cases q <;> rfl

theorem State.withInst_setReg {s : State} {g : Registry} {f f' : Instance → Host.Outcome State Fault Refusal}
    (h : ∀ x, f' x = outcomeWithReg g (f x)) : (s.setReg g).withInst f' = outcomeWithReg g (s.withInst f) := by
  simp only [State.withInst, State.setReg_insts, State.setReg_port]
  cases s.insts[s.port]? with
  | none => rfl
  | some x => exact h x

theorem State.withProfile_setReg {s : State} {g : Registry} {f f' : Profile → Host.Outcome State Fault Refusal}
    (h : ∀ p, f' p = outcomeWithReg g (f p)) : (s.setReg g).withProfile f' = outcomeWithReg g (s.withProfile f) := by
  simp only [State.withProfile, State.setReg_cfg, State.setReg_port]
  cases s.cfg.instProfile? s.port with
  | none => rfl
  | some p => exact h p

theorem State.runInst_setReg (s : State) (g : Registry) (f : Instance → Reply) :
    (s.setReg g).runInst f = outcomeWithReg g (s.runInst f) :=
  State.withInst_setReg (fun x => State.commit_setReg s g (f x))

/-- A command outside REG.* neither reads nor writes the registry (60_exceptions.md R311). -/
theorem exec_setReg {i : Instr} (hi : Instr.isReg i = false) (s : State) (g : Registry) :
    exec i (s.setReg g) = outcomeWithReg g (exec i s) := by
  cases i with
  | nop => rfl
  | ckFormat order kind value =>
    simp only [exec, execCkFormat]
    cases kindOfCode kind with
    | none => rfl
    | some ck => by_cases hck : (ck != .crc16 && order) = true <;> simp only [hck] <;> rfl
  | curOpen mode src => cases src <;> exact State.runInst_setReg s g _
  | fpPush b =>
    refine State.withInst_setReg fun x => State.withProfile_setReg fun p => ?_
    rw [State.setReg_cfg]
    cases parserStep s.cfg p x.fp b with
    | none => rfl
    | some r => exact State.commit_setReg s g _
  | fpReset | fpWrap =>
    exact State.withInst_setReg fun x => State.withProfile_setReg fun p => State.commit_setReg s g _
  | regAdd | regSeal | regLookup | regDispatch => cases hi
  | _ => exact State.runInst_setReg s g _

/-- Settles O48: of the inputs of a step only a command could change a sealed registry besides a hardware reset, and no
command does; a command outside REG.* commutes with replacing the registry. -/
theorem sealedRegistryIsImmutable : Obligations.SealedRegistryIsImmutable := by
  constructor
  · intro s t hs h hnoReset
    rcases step_next_cases h with ⟨-, rfl⟩ | ⟨k, cmd, data, rest, -, -, hrun⟩ | ⟨k, a, b, rest, -, hwrite⟩ |
      ⟨rest, hin, -⟩
    · rfl
    · rcases State.runCommand_next_cases hrun with ⟨i, hexec⟩ | ⟨r, rfl⟩
      · exact exec_next_reg_of_sealed (s := { s with inbox := rest, port := k }) hs hexec
      · rfl
    · obtain ⟨x, -, -, rfl⟩ := State.hostWrite_next hwrite
      rfl
    · exact absurd hin (hnoReset rest)
  · intro i s g hi
    rw [exec_setReg hi]
    cases exec i s <;> rfl

end Sys2Proof.Machine
end

section
/-! ### The replies of the units

What each unit's command left where it completed, and the status it answers. -/

namespace Sys2Proof.Machine

variable {c : Config} {k : Nat} {x y : Instance} {r : Response} {i : Instr}

theorem readField_eq_done {w : Nat} {ck : Bool} {result : Nat → DataWord} (h : readField w ck result x = .done y r) :
    accessError x.cur w false ck = none ∧ y = x.advance w := by
  rcases readField_cases w ck result x with ⟨e, -, he⟩ | ⟨hok, he⟩ <;> rw [he] at h <;> cases h
  exact ⟨hok, rfl⟩

theorem writeField_eq_done {w u : Nat} {ck : Bool} (h : writeField w ck u x = .done y r) :
    accessError x.cur w true ck = none ∧
      y = ({ x with hb := x.hb.putBits x.cur.off w (u % 2 ^ w) } : Instance).advance w := by
  rcases writeField_cases w ck u x with ⟨e, -, he⟩ | ⟨hok, he⟩ <;> rw [he] at h <;> cases h
  exact ⟨hok, rfl⟩

theorem openHostBuffer_eq_done {mode : ViewMode} {len : Nat} (h : openHostBuffer c mode len x = .done y r) :
    len ≤ c.hbCap ∧ y = { x with cur := CursorUnit.view mode len } := by
  unfold openHostBuffer at h
  split at h <;> cases h
  exact ⟨by omega, rfl⟩

theorem openFrameOutput_eq_done {mode : ViewMode} (h : openFrameOutput c mode x = .done y r) :
    x.fo.frame.payload.length ≤ c.hbCap ∧
      y = { x with hb := x.hb.writeBytes 0 x.fo.frame.payload,
                   cur := CursorUnit.view mode x.fo.frame.payload.length } := by
  unfold openFrameOutput at h
  split at h
  · cases h
  · split at h
    · cases h
    · split at h <;> cases h
      exact ⟨by omega, rfl⟩

theorem reply_fxSet_eq_done {v : Bool} {index : BitVec 16} (h : Instr.reply c k x (.fxSet v index) = some (.done y r)) :
    index.toNat / 7 < c.fxMax ∧ y = { x with fx := x.fx.setBit index.toNat v } := by
  have h := Option.some.inj h
  split at h <;> cases h
  exact ⟨by omega, rfl⟩

theorem deserialize_eq_done (h : deserialize c x = .done y r) :
    x.cur.isOpen = true ∧ ∃ octs off, readChain x.hb (8 * x.cur.len) c.fxMax x.cur.off [] = .complete octs off ∧
      y = { x with fx := FieldUnit.ofOctets c octs, cur := { x.cur with off := off } } := by
  unfold deserialize at h
  split at h
  · cases h
  · rename_i hopen
    split at h <;> cases h
    exact ⟨by simpa using hopen, _, _, ‹_›, rfl⟩

theorem serialize_eq_done (h : serialize x = .done y r) :
    x.cur.isOpen = true ∧ x.cur.off + 8 * x.fx.n ≤ 8 * x.cur.len ∧
      y = ({ x with hb := x.hb.putOctets x.cur.off (wireOctets x.fx.octets) } : Instance).advance (8 * x.fx.n) := by
  unfold serialize at h
  split at h
  · cases h
  · rename_i hopen
    split at h
    · cases h
    · split at h <;> cases h
      exact ⟨by simpa using hopen, by omega, rfl⟩

/-- FX.DESER moves the offset by the octets it read and stays inside the view (41_extensible_field.md R155). -/
theorem readChain_nil_complete {m : Memory} {limit room off off' : Nat} {octs : List Byte}
    (h : readChain m limit room off [] = .complete octs off') :
    octs.length ≤ room ∧ off' = off + 8 * octs.length ∧ off' ≤ limit := by
  obtain ⟨bs, b, rfl, hroom, hoff, hlimit, -⟩ := readChain_complete h
  simp only [List.nil_append, List.length_append, List.length_singleton]
  exact ⟨hroom, hoff, hlimit⟩

theorem wrapTextReply_eq_done {start : Byte} {n : Nat} (h : wrapTextReply c start n x = .done y r) : y = x := by
  unfold wrapTextReply at h
  split at h
  · cases h
  · split at h <;> cases h
    rfl

theorem wrapBinReply_eq_done {p : BinProfile} {start : Byte} {count : BitVec 32}
    (h : wrapBinReply c p start count x = .done y r) : y = x := by
  unfold wrapBinReply at h
  simp only at h
  split at h
  · cases h
  · split at h
    · cases h
    · split at h <;> cases h
      rfl

/-- The commands that read their `Instance` and change nothing of it. -/
def Instr.observes : Instr → Bool
  | .nop | .curTell | .fxGet _ | .fxSize | .ckCompute _ _ _ | .ckFormat _ _ _ | .ckCheck _ _ _ _ | .fpWrap _ _ => true
  | _ => false

theorem reply_done_of_observes (hi : Instr.observes i = true) (h : Instr.reply c k x i = some (.done y r)) : y = x := by
  cases i with
  | nop | fxGet | fxSize => cases h; rfl
  | curTell =>
    have h := Option.some.inj h
    split at h <;> cases h
    rfl
  | ckCompute | ckFormat =>
    have h := Option.some.inj h
    split at h
    · cases h
    · split at h <;> cases h
      rfl
  | ckCheck =>
    have h := Option.some.inj h
    split at h
    · cases h
    · split at h
      · cases h
      · split at h <;> cases h
        rfl
  | fpWrap =>
    obtain ⟨p, -, h⟩ := Option.map_eq_some_iff.mp h
    cases p with
    | text => exact wrapTextReply_eq_done h
    | binary bp => exact wrapBinReply_eq_done h
  | _ => cases hi

/-! ### The statuses of the replies -/

/-- A reply that completes answers `S_OK`, one that raises an error a code with bit 7 = 1 (60_exceptions.md R300). -/
def Reply.StatusFits : Reply → Prop
  | .done _ r => r.status = .sOk
  | .error e _ => Status.isError e = true

/-- Of the codes of R300 only `S_OK` and `S_UNRECOGNIZED` have bit 7 = 0. -/
theorem Status.isError_iff (e : Status) : Status.isError e = true ↔ e ≠ .sOk ∧ e ≠ .sUnrecognized := by
  cases e <;> decide

theorem accessError_isError {u : CursorUnit} {w : Nat} {wr ck : Bool} {e : Status × DataWord}
    (h : accessError u w wr ck = some e) : Status.isError e.1 = true := by
  rcases accessError_status h with rfl | rfl | rfl | rfl <;> simp [Status.isError_iff]

theorem readField_statusFits (w : Nat) (ck : Bool) (result : Nat → DataWord) (x : Instance) :
    (readField w ck result x).StatusFits := by
  rcases readField_cases w ck result x with ⟨e, he, h⟩ | ⟨-, h⟩ <;> rw [h]
  · exact accessError_isError he
  · rfl

theorem writeField_statusFits (w : Nat) (ck : Bool) (u : Nat) (x : Instance) : (writeField w ck u x).StatusFits := by
  rcases writeField_cases w ck u x with ⟨e, he, h⟩ | ⟨-, h⟩ <;> rw [h]
  · exact accessError_isError he
  · rfl

theorem wrapReply_statusFits (c : Config) (start : Byte) (count : BitVec 32) (x : Instance) (p : Profile) :
    (wrapReply c start count x p).StatusFits := by
  cases p with
  | text => simp only [wrapReply, wrapTextReply]; split_ifs <;> rfl
  | binary bp =>
    simp only [wrapReply, wrapBinReply]
    split_ifs
    · rfl
    · rfl
    · split <;> rfl

theorem reply_statusFits {q : Reply} (h : Instr.reply c k x i = some q) : q.StatusFits := by
  cases i with
  | curOpen mode src =>
    cases src with
    | hostBuffer len => cases h; unfold openHostBuffer; split <;> rfl
    | frameOutput => cases h; unfold openFrameOutput; split_ifs <;> rfl
  | curRdu | curRds | curRdb8 | curRdb16 | curRdb32 | curSkip => cases h; exact readField_statusFits _ _ _ _
  | curWru | curWrs | curWrb8 | curWrb16 | curWrb32 => cases h; exact writeField_statusFits _ _ _ _
  | nop | curClose | fxClear | fxGet | fxSize => cases h; rfl
  | curTell | fxSet => cases h; split <;> rfl
  | fxDeser =>
    cases h
    unfold deserialize
    split
    · rfl
    · split <;> rfl
  | fxSer => cases h; unfold serialize; split_ifs <;> rfl
  | ckCompute kind | ckFormat _ kind | ckCheck kind =>
    cases h
    cases kindOfCode kind with
    | none => rfl
    | some ck => simp only; split_ifs <;> rfl
  | fpPush b =>
    obtain ⟨p, -, h⟩ := Option.bind_eq_some_iff.mp h
    obtain ⟨r, -, rfl⟩ := Option.map_eq_some_iff.mp h
    rfl
  | fpReset =>
    obtain ⟨p, -, rfl⟩ := Option.map_eq_some_iff.mp h
    rfl
  | fpWrap start count =>
    obtain ⟨p, -, rfl⟩ := Option.map_eq_some_iff.mp h
    exact wrapReply_statusFits c start count x p
  | regAdd | regSeal | regLookup | regDispatch => cases h

/-! ### The cursor offset -/

/-- The commands that open or close a view. -/
def Instr.placesCursor : Instr → Bool
  | .curOpen _ _ | .curClose => true
  | _ => false

/-- CUR.OPEN and CUR.CLOSE set `CUR_OFF` to 0 (40_bitcursor.md R110, R111). -/
theorem reply_done_off_of_placesCursor (hi : Instr.placesCursor i = true) (h : Instr.reply c k x i = some (.done y r)) :
    y.cur.off = 0 := by
  cases i with
  | curOpen mode src =>
    cases src with
    | hostBuffer len => obtain ⟨-, rfl⟩ := openHostBuffer_eq_done (Option.some.inj h); rfl
    | frameOutput => obtain ⟨-, rfl⟩ := openFrameOutput_eq_done (Option.some.inj h); rfl
  | curClose => cases h; rfl
  | _ => cases hi

/-- Every other command that completes moves the offset by its width and keeps the view (10_state.md R26). -/
theorem reply_done_cursor (hi : Instr.placesCursor i = false) (h : Instr.reply c k x i = some (.done y r)) :
    y.cur = { x.cur with off := x.cur.off + Instr.bitsMoved i y } := by
  cases i with
  | curRdu | curRds | curRdb8 | curRdb16 | curRdb32 | curSkip =>
    obtain ⟨-, rfl⟩ := readField_eq_done (Option.some.inj h)
    rfl
  | curWru | curWrs | curWrb8 | curWrb16 | curWrb32 =>
    obtain ⟨-, rfl⟩ := writeField_eq_done (Option.some.inj h)
    rfl
  | fxDeser =>
    obtain ⟨-, octs, off, hread, rfl⟩ := deserialize_eq_done (Option.some.inj h)
    obtain ⟨-, rfl, -⟩ := readChain_nil_complete hread
    rfl
  | fxSer =>
    obtain ⟨-, -, rfl⟩ := serialize_eq_done (Option.some.inj h)
    rfl
  | fxClear => cases h; rfl
  | fxSet => obtain ⟨-, rfl⟩ := reply_fxSet_eq_done h; rfl
  | fpPush b =>
    obtain ⟨p, -, h⟩ := Option.bind_eq_some_iff.mp h
    obtain ⟨s, -, h⟩ := Option.map_eq_some_iff.mp h
    cases h; rfl
  | fpReset =>
    obtain ⟨p, -, h⟩ := Option.map_eq_some_iff.mp h
    cases h; rfl
  | nop | curTell | fxGet | fxSize | ckCompute | ckFormat | ckCheck | fpWrap =>
    obtain rfl := reply_done_of_observes rfl h
    rfl
  | curOpen | curClose => cases hi
  | regAdd | regSeal | regLookup | regDispatch => cases h

/-- A command of the registry unit leaves its `Instance` in place. -/
theorem runs_of_exec_reg {s t : State} (hi : Instr.isReg i = true) (hx : s.Runs x) (hy : t.Runs y)
    (h : exec i s = .next t) : y = x := by
  obtain ⟨-, -, hport, -⟩ := exec_next_keeps h
  rw [State.Runs, hport, exec_reg_next_insts hi h] at hy
  exact Option.some.inj (hy.symm.trans hx)

/-- Settles O16: a reply that raises an error keeps the `Instance`; one that completes answers `S_OK` and moves the offset
as its command says. -/
theorem cursorOffsetMovesByTheWidth : Obligations.CursorOffsetMovesByTheWidth := by
  intro i s t x y hx hy h
  cases hi : Instr.isReg i with
  | true =>
    obtain rfl := runs_of_exec_reg hi hx hy h
    split
    · rfl
    · cases i with
      | regAdd | regSeal | regLookup | regDispatch => exact ⟨rfl, rfl, rfl, rfl⟩
      | _ => cases hi
  | false =>
    rcases exec_next_reply hx hi h with ⟨z, r, hq, rfl⟩ | ⟨e, info, hq, rfl⟩
    · obtain rfl := State.runs_setInst hx hy
      have hok : r.status = .sOk := reply_statusFits hq
      rw [if_neg (by simp [Status.isError_iff, hok])]
      cases i with
      | curOpen | curClose => exact reply_done_off_of_placesCursor rfl hq
      | regAdd | regSeal | regLookup | regDispatch => cases hi
      | _ => simp only [reply_done_cursor rfl hq, and_self]
    · have herr : Status.isError e = true := reply_statusFits hq
      refine (if_pos herr).mpr ?_
      exact congrArg Instance.cur (Option.some.inj (hy.symm.trans hx))

/-! ### The frame output -/

/-- The commands that change the frame output (43_frame_parser.md R210, R211). -/
def Instr.drivesParser : Instr → Bool
  | .fpPush _ | .fpReset => true
  | _ => false

/-- FP.PUSH and FP.RESET complete, and hold exactly the frame they answer (10_state.md R41). -/
theorem reply_of_drivesParser {q : Reply} (hi : Instr.drivesParser i = true) (h : Instr.reply c k x i = some q) :
    ∃ y r, q = .done y r ∧ y.fo = x.fo.afterPush r.frame := by
  cases i with
  | fpPush b =>
    obtain ⟨p, -, h⟩ := Option.bind_eq_some_iff.mp h
    obtain ⟨r, -, rfl⟩ := Option.map_eq_some_iff.mp h
    exact ⟨_, _, rfl, rfl⟩
  | fpReset =>
    obtain ⟨p, -, rfl⟩ := Option.map_eq_some_iff.mp h
    exact ⟨_, _, rfl, rfl⟩
  | _ => cases hi

/-- Every other command keeps the frame output (70_reset_and_hazards.md R350). -/
theorem reply_done_fo (hi : Instr.drivesParser i = false) (h : Instr.reply c k x i = some (.done y r)) :
    y.fo = x.fo := by
  cases i with
  | curOpen mode src =>
    cases src with
    | hostBuffer len => obtain ⟨-, rfl⟩ := openHostBuffer_eq_done (Option.some.inj h); rfl
    | frameOutput => obtain ⟨-, rfl⟩ := openFrameOutput_eq_done (Option.some.inj h); rfl
  | curClose | fxClear => cases h; rfl
  | curRdu | curRds | curRdb8 | curRdb16 | curRdb32 | curSkip =>
    obtain ⟨-, rfl⟩ := readField_eq_done (Option.some.inj h)
    rfl
  | curWru | curWrs | curWrb8 | curWrb16 | curWrb32 =>
    obtain ⟨-, rfl⟩ := writeField_eq_done (Option.some.inj h)
    rfl
  | fxDeser => obtain ⟨-, octs, off, -, rfl⟩ := deserialize_eq_done (Option.some.inj h); rfl
  | fxSer => obtain ⟨-, -, rfl⟩ := serialize_eq_done (Option.some.inj h); rfl
  | fxSet => obtain ⟨-, rfl⟩ := reply_fxSet_eq_done h; rfl
  | nop | curTell | fxGet | fxSize | ckCompute | ckFormat | ckCheck | fpWrap =>
    obtain rfl := reply_done_of_observes rfl h
    rfl
  | fpPush | fpReset => cases hi
  | regAdd | regSeal | regLookup | regDispatch => cases h

/-- With no frame held, CUR.OPEN of the frame output answers `E_NO_FRAME` (40_bitcursor.md R110). -/
theorem exec_curOpen_frameOutput_of_invalid {s : State} (hx : s.Runs x) (hv : x.fo.valid = false) :
    exec (.curOpen .ro .frameOutput) s = .next (s.failed .eNoFrame 0) := by
  have hq : Instr.reply s.cfg s.port x (.curOpen .ro .frameOutput) = some (.error .eNoFrame 0) := by
    simp [Instr.reply, openFrameOutput, hv]
  rw [exec_of_reply hx hq]
  rfl

/-- With no frame held, REG.DISPATCH answers `E_NO_FRAME` in the sealed phase (44_registry_dispatch.md R266). -/
theorem exec_regDispatch_of_invalid {s : State} (hx : s.Runs x) (hv : x.fo.valid = false)
    (hs : s.reg.isSealed = true) : exec .regDispatch s = .next (s.failed .eNoFrame 0) := by
  simp only [exec, execRegDispatch, State.withInst_of_some hx, hs, hv]
  rfl

/-- After FP.PUSH or FP.RESET the frame output holds the answered frame, or nothing that a command can read. -/
theorem exec_drivesParser_next {s t : State} (hi : Instr.drivesParser i = true) (hx : s.Runs x) (hy : t.Runs y)
    (h : exec i s = .next t) : y.fo = x.fo.afterPush t.rsp.frame := by
  have hreg : Instr.isReg i = false := by
    cases i with
    | fpPush | fpReset => rfl
    | _ => cases hi
  rcases exec_next_reply hx hreg h with ⟨z, r, hq, rfl⟩ | ⟨e, info, hq, -⟩
  · obtain rfl := State.runs_setInst hx hy
    obtain ⟨_, _, hdone, hfo⟩ := reply_of_drivesParser hi hq
    cases hdone
    exact hfo
  · obtain ⟨_, _, hdone, -⟩ := reply_of_drivesParser hi hq
    cases hdone

theorem exec_next_fo {s t : State} (hi : Instr.drivesParser i = false) (hx : s.Runs x) (hy : t.Runs y)
    (h : exec i s = .next t) : y.fo = x.fo := by
  cases hreg : Instr.isReg i with
  | true => rw [runs_of_exec_reg hreg hx hy h]
  | false =>
    rcases exec_next_reply hx hreg h with ⟨z, r, hq, rfl⟩ | ⟨e, info, -, rfl⟩
    · obtain rfl := State.runs_setInst hx hy
      exact reply_done_fo hi hq
    · exact congrArg Instance.fo (Option.some.inj (hy.symm.trans hx))

/-- Settles O43: FP.PUSH and FP.RESET hold the frame of their response and nothing else; the two readers look at
`FO_VALID`. -/
theorem frameOutputLifetime : Obligations.FrameOutputLifetime := by
  intro s t x y i hx hy h
  have driven : Instr.drivesParser i = true → match t.rsp.frame with
      | some f => y.fo = { valid := true, frame := f }
      | none => y.fo = { valid := false, frame := x.fo.frame }
          ∧ exec (.curOpen .ro .frameOutput) t = .next (t.failed .eNoFrame 0)
          ∧ (t.reg.isSealed = true → exec .regDispatch t = .next (t.failed .eNoFrame 0)) := by
    intro hi
    have hfo := exec_drivesParser_next hi hx hy h
    cases hf : t.rsp.frame with
    | some f => rw [hf] at hfo; exact hfo
    | none =>
      rw [hf] at hfo
      have hv : y.fo.valid = false := by rw [hfo]; rfl
      exact ⟨hfo, exec_curOpen_frameOutput_of_invalid hy hv, exec_regDispatch_of_invalid hy hv⟩
  cases i with
  | fpPush | fpReset => exact driven rfl
  | _ => exact exec_next_fo rfl hx hy h

end Sys2Proof.Machine
end

section
/-! ### The invariant of each unit -/

namespace Sys2Proof.Machine

variable {c : Config} {k : Nat} {p : Profile} {x y : Instance} {r : Response} {i : Instr}

theorem CursorUnit.Inv.move {u : CursorUnit} (h : u.Inv c) (hopen : u.isOpen = true) {off : Nat}
    (hfit : off ≤ 8 * u.len) : ({ u with off := off } : CursorUnit).Inv c := by
  obtain ⟨hlen, -, -⟩ := h
  exact ⟨hlen, hfit, fun hclosed => absurd (hopen.symm.trans hclosed) (by decide)⟩

theorem CursorUnit.view_inv (mode : ViewMode) {len : Nat} (h : len ≤ c.hbCap) : (CursorUnit.view mode len).Inv c :=
  ⟨h, Nat.zero_le _, nofun⟩

/-- An `Instance` whose view is open, with the offset moved inside the view and the host buffer kept canonical. -/
theorem Instance.Inv.advance (h : x.Inv c p) {w : Nat} {m : Memory} (hopen : x.cur.isOpen = true)
    (hfit : x.cur.off + w ≤ 8 * x.cur.len) (hm : m.Inv c) : (({ x with hb := m } : Instance).advance w).Inv c p := by
  obtain ⟨hcur, hfx, hfp, hfo, -⟩ := h
  exact ⟨hcur.move hopen hfit, hfx, hfp, hfo, hm⟩

/-- The bits of a field inside the view are bits of `HB[0..HB_CAP)` (20_memory.md R70). -/
theorem Instance.Inv.fits_hbCap (h : x.Inv c p) {n : Nat} (hfit : n ≤ 8 * x.cur.len) : n ≤ 8 * c.hbCap := by
  obtain ⟨⟨hlen, -⟩, -⟩ := h
  omega

theorem Memory.Inv.putBits {m : Memory} (h : m.Inv c) {o w : Nat} (u : Nat) (hfit : o + w ≤ 8 * c.hbCap) :
    (m.putBits o w u).Inv c :=
  ⟨Memory.putBits_wf h.1 o w u, Memory.putBits_below h.2 o w u hfit⟩

theorem Memory.Inv.putOctets {m : Memory} (h : m.Inv c) {o : Nat} {bs : List Byte}
    (hfit : o + 8 * bs.length ≤ 8 * c.hbCap) : (m.putOctets o bs).Inv c :=
  ⟨Memory.putOctets_wf h.1 o bs, Memory.putOctets_below h.2 o bs hfit⟩

theorem Memory.Inv.writeBytes {m : Memory} (h : m.Inv c) {a : Nat} {bs : List Byte} (hfit : a + bs.length ≤ c.hbCap) :
    (m.writeBytes a bs).Inv c :=
  ⟨Memory.writeBytes_wf h.1 a bs, Memory.writeBytes_below h.2 a bs hfit⟩

theorem Memory.Inv.write {m : Memory} (h : m.Inv c) {a : Nat} (ha : a < c.hbCap) (b : Byte) : (m.write a b).Inv c :=
  ⟨Memory.write_wf h.1 a b, Memory.write_below h.2 ha b⟩

/-- FP.RESET gives the parser unit its reset values (43_frame_parser.md R211). -/
theorem ParserUnit.Inv.reset_eq {fp : ParserUnit} (h : fp.Inv c p) : fp.reset p = ParserUnit.initial c p := by
  obtain ⟨-, hbuf, -, hhdr, -, -, htrl, -⟩ := h
  simp [ParserUnit.reset, ParserUnit.initial, hbuf, hhdr, htrl, List.replicate]

/-- The stored octets of a field are as many as `FX_N` says. -/
theorem FieldUnit.Inv.length_octets {f : FieldUnit} (h : f.Inv c) : f.octets.length = f.n := by
  obtain ⟨hn, hlength⟩ := h
  simp only [FieldUnit.octets, List.length_take]
  omega

/-- Every command outside REG.* that completes keeps the invariant of its `Instance`. -/
theorem reply_done_inv (hp : c.instProfile? k = some p) (hw : p.wf = true) (hx : x.Inv c p)
    (h : Instr.reply c k x i = some (.done y r)) : y.Inv c p := by
  obtain ⟨hcur, hfx, hfp, hfo, hhb⟩ := id hx
  cases i with
  | nop | curTell | fxGet | fxSize | ckCompute | ckFormat | ckCheck | fpWrap =>
    obtain rfl := reply_done_of_observes rfl h
    exact hx
  | curOpen mode src =>
    cases src with
    | hostBuffer len =>
      obtain ⟨hlen, rfl⟩ := openHostBuffer_eq_done (Option.some.inj h)
      exact ⟨CursorUnit.view_inv mode hlen, hfx, hfp, hfo, hhb⟩
    | frameOutput =>
      obtain ⟨hlen, rfl⟩ := openFrameOutput_eq_done (Option.some.inj h)
      exact ⟨CursorUnit.view_inv mode hlen, hfx, hfp, hfo, hhb.writeBytes (by omega)⟩
  | curClose => cases h; exact ⟨CursorUnit.closed_inv c, hfx, hfp, hfo, hhb⟩
  | curRdu | curRds | curRdb8 | curRdb16 | curRdb32 | curSkip =>
    obtain ⟨hok, rfl⟩ := readField_eq_done (Option.some.inj h)
    obtain ⟨hopen, -, -, hfit⟩ := accessError_eq_none.mp hok
    exact hx.advance hopen hfit hhb
  | curWru | curWrs | curWrb8 | curWrb16 | curWrb32 =>
    obtain ⟨hok, rfl⟩ := writeField_eq_done (Option.some.inj h)
    obtain ⟨hopen, -, -, hfit⟩ := accessError_eq_none.mp hok
    exact hx.advance hopen hfit (hhb.putBits _ (hx.fits_hbCap hfit))
  | fxClear => cases h; exact ⟨hcur, FieldUnit.empty_inv c, hfp, hfo, hhb⟩
  | fxSet v index =>
    obtain ⟨hindex, rfl⟩ := reply_fxSet_eq_done h
    exact ⟨hcur, FieldUnit.setBit_inv hfx hindex v, hfp, hfo, hhb⟩
  | fxDeser =>
    obtain ⟨hopen, octs, off, hread, rfl⟩ := deserialize_eq_done (Option.some.inj h)
    obtain ⟨hroom, -, hlimit⟩ := readChain_nil_complete hread
    exact ⟨hcur.move hopen hlimit, FieldUnit.ofOctets_inv c hroom, hfp, hfo, hhb⟩
  | fxSer =>
    obtain ⟨hopen, hfit, rfl⟩ := serialize_eq_done (Option.some.inj h)
    refine hx.advance hopen hfit (hhb.putOctets ?_)
    rw [wireOctets_length, hfx.length_octets]
    exact hx.fits_hbCap hfit
  | fpPush b =>
    obtain ⟨q, hq, h⟩ := Option.bind_eq_some_iff.mp h
    obtain rfl := Option.some.inj (hp.symm.trans hq)
    obtain ⟨s, hs, h⟩ := Option.map_eq_some_iff.mp h
    cases h
    obtain ⟨_, hs', ⟨hkeep, hframe⟩, -⟩ := parserStep_keeps hw hfp b
    obtain rfl := Option.some.inj (hs.symm.trans hs')
    refine ⟨hcur, hfx, hkeep, ?_, hhb⟩
    rw [Instance.afterPush_fo]
    cases hf : s.frame with
    | none => exact hfo
    | some f => exact hframe f hf
  | fpReset =>
    obtain ⟨q, hq, h⟩ := Option.map_eq_some_iff.mp h
    obtain rfl := Option.some.inj (hp.symm.trans hq)
    cases h
    exact ⟨hcur, hfx, hfp.reset_eq ▸ ParserUnit.initial_inv c hw, hfo, hhb⟩
  | regAdd | regSeal | regLookup | regDispatch => cases h

/-- REG.ADD registers a key no entry in use matches, and REG.SEAL changes no entry (44_registry_dispatch.md R263,
R264). -/
theorem Registry.Update.inv {g g' : Registry} (hg : g.Inv c) (h : g.Update c i g') : g'.Inv c := by
  obtain ⟨hn, hlength, hids, hprofiles, hkeys⟩ := id hg
  cases h with
  | sealing => exact hg
  | newEntry unsealed profile short fresh room =>
    refine ⟨by simp only [Registry.append_n]; omega, by simpa using hlength, ?_, ?_, ?_⟩
    · intro e he
      rcases List.mem_or_eq_of_mem_set he with he | rfl
      · exact hids e he
      · simpa [idOperand] using short
    · rw [Registry.used_append _ (by omega)]
      intro e he
      rcases List.mem_append.mp he with he | he
      · exact hprofiles e he
      · rw [List.mem_singleton.mp he]
        exact Option.isSome_of_eq_some profile
    · rw [Registry.used_append _ (by omega), List.pairwise_append]
      refine ⟨hkeys, List.pairwise_singleton _ _, ?_⟩
      intro a ha b hb q hq
      obtain rfl := List.mem_singleton.mp hb
      obtain rfl := Option.some.inj (profile.symm.trans hq)
      exact findFrom_none.mp fresh a ha

/-! ### The invariant of the state -/

/-- The invariant does not speak of the waiting inputs and the response, and any existing port may be in use. -/
theorem State.Inv.received {s : State} (h : s.Inv) (rest : List HostInput) {k : Nat} (hk : k < s.insts.length)
    (r : Response) : ({ s with inbox := rest, port := k, rsp := r } : State).Inv := by
  obtain ⟨hcfg, hlength, -, hinsts, hreg⟩ := h
  exact ⟨hcfg, hlength, hk, hinsts, hreg⟩

theorem State.Inv.port_lt {s : State} (h : s.Inv) : s.port < s.insts.length := by
  obtain ⟨-, -, hport, -⟩ := h
  exact hport

theorem State.Inv.withRsp {s : State} (h : s.Inv) (r : Response) : ({ s with rsp := r } : State).Inv :=
  h.received s.inbox h.port_lt r

/-- Each `Instance` of a state that meets the invariant has a well-formed profile and meets its own. -/
theorem State.Inv.exists_profile {s : State} (h : s.Inv) {k : Nat} {x : Instance} (hx : s.insts[k]? = some x) :
    ∃ p, s.cfg.instProfile? k = some p ∧ p.wf = true ∧ x.Inv s.cfg p := by
  obtain ⟨hcfg, hlength, -, hinsts, -⟩ := h
  obtain ⟨p, hp, hxp⟩ := hinsts k x hx
  have hk : k < s.insts.length := (List.getElem?_eq_some_iff.mp hx).1
  obtain ⟨q, hq, hw⟩ := Config.exists_instProfile hcfg (hlength ▸ hk)
  obtain rfl := Option.some.inj (hp.symm.trans hq)
  exact ⟨p, hp, hw, hxp⟩

/-- In a state that meets the invariant the port in use is that of an `Instance`. -/
theorem State.Inv.exists_runs {s : State} (h : s.Inv) : ∃ x, s.Runs x :=
  ⟨_, List.getElem?_eq_getElem h.port_lt⟩

/-- Replacing one `Instance` by one that meets the invariant of its profile. -/
theorem State.Inv.set {s : State} (h : s.Inv) {k : Nat} {p : Profile} {y : Instance}
    (hp : s.cfg.instProfile? k = some p) (hy : y.Inv s.cfg p) : ({ s with insts := s.insts.set k y } : State).Inv := by
  obtain ⟨hcfg, hlength, hport, hinsts, hreg⟩ := h
  refine ⟨hcfg, List.length_set.trans hlength, hport.trans_eq List.length_set.symm, ?_, hreg⟩
  intro j z hz
  by_cases hj : k = j
  · subst hj
    have hk : k < s.insts.length := by simpa using (List.getElem?_eq_some_iff.mp hz).1
    rw [List.getElem?_set_self hk] at hz
    exact ⟨p, hp, Option.some.inj hz ▸ hy⟩
  · rw [List.getElem?_set_ne hj] at hz
    exact hinsts j z hz

theorem State.Inv.setReg {s : State} (h : s.Inv) {g : Registry} (hg : g.Inv s.cfg) : (s.setReg g).Inv := by
  obtain ⟨hcfg, hlength, hport, hinsts, -⟩ := h
  exact ⟨hcfg, hlength, hport, hinsts, hg⟩

theorem State.Inv.registry {s : State} (h : s.Inv) : s.reg.Inv s.cfg := by
  obtain ⟨-, -, -, -, hreg⟩ := h
  exact hreg

/-- Every command that answers keeps the invariant. -/
theorem exec_next_inv {s t : State} (hs : s.Inv) (h : exec i s = .next t) : t.Inv := by
  cases hi : Instr.isReg i with
  | true =>
    rcases exec_reg_next hi h with ⟨r, rfl⟩ | ⟨g, r, hupd, rfl⟩
    · exact hs.withRsp r
    · exact (hs.setReg (hupd.inv hs.registry)).withRsp r
  | false =>
    obtain ⟨x, hx⟩ := hs.exists_runs
    obtain ⟨p, hp, hw, hxp⟩ := hs.exists_profile hx
    rcases exec_next_reply hx hi h with ⟨y, r, hq, rfl⟩ | ⟨e, info, -, rfl⟩
    · exact (hs.set hp (reply_done_inv hp hw hxp hq)).withRsp r
    · exact hs.withRsp _

/-- A hardware reset is a launch with the host buffers kept (70_reset_and_hazards.md R340). -/
theorem State.Inv.hardReset {s : State} (h : s.Inv) : s.hardReset.Inv := by
  have hlaunch : (State.launch s.cfg (s.insts.map (fun x => x.hb))).Inv := by
    refine State.launch_inv h.1 ?_
    intro m hm
    obtain ⟨x, hx, rfl⟩ := List.mem_map.mp hm
    obtain ⟨k, hk⟩ := List.getElem?_of_mem hx
    obtain ⟨p, -, -, -, -, -, -, hhb⟩ := h.exists_profile hk
    exact hhb
  exact hlaunch.received s.inbox hlaunch.port_lt _

/-- Settles O54: each of the inputs a step can take keeps the invariant. -/
theorem stepKeepsTheInvariant : Obligations.StepKeepsTheInvariant := by
  intro s t hs h
  rcases step_next_cases h with ⟨-, rfl⟩ | ⟨k, cmd, data, rest, -, hk, hrun⟩ | ⟨k, a, b, rest, -, hwrite⟩ |
    ⟨rest, -, rfl⟩
  · exact hs
  · have hs' := hs.received rest hk s.rsp
    rcases State.runCommand_next_cases hrun with ⟨i, hexec⟩ | ⟨r, rfl⟩
    · exact exec_next_inv hs' hexec
    · exact hs'.withRsp r
  · obtain ⟨x, hx, ha, rfl⟩ := State.hostWrite_next hwrite
    have hs' := hs.received rest hs.port_lt s.rsp
    obtain ⟨p, hp, -, hcur, hfx, hfp, hfo, hhb⟩ := hs'.exists_profile hx
    exact hs'.set hp ⟨hcur, hfx, hfp, hfo, hhb.write ha b⟩
  · exact (hs.received rest hs.port_lt s.rsp).hardReset

/-! ### Every command is answered -/

/-- An `Instance` that meets the invariant of its profile has a reply to every command outside REG.*. -/
theorem exists_reply (hp : c.instProfile? k = some p) (hw : p.wf = true) (hx : x.Inv c p)
    (hi : Instr.isReg i = false) : ∃ q, Instr.reply c k x i = some q := by
  cases i with
  | curOpen mode src => cases src <;> exact ⟨_, rfl⟩
  | fpPush b =>
    obtain ⟨-, -, hfp, -⟩ := hx
    obtain ⟨s, hs, -⟩ := parserStep_keeps hw hfp b
    exact ⟨_, Option.bind_eq_some_iff.mpr ⟨p, hp, Option.map_eq_some_iff.mpr ⟨s, hs, rfl⟩⟩⟩
  | fpReset | fpWrap => exact ⟨_, Option.map_eq_some_iff.mpr ⟨p, hp, rfl⟩⟩
  | regAdd | regSeal | regLookup | regDispatch => cases hi
  | _ => exact ⟨_, rfl⟩

theorem State.exists_commit_next (s : State) (q : Reply) : ∃ t, s.commit q = .next t := by
  cases q <;> exact ⟨_, rfl⟩

/-- A command of the registry unit is answered on a port with an `Instance` and a profile. -/
theorem exists_exec_reg_next {s : State} (hx : s.Runs x) (hp : s.cfg.instProfile? s.port = some p)
    (hi : Instr.isReg i = true) : ∃ t, exec i s = .next t := by
  cases i with
  | regAdd proto handle m data =>
    simp only [exec, execRegAdd]
    split
    · exact ⟨_, rfl⟩
    · split
      · exact ⟨_, rfl⟩
      · split
        · exact ⟨_, rfl⟩
        · split
          · exact ⟨_, rfl⟩
          · split <;> exact ⟨_, rfl⟩
  | regSeal => exact ⟨_, rfl⟩
  | regLookup proto m data =>
    simp only [exec, execRegLookup]
    split
    · exact ⟨_, rfl⟩
    · split
      · exact ⟨_, rfl⟩
      · split <;> exact ⟨_, rfl⟩
  | regDispatch =>
    simp only [exec, execRegDispatch, State.withInst_of_some hx, State.withProfile_of_some hp]
    split
    · exact ⟨_, rfl⟩
    · split <;> exact ⟨_, rfl⟩
  | _ => cases hi

/-- No command of a state that meets the invariant ends in a fault or a refusal (60_exceptions.md R307). -/
theorem exists_exec_next {s : State} (hs : s.Inv) (i : Instr) : ∃ t, exec i s = .next t := by
  obtain ⟨x, hx⟩ := hs.exists_runs
  obtain ⟨p, hp, hw, hxp⟩ := hs.exists_profile hx
  cases hi : Instr.isReg i with
  | true => exact exists_exec_reg_next hx hp hi
  | false =>
    obtain ⟨q, hq⟩ := exists_reply hp hw hxp hi
    rw [exec_of_reply hx hq]
    exact State.exists_commit_next s q

/-- Settles O51: a legal word decodes to a command that is answered, an illegal one is answered by the step. -/
theorem everyCommandIsAnswered : Obligations.EveryCommandIsAnswered := by
  intro s k cmd data rest hs hin hk
  have hk' : k < s.insts.length := by
    obtain ⟨-, hlength, -⟩ := hs
    omega
  rw [step_of_command hin hk']
  cases hd : decode cmd data with
  | error e => exact ⟨_, State.runCommand_of_illegal hd, rfl, rfl⟩
  | ok i =>
    obtain ⟨t, ht⟩ := exists_exec_next (hs.received rest hk' s.rsp) i
    obtain ⟨-, hinbox, hport, -⟩ := exec_next_keeps ht
    exact ⟨t, (State.runCommand_of_decode hd).trans ht, hinbox, hport⟩

end Sys2Proof.Machine
end

section
/-! ### Alike parser units

Two parser units that differ in buffer bytes past `FP_CNT` only (10_state.md R31) take pushes to two such units. -/

namespace Sys2Proof.Machine

variable {c : Config} {p : Profile} {bp : BinProfile} {fp fp' : ParserUnit}

/-- A unit with another buffer that holds the same accumulated bytes. -/
theorem ParserUnit.alike_withBuf {buf : List Byte} (h : buf.take fp.cnt = fp.buf.take fp.cnt) :
    fp.Alike { fp with buf := buf } := ⟨h.symm, rfl⟩

theorem ParserUnit.Alike.exists_withBuf (h : fp.Alike fp') :
    ∃ buf, fp' = { fp with buf := buf } ∧ buf.take fp.cnt = fp.buf.take fp.cnt := by
  obtain ⟨hacc, hrest⟩ := h
  cases fp
  cases fp'
  simp only [ParserUnit.mk.injEq, true_and] at hrest
  obtain ⟨rfl, rfl, rfl, rfl, rfl, rfl, rfl, rfl⟩ := hrest
  exact ⟨_, rfl, hacc.symm⟩

theorem ParserUnit.Alike.accumulated_eq (h : fp.Alike fp') : fp.accumulated = fp'.accumulated := h.1

theorem ParserUnit.Alike.st_eq (h : fp.Alike fp') : fp.st = fp'.st := by
  obtain ⟨buf, rfl, -⟩ := h.exists_withBuf
  rfl

theorem ParserUnit.Alike.ckrx_eq (h : fp.Alike fp') : fp.ckrx = fp'.ckrx := by
  obtain ⟨buf, rfl, -⟩ := h.exists_withBuf
  rfl

/-- The accumulated bytes after one more is stored. -/
theorem take_succ_set {l : List Byte} {n : Nat} (h : n < l.length) (b : Byte) :
    (l.set n b).take (n + 1) = l.take n ++ [b] := by
  rw [List.take_add_one, List.take_set_of_le (Nat.le_refl _), List.getElem?_set_self h]
  rfl

/-- A byte stored after the accumulated ones (43_frame_parser.md R202, R224). -/
theorem ParserUnit.Alike.store (h : fp.Alike fp') (hroom : fp.cnt < fp.buf.length) (hroom' : fp.cnt < fp'.buf.length)
    (b : Byte) : ({ fp with buf := fp.buf.set fp.cnt b, cnt := fp.cnt + 1 } : ParserUnit).Alike
      { fp' with buf := fp'.buf.set fp'.cnt b, cnt := fp'.cnt + 1 } := by
  obtain ⟨buf, rfl, htake⟩ := h.exists_withBuf
  have hstored : (buf.set fp.cnt b).take (fp.cnt + 1) = (fp.buf.set fp.cnt b).take (fp.cnt + 1) := by
    rw [take_succ_set hroom, take_succ_set hroom', htake]
  exact ParserUnit.alike_withBuf hstored

/-- Two pushes with alike parser units, the same result and the same frame. -/
def PushStep.Alike (r r' : PushStep) : Prop := r.fp.Alike r'.fp ∧ r.ok = r'.ok ∧ r.frame = r'.frame

theorem PushStep.quiet_alike (h : fp.Alike fp') : (PushStep.quiet fp).Alike (PushStep.quiet fp') := ⟨h, rfl, rfl⟩

theorem PushStep.Alike.ite {P : Prop} [Decidable P] {a b a' b' : PushStep} (hpos : P → a.Alike a')
    (hneg : ¬P → b.Alike b') : (if P then a else b).Alike (if P then a' else b') := by
  split
  · exact hpos ‹_›
  · exact hneg ‹_›

/-! ### The TEXT parser -/

theorem ParserUnit.Alike.withState (h : fp.Alike fp') (st : ParserState) (ckrx : BitVec 8) :
    ({ fp with st := st, ckrx := ckrx } : ParserUnit).Alike { fp' with st := st, ckrx := ckrx } := by
  obtain ⟨buf, rfl, htake⟩ := h.exists_withBuf
  exact ParserUnit.alike_withBuf htake

theorem ParserUnit.Alike.withSt (h : fp.Alike fp') (st : ParserState) :
    ({ fp with st := st } : ParserUnit).Alike { fp' with st := st } := by
  obtain ⟨buf, rfl, htake⟩ := h.exists_withBuf
  exact ParserUnit.alike_withBuf htake

theorem textIdle_alike (h : fp.Alike fp') : (textIdle fp).Alike (textIdle fp') := by
  obtain ⟨buf, rfl, -⟩ := h.exists_withBuf
  exact ParserUnit.alike_withBuf rfl

theorem textStart_alike (h : fp.Alike fp') : (textStart fp).Alike (textStart fp') := by
  obtain ⟨buf, rfl, -⟩ := h.exists_withBuf
  exact ParserUnit.alike_withBuf rfl

theorem textAbort_alike (h : fp.Alike fp') : (textAbort fp).Alike (textAbort fp') :=
  PushStep.quiet_alike (textIdle_alike h)

theorem textAccumulate_alike (h : fp.Alike fp') (hfp : fp.Inv c .text) (hfp' : fp'.Inv c .text) (b : Byte) :
    (textAccumulate c fp b).Alike (textAccumulate c fp' b) := by
  obtain ⟨-, hlength, hle, -⟩ := hfp
  obtain ⟨-, hlength', -⟩ := hfp'
  obtain ⟨buf, rfl, htake⟩ := h.exists_withBuf
  unfold textAccumulate
  refine .ite (fun _ => PushStep.quiet_alike (h.withSt _)) fun _ => .ite (fun _ => ⟨textIdle_alike h, rfl, ?_⟩)
    fun _ => .ite (fun _ => textAbort_alike h) fun hfull => PushStep.quiet_alike (h.store (by omega) (by omega) b)
  simp only [ParserUnit.accumulated, htake]

theorem textChecksum1_alike (h : fp.Alike fp') (b : Byte) : (textChecksum1 fp b).Alike (textChecksum1 fp' b) := by
  unfold textChecksum1
  cases hexval b with
  | some d => exact PushStep.quiet_alike (h.withState _ _)
  | none => exact textAbort_alike h

theorem textChecksum2_alike (h : fp.Alike fp') (b : Byte) : (textChecksum2 fp b).Alike (textChecksum2 fp' b) := by
  unfold textChecksum2
  cases hexval b with
  | some d =>
    simp only [← h.ckrx_eq]
    exact PushStep.quiet_alike (h.withState _ _)
  | none => exact textAbort_alike h

theorem textExpectCr_alike (h : fp.Alike fp') (b : Byte) : (textExpectCr fp b).Alike (textExpectCr fp' b) :=
  .ite (fun _ => PushStep.quiet_alike (h.withSt _)) fun _ => textAbort_alike h

theorem textExpectLf_alike (h : fp.Alike fp') (b : Byte) : (textExpectLf c fp b).Alike (textExpectLf c fp' b) := by
  unfold textExpectLf
  rw [← h.accumulated_eq, ← h.ckrx_eq]
  exact .ite (fun _ => .ite (fun _ => ⟨textIdle_alike h, rfl, rfl⟩) fun _ => PushStep.quiet_alike (textIdle_alike h))
    fun _ => textAbort_alike h

/-- A push of a TEXT parser reads the accumulated bytes of its buffer alone. -/
theorem textStep_alike (h : fp.Alike fp') (hfp : fp.Inv c .text) (hfp' : fp'.Inv c .text) (b : Byte) :
    Option.Rel PushStep.Alike (textStep c fp b) (textStep c fp' b) := by
  have restart : (PushStep.quiet (textStart fp)).Alike (PushStep.quiet (textStart fp')) :=
    PushStep.quiet_alike (textStart_alike h)
  unfold textStep
  rw [← h.st_eq]
  cases fp.st with
  | sync =>
    refine .some (PushStep.quiet_alike ?_)
    split
    · exact textStart_alike h
    · exact h
  | accumulating => exact .some (.ite (fun _ => restart) fun _ => textAccumulate_alike h hfp hfp' b)
  | checksum1 => exact .some (.ite (fun _ => restart) fun _ => textChecksum1_alike h b)
  | checksum2 => exact .some (.ite (fun _ => restart) fun _ => textChecksum2_alike h b)
  | expectCr => exact .some (.ite (fun _ => restart) fun _ => textExpectCr_alike h b)
  | expectLf => exact .some (.ite (fun _ => restart) fun _ => textExpectLf_alike h b)
  | bSync | bHeader | bPayload | bTrailer => exact .none

/-! ### The BINARY parser -/

theorem binIdle_alike (h : fp.Alike fp') : (binIdle fp).Alike (binIdle fp') := by
  obtain ⟨buf, rfl, -⟩ := h.exists_withBuf
  exact ParserUnit.alike_withBuf rfl

/-- `bvalidate()` reads the payload, which is all that was accumulated (43_frame_parser.md R226). -/
theorem binValidate_alike (h : fp.Alike fp') (hpayload : fp.cnt = fp.plen) :
    (binValidate bp fp).Alike (binValidate bp fp') := by
  have hidle := binIdle_alike h
  obtain ⟨buf, rfl, htake⟩ := h.exists_withBuf
  rw [hpayload] at htake
  have hreceived : receivedChecksum bp { fp with buf := buf } = receivedChecksum bp fp := rfl
  unfold binValidate
  simp only [htake, hreceived]
  exact .ite (fun _ => ⟨hidle, rfl, rfl⟩) fun _ => PushStep.quiet_alike hidle

theorem binEndPayload_alike (h : fp.Alike fp') (hpayload : fp.cnt = fp.plen) :
    (binEndPayload bp fp).Alike (binEndPayload bp fp') := by
  unfold binEndPayload
  cases bp.ckLoc with
  | trailer =>
    obtain ⟨buf, rfl, htake⟩ := h.exists_withBuf
    exact PushStep.quiet_alike (ParserUnit.alike_withBuf htake)
  | header => exact binValidate_alike h hpayload

theorem binSync_alike (h : fp.Alike fp') (k : Nat) (b : Byte) : (binSync bp k fp b).Alike (binSync bp k fp' b) := by
  have found : ({ fp with st := .bHeader, hcnt := 0, cnt := 0, tcnt := 0 } : ParserUnit).Alike
      { fp' with st := .bHeader, hcnt := 0, cnt := 0, tcnt := 0 } := by
    obtain ⟨buf, rfl, -⟩ := h.exists_withBuf
    exact ParserUnit.alike_withBuf rfl
  exact .ite (fun _ => .ite (fun _ => PushStep.quiet_alike found) fun _ => PushStep.quiet_alike (h.withSt _))
    fun _ => .ite (fun _ => PushStep.quiet_alike (h.withSt _)) fun _ => PushStep.quiet_alike (h.withSt _)

/-- A complete header stands before any payload byte (43_frame_parser.md R223). -/
theorem binHeaderDone_alike (h : fp.Alike fp') (hcnt : fp.cnt = 0) :
    (binHeaderDone c bp fp).Alike (binHeaderDone c bp fp') := by
  have hidle := binIdle_alike h
  obtain ⟨buf, rfl, htake⟩ := h.exists_withBuf
  exact .ite (fun _ => PushStep.quiet_alike hidle) fun _ =>
    .ite (fun _ => binEndPayload_alike (fp := { fp with plen := 0 }) (ParserUnit.alike_withBuf htake) hcnt)
      fun _ => PushStep.quiet_alike (ParserUnit.alike_withBuf htake)

theorem binHeader_alike (h : fp.Alike fp') (hcnt : fp.cnt = 0) (b : Byte) :
    (binHeader c bp fp b).Alike (binHeader c bp fp' b) := by
  obtain ⟨buf, rfl, htake⟩ := h.exists_withBuf
  have hstored : ({ fp with hdr := fp.hdr.set fp.hcnt b, hcnt := fp.hcnt + 1 } : ParserUnit).Alike
      { fp with buf := buf, hdr := fp.hdr.set fp.hcnt b, hcnt := fp.hcnt + 1 } := ParserUnit.alike_withBuf htake
  exact .ite (fun _ => binHeaderDone_alike hstored hcnt) fun _ => PushStep.quiet_alike hstored

theorem binPayload_alike (h : fp.Alike fp') (hroom : fp.cnt < fp.buf.length) (hroom' : fp.cnt < fp'.buf.length)
    (b : Byte) : (binPayload bp fp b).Alike (binPayload bp fp' b) := by
  have hstored := h.store hroom hroom' b
  obtain ⟨buf, rfl, -⟩ := h.exists_withBuf
  exact .ite (fun hend => binEndPayload_alike hstored hend) fun _ => PushStep.quiet_alike hstored

theorem binTrailer_alike (h : fp.Alike fp') (hpayload : fp.cnt = fp.plen) (b : Byte) :
    (binTrailer bp fp b).Alike (binTrailer bp fp' b) := by
  obtain ⟨buf, rfl, htake⟩ := h.exists_withBuf
  have hstored : ({ fp with trl := fp.trl.set fp.tcnt b, tcnt := fp.tcnt + 1 } : ParserUnit).Alike
      { fp with buf := buf, trl := fp.trl.set fp.tcnt b, tcnt := fp.tcnt + 1 } := ParserUnit.alike_withBuf htake
  exact .ite (fun _ => binValidate_alike hstored hpayload) fun _ => PushStep.quiet_alike hstored

/-- A push of a BINARY parser reads the accumulated bytes of its buffer alone. -/
theorem binStep_alike (h : fp.Alike fp') (hfp : fp.Inv c (.binary bp)) (hfp' : fp'.Inv c (.binary bp)) (b : Byte) :
    Option.Rel PushStep.Alike (binStep c bp fp b) (binStep c bp fp' b) := by
  obtain ⟨-, hlength, -, -, -, hplen, -, -, hheader, hpayload, htrailer⟩ := hfp
  obtain ⟨-, hlength', -⟩ := hfp'
  unfold binStep
  rw [← h.st_eq]
  cases hcase : fp.st with
  | bSync k => exact .some (binSync_alike h k b)
  | bHeader =>
    obtain ⟨-, hcnt⟩ := hheader hcase
    exact .some (binHeader_alike h hcnt b)
  | bPayload =>
    have hroom := hpayload hcase
    exact .some (binPayload_alike h (by omega) (by omega) b)
  | bTrailer =>
    obtain ⟨-, hall, -⟩ := htrailer hcase
    exact .some (binTrailer_alike h hall b)
  | sync | accumulating | checksum1 | checksum2 | expectCr | expectLf => exact .none

/-- A push takes alike parser units to alike ones, with the same result and the same frame. -/
theorem parserStep_alike (h : fp.Alike fp') (hfp : fp.Inv c p) (hfp' : fp'.Inv c p) (b : Byte) :
    Option.Rel PushStep.Alike (parserStep c p fp b) (parserStep c p fp' b) := by
  cases p with
  | text => exact textStep_alike h hfp hfp' b
  | binary bp => exact binStep_alike h hfp hfp' b

end Sys2Proof.Machine
end

section
/-! ### Alike `Instance`s

Two `Instance`s that differ only in octets past `FX_N`, buffer bytes past `FP_CNT` and the content of `FO` while
`FO_VALID = 0` reply alike to every command. -/

namespace Sys2Proof.Machine

variable {c : Config} {k : Nat} {p : Profile} {x y : Instance} {i : Instr}

/-! #### Fields -/

theorem FieldUnit.octet_eq_octets_getD {f : FieldUnit} {j : Nat} (h : j < f.n) : f.octet j = f.octets.getD j 0 := by
  simp [FieldUnit.octet, FieldUnit.octets, h]

/-- FX.GET reads octets before `FX_N` alone (41_extensible_field.md R151). -/
theorem FieldUnit.Alike.get_eq {f g : FieldUnit} (h : f.Alike g) (j : Nat) : f.get j = g.get j := by
  obtain ⟨hn, hoctets⟩ := h
  rw [FieldUnit.get_eq, FieldUnit.get_eq, ← hn]
  split
  · rename_i hj
    rw [FieldUnit.octet_eq_octets_getD hj, FieldUnit.octet_eq_octets_getD (hn ▸ hj), hoctets]
  · rfl

/-- The octets after growing: the old ones and zeros up to octet `j` (41_extensible_field.md R152). -/
theorem FieldUnit.grow_octets {f : FieldUnit} (j : Nat) (h : f.n ≤ f.oct.length) :
    (f.grow j).octets = f.octets ++ List.replicate (j + 1 - f.n) 0 := by
  unfold FieldUnit.grow
  split
  · have hlength : (f.oct.take f.n ++ List.replicate (j + 1 - f.n) 0).length = j + 1 := by
      simp only [List.length_append, List.length_take, List.length_replicate]
      omega
    exact List.take_left' hlength
  · rw [show j + 1 - f.n = 0 by omega, List.replicate_zero, List.append_nil]

/-- Growing and writing a bit act on the octets in use alone (41_extensible_field.md R152). -/
theorem FieldUnit.Alike.setBit {f g : FieldUnit} (h : f.Alike g) (hf : f.Inv c) (hg : g.Inv c) (j : Nat) (v : Bool) :
    (f.setBit j v).Alike (g.setBit j v) := by
  obtain ⟨hn, hoctets⟩ := h
  have hgrown : (f.grow (j / 7)).octets = (g.grow (j / 7)).octets := by
    obtain ⟨hfn, hflength⟩ := hf
    obtain ⟨hgn, hglength⟩ := hg
    rw [FieldUnit.grow_octets _ (by omega), FieldUnit.grow_octets _ (by omega), hn, hoctets]
  have hgrown_n : (f.grow (j / 7)).n = (g.grow (j / 7)).n := by rw [FieldUnit.grow_n, FieldUnit.grow_n, hn]
  have hoctet : (f.grow (j / 7)).octet (j / 7) = (g.grow (j / 7)).octet (j / 7) := by
    rw [FieldUnit.octet_eq_octets_getD (by rw [FieldUnit.grow_n]; omega),
      FieldUnit.octet_eq_octets_getD (by rw [FieldUnit.grow_n]; omega), hgrown]
  refine ⟨hgrown_n, ?_⟩
  simp only [FieldUnit.octets] at hgrown
  simp only [FieldUnit.setBit, FieldUnit.putLogical, FieldUnit.octets, List.take_set, hoctet, hgrown]

/-! #### Replies -/

/-- Two replies with alike `Instance`s and the same response, or the same error. -/
inductive Reply.Alike : Reply → Reply → Prop
  | done {x y : Instance} (h : x.Alike y) (r : Response) : Reply.Alike (.done x r) (.done y r)
  | error (e : Status) (info : DataWord) : Reply.Alike (.error e info) (.error e info)

theorem Reply.Alike.ite {P : Prop} [Decidable P] {a b a' b' : Reply} (hpos : P → a.Alike a')
    (hneg : ¬P → b.Alike b') : (if P then a else b).Alike (if P then a' else b') := by
  split
  · exact hpos ‹_›
  · exact hneg ‹_›

theorem Instance.Alike.cur_eq (h : x.Alike y) : x.cur = y.cur := h.1
theorem Instance.Alike.hb_eq (h : x.Alike y) : x.hb = y.hb := h.2.1

theorem Instance.Alike.fx_alike (h : x.Alike y) : x.fx.Alike y.fx := by
  obtain ⟨-, -, hfx, -⟩ := h
  exact hfx

theorem Instance.Alike.fp_alike (h : x.Alike y) : x.fp.Alike y.fp := by
  obtain ⟨-, -, -, hfp, -⟩ := h
  exact hfp

theorem Instance.Alike.fo_alike (h : x.Alike y) : x.fo.Alike y.fo := by
  obtain ⟨-, -, -, -, hfo⟩ := h
  exact hfo

/-- Alike `Instance`s share the cursor and the host buffer. -/
theorem Instance.Alike.exists_eq (h : x.Alike y) : ∃ fx fp fo, y = { x with fx := fx, fp := fp, fo := fo } := by
  obtain ⟨hcur, hhb, -⟩ := h
  cases x
  cases y
  cases hcur
  cases hhb
  exact ⟨_, _, _, rfl⟩

theorem Instance.Alike.withCur (h : x.Alike y) (u : CursorUnit) :
    ({ x with cur := u } : Instance).Alike { y with cur := u } := by
  obtain ⟨-, hrest⟩ := h
  exact ⟨rfl, hrest⟩

theorem Instance.Alike.withHb (h : x.Alike y) (m : Memory) :
    ({ x with hb := m } : Instance).Alike { y with hb := m } := by
  obtain ⟨hcur, -, hrest⟩ := h
  exact ⟨hcur, rfl, hrest⟩

theorem Instance.Alike.withFx (h : x.Alike y) {f g : FieldUnit} (hfg : f.Alike g) :
    ({ x with fx := f } : Instance).Alike { y with fx := g } := by
  obtain ⟨hcur, hhb, -, hrest⟩ := h
  exact ⟨hcur, hhb, hfg, hrest⟩

theorem Instance.Alike.advance (h : x.Alike y) (w : Nat) : (x.advance w).Alike (y.advance w) := by
  obtain ⟨hcur, hrest⟩ := h
  exact ⟨by rw [Instance.advance_cur, Instance.advance_cur, hcur], hrest⟩

theorem FieldUnit.Alike.refl (f : FieldUnit) : f.Alike f := ⟨rfl, rfl⟩

theorem readField_alike (h : x.Alike y) (w : Nat) (ck : Bool) (result : Nat → DataWord) :
    (readField w ck result x).Alike (readField w ck result y) := by
  unfold readField
  rw [← h.cur_eq, ← h.hb_eq]
  cases accessError x.cur w false ck with
  | some e => exact .error _ _
  | none => exact .done (h.advance w) _

theorem writeField_alike (h : x.Alike y) (w : Nat) (ck : Bool) (u : Nat) :
    (writeField w ck u x).Alike (writeField w ck u y) := by
  obtain ⟨fx, fp, fo, rfl⟩ := h.exists_eq
  unfold writeField
  dsimp only
  cases accessError x.cur w true ck with
  | some e => exact .error _ _
  | none => exact .done ((h.withHb _).advance w) _

theorem Instance.Alike.openView (h : x.Alike y) (mode : ViewMode) (len : Nat) :
    (x.openView mode len).Alike (y.openView mode len) := .done (h.withCur _) _

theorem openHostBuffer_alike (h : x.Alike y) (mode : ViewMode) (len : Nat) :
    (openHostBuffer c mode len x).Alike (openHostBuffer c mode len y) :=
  .ite (fun _ => .error _ _) fun _ => h.openView mode len

/-- CUR.OPEN reads the held frame after it has checked `FO_VALID` (40_bitcursor.md R110). -/
theorem openFrameOutput_alike (h : x.Alike y) (mode : ViewMode) :
    (openFrameOutput c mode x).Alike (openFrameOutput c mode y) := by
  obtain ⟨hvalid, hframe⟩ := h.fo_alike
  unfold openFrameOutput
  rw [← hvalid]
  refine .ite (fun _ => .error _ _) fun _ => .ite (fun _ => .error _ _) fun hv => ?_
  have hheld : x.fo.frame = y.fo.frame := hframe (by simpa using hv)
  rw [← hheld, ← h.hb_eq]
  exact .ite (fun _ => .error _ _) fun _ => (h.withHb _).openView mode _

theorem deserialize_alike (h : x.Alike y) : (deserialize c x).Alike (deserialize c y) := by
  obtain ⟨fx, fp, fo, rfl⟩ := h.exists_eq
  unfold deserialize
  refine .ite (fun _ => .error _ _) fun _ => ?_
  dsimp only
  cases readChain x.hb (8 * x.cur.len) c.fxMax x.cur.off [] with
  | complete octs off => exact .done ((h.withFx (FieldUnit.Alike.refl _)).withCur _) _
  | noOctet off | truncated off | malformed off => exact .error _ _

theorem serialize_alike (h : x.Alike y) : (serialize x).Alike (serialize y) := by
  obtain ⟨hn, hoctets⟩ := h.fx_alike
  obtain ⟨fx, fp, fo, rfl⟩ := h.exists_eq
  unfold serialize
  rw [← hn, ← hoctets]
  exact .ite (fun _ => .error _ _) fun _ => .ite (fun _ => .error _ _) fun _ => .ite (fun _ => .error _ _) fun _ =>
    .done ((h.withHb _).advance _) _

theorem wrapReply_alike (h : x.Alike y) (start : Byte) (count : BitVec 32) (p : Profile) :
    (wrapReply c start count x p).Alike (wrapReply c start count y p) := by
  cases p with
  | text =>
    simp only [wrapReply, wrapTextReply, h.hb_eq]
    exact .ite (fun _ => .error _ _) fun _ => .ite (fun _ => .error _ _) fun _ => .done h _
  | binary bp =>
    simp only [wrapReply, wrapBinReply, h.hb_eq]
    refine .ite (fun _ => .error _ _) fun _ => .ite (fun _ => .error _ _) fun _ => ?_
    cases wrapBin bp (y.hb.readBytes 0 bp.hlen) (y.hb.readBytes bp.hlen (count.toNat - bp.hlen)) with
    | some out => exact .done h _
    | none => exact .error _ _

/-- A push with the same emitted frame leaves alike frame outputs (43_frame_parser.md R210). -/
theorem Instance.Alike.afterPush (h : x.Alike y) {r r' : PushStep} (hr : r.Alike r') :
    (x.afterPush r).Alike (y.afterPush r') := by
  obtain ⟨hfp, -, hframe⟩ := hr
  refine ⟨h.cur_eq, h.hb_eq, h.fx_alike, hfp, ?_⟩
  rw [Instance.afterPush_fo, Instance.afterPush_fo, ← hframe]
  cases r.frame with
  | none => exact ⟨rfl, by simp⟩
  | some f => exact ⟨rfl, fun _ => rfl⟩

theorem PushStep.Alike.response_eq {r r' : PushStep} (h : r.Alike r') : r.response = r'.response := by
  obtain ⟨-, hok, hframe⟩ := h
  simp only [PushStep.response, hok, hframe]

/-- Alike `Instance`s reply alike to every command. -/
theorem reply_alike (hp : c.instProfile? k = some p) (h : x.Alike y) (hx : x.Inv c p) (hy : y.Inv c p) :
    Option.Rel Reply.Alike (Instr.reply c k x i) (Instr.reply c k y i) := by
  obtain ⟨-, hxfx, hxfp, -⟩ := hx
  obtain ⟨-, hyfx, hyfp, -⟩ := hy
  cases i with
  | nop => exact .some (.done h _)
  | curOpen mode src =>
    cases src with
    | hostBuffer len => exact .some (openHostBuffer_alike h mode _)
    | frameOutput => exact .some (openFrameOutput_alike h mode)
  | curClose => exact .some (.done (h.withCur _) _)
  | curRdu | curRds | curRdb8 | curRdb16 | curRdb32 | curSkip => exact .some (readField_alike h _ _ _)
  | curWru | curWrs | curWrb8 | curWrb16 | curWrb32 => exact .some (writeField_alike h _ _ _)
  | curTell =>
    refine .some ?_
    rw [← h.cur_eq]
    exact .ite (fun _ => .error _ _) fun _ => .done h _
  | fxClear => exact .some (.done (h.withFx (FieldUnit.Alike.refl _)) _)
  | fxGet index =>
    refine .some ?_
    rw [← h.fx_alike.get_eq]
    exact .done h _
  | fxSet v index =>
    have hset := h.fx_alike.setBit hxfx hyfx index.toNat v
    refine .some (.ite (fun _ => .error _ _) fun _ => ?_)
    rw [← hset.1]
    exact .done (h.withFx hset) _
  | fxDeser => exact .some (deserialize_alike h)
  | fxSer => exact .some (serialize_alike h)
  | fxSize =>
    refine .some ?_
    rw [← h.fx_alike.1]
    exact .done h _
  | ckCompute kind start count =>
    refine .some ?_
    rw [← h.hb_eq]
    cases kindOfCode kind with
    | none => exact .error _ _
    | some ck => exact .ite (fun _ => .error _ _) fun _ => .done h _
  | ckFormat order kind value =>
    refine .some ?_
    cases kindOfCode kind with
    | none => exact .error _ _
    | some ck => exact .ite (fun _ => .error _ _) fun _ => .done h _
  | ckCheck kind rx start count =>
    refine .some ?_
    rw [← h.hb_eq]
    cases kindOfCode kind with
    | none => exact .error _ _
    | some ck => exact .ite (fun _ => .error _ _) fun _ => .ite (fun _ => .error _ _) fun _ => .done h _
  | fpPush b =>
    simp only [Instr.reply, hp, Option.bind_some]
    have hstep := parserStep_alike h.fp_alike hxfp hyfp b
    generalize parserStep c p x.fp b = o, parserStep c p y.fp b = o' at hstep ⊢
    cases hstep with
    | some hr =>
      simp only [Option.map_some, ← hr.response_eq]
      exact .some (.done (h.afterPush hr) _)
    | none => exact .none
  | fpReset =>
    simp only [Instr.reply, hp, Option.map_some, hxfp.reset_eq, hyfp.reset_eq]
    refine .some (.done ?_ _)
    exact ⟨h.cur_eq, h.hb_eq, h.fx_alike, ⟨rfl, rfl⟩, rfl, nofun⟩
  | fpWrap start count =>
    simp only [Instr.reply, hp, Option.map_some]
    exact .some (wrapReply_alike h start count p)
  | regAdd | regSeal | regLookup | regDispatch => exact .none

end Sys2Proof.Machine
end

section
/-! ### Alike states -/

namespace Sys2Proof.Machine

variable {s s' : State} {x y : Instance} {i : Instr}

theorem Registry.Alike.isSealed_eq {g g' : Registry} (h : g.Alike g') : g.isSealed = g'.isSealed := h.1
theorem Registry.Alike.n_eq {g g' : Registry} (h : g.Alike g') : g.n = g'.n := h.2.1

theorem Registry.Alike.find_eq {g g' : Registry} (h : g.Alike g') (p : Profile) (proto : BitVec 8) (id : List Byte) :
    g.find p proto id = g'.find p proto id := by
  obtain ⟨-, -, hused⟩ := h
  simp only [Registry.find, hused]

theorem Registry.Alike.seal {g g' : Registry} (h : g.Alike g') : g.seal.Alike g'.seal := by
  obtain ⟨-, hn, hused⟩ := h
  exact ⟨rfl, hn, hused⟩

theorem Registry.Alike.append {g g' : Registry} (h : g.Alike g') (hroom : g.n < g.entries.length)
    (hroom' : g'.n < g'.entries.length) (e : RegEntry) : (g.append e).Alike (g'.append e) := by
  obtain ⟨hsealed, hn, hused⟩ := h
  refine ⟨hsealed, congrArg (· + 1) hn, ?_⟩
  rw [Registry.used_append e hroom, Registry.used_append e hroom', hused]

theorem Instance.Alike.refl (x : Instance) : x.Alike x := ⟨rfl, rfl, ⟨rfl, rfl⟩, ⟨rfl, rfl⟩, rfl, fun _ => rfl⟩

theorem State.Alike.cfg_eq (h : s.Alike s') : s.cfg = s'.cfg := h.1
theorem State.Alike.inbox_eq (h : s.Alike s') : s.inbox = s'.inbox := h.2.1

theorem State.Alike.port_eq (h : s.Alike s') : s.port = s'.port := by
  obtain ⟨-, -, hport, -⟩ := h
  exact hport

theorem State.Alike.reg_alike (h : s.Alike s') : s.reg.Alike s'.reg := by
  obtain ⟨-, -, -, -, hreg, -⟩ := h
  exact hreg

theorem State.Alike.insts_length_eq (h : s.Alike s') : s.insts.length = s'.insts.length := by
  obtain ⟨-, -, -, -, -, hlength, -⟩ := h
  exact hlength

theorem State.Alike.refl (s : State) : s.Alike s := by
  refine ⟨rfl, rfl, rfl, rfl, ⟨rfl, rfl, rfl⟩, rfl, ?_⟩
  intro k x y hx hy
  obtain rfl := Option.some.inj (hx.symm.trans hy)
  exact Instance.Alike.refl x

theorem State.Alike.withInbox (h : s.Alike s') (rest : List HostInput) :
    ({ s with inbox := rest } : State).Alike { s' with inbox := rest } := by
  obtain ⟨hcfg, -, hport, hrsp, hreg, hinsts⟩ := h
  exact ⟨hcfg, rfl, hport, hrsp, hreg, hinsts⟩

theorem State.Alike.withPort (h : s.Alike s') (k : Nat) :
    ({ s with port := k } : State).Alike { s' with port := k } := by
  obtain ⟨hcfg, hinbox, -, hrsp, hreg, hinsts⟩ := h
  exact ⟨hcfg, hinbox, rfl, hrsp, hreg, hinsts⟩

theorem State.Alike.withRsp (h : s.Alike s') (r : Response) :
    ({ s with rsp := r } : State).Alike { s' with rsp := r } := by
  obtain ⟨hcfg, hinbox, hport, -, hreg, hinsts⟩ := h
  exact ⟨hcfg, hinbox, hport, rfl, hreg, hinsts⟩

theorem State.Alike.setReg (h : s.Alike s') {g g' : Registry} (hg : g.Alike g') :
    (s.setReg g).Alike (s'.setReg g') := by
  obtain ⟨hcfg, hinbox, hport, hrsp, -, hinsts⟩ := h
  exact ⟨hcfg, hinbox, hport, hrsp, hg, hinsts⟩

/-- The same `Instance` replaced by alike ones. -/
theorem State.Alike.set (h : s.Alike s') (hxy : x.Alike y) (k : Nat) :
    ({ s with insts := s.insts.set k x } : State).Alike { s' with insts := s'.insts.set k y } := by
  obtain ⟨hcfg, hinbox, hport, hrsp, hreg, hlength, hinsts⟩ := h
  refine ⟨hcfg, hinbox, hport, hrsp, hreg, by simpa using hlength, ?_⟩
  intro j a b ha hb
  by_cases hj : k = j
  · subst hj
    have hk : k < s.insts.length := by simpa using (List.getElem?_eq_some_iff.mp ha).1
    rw [List.getElem?_set_self hk] at ha
    rw [List.getElem?_set_self (hlength ▸ hk)] at hb
    cases ha; cases hb
    exact hxy
  · rw [List.getElem?_set_ne hj] at ha hb
    exact hinsts j a b ha hb

/-- Two alike states have `Instance`s on the same ports. -/
theorem State.Alike.exists_getElem? (h : s.Alike s') {k : Nat} (hx : s.insts[k]? = some x) :
    ∃ y, s'.insts[k]? = some y ∧ x.Alike y := by
  have hk : k < s'.insts.length := h.insts_length_eq ▸ (List.getElem?_eq_some_iff.mp hx).1
  obtain ⟨-, -, -, -, -, -, hinsts⟩ := h
  exact ⟨_, List.getElem?_eq_getElem hk, hinsts k x _ hx (List.getElem?_eq_getElem hk)⟩

/-- A hardware reset keeps of the `Instance`s their host buffers alone, which alike states share. -/
theorem State.Alike.hardReset_eq (h : s.Alike s') : s.hardReset = s'.hardReset := by
  have hhbs : s.insts.map (fun x => x.hb) = s'.insts.map (fun x => x.hb) := by
    refine List.ext_getElem? fun k => ?_
    rw [List.getElem?_map, List.getElem?_map]
    cases hx : s.insts[k]? with
    | none => rw [List.getElem?_eq_none (h.insts_length_eq ▸ List.getElem?_eq_none_iff.mp hx)]
    | some x =>
      obtain ⟨y, hy, hxy⟩ := h.exists_getElem? hx
      rw [hy]
      exact congrArg some hxy.hb_eq
  simp only [State.hardReset, h.cfg_eq, h.inbox_eq, hhbs]

/-! #### Commands -/

/-- Two outcomes that answer alike next states, or stop for the same reason. -/
inductive OutcomeAlike : Host.Outcome State Fault Refusal → Host.Outcome State Fault Refusal → Prop
  | next {t t' : State} (h : t.Alike t') : OutcomeAlike (.next t) (.next t')
  | fault (r : Fault) : OutcomeAlike (.fault r) (.fault r)
  | refused (r : Refusal) : OutcomeAlike (.refused r) (.refused r)

theorem OutcomeAlike.exists_next {o : Host.Outcome State Fault Refusal} {t : State} (h : OutcomeAlike (.next t) o) :
    ∃ t', o = .next t' ∧ t.Alike t' := by
  cases h with
  | next h => exact ⟨_, rfl, h⟩

theorem OutcomeAlike.ite {P : Prop} [Decidable P] {a b a' b' : Host.Outcome State Fault Refusal}
    (hpos : P → OutcomeAlike a a') (hneg : ¬P → OutcomeAlike b b') :
    OutcomeAlike (if P then a else b) (if P then a' else b') := by
  split
  · exact hpos ‹_›
  · exact hneg ‹_›

theorem State.Alike.respond (h : s.Alike s') (r : Response) : OutcomeAlike (s.respond r) (s'.respond r) :=
  .next (h.withRsp r)

theorem State.Alike.raise (h : s.Alike s') (e : Status) (info : DataWord) :
    OutcomeAlike (s.raise e info) (s'.raise e info) := h.respond _

theorem State.Alike.commit (h : s.Alike s') {q q' : Reply} (hq : q.Alike q') :
    OutcomeAlike (s.commit q) (s'.commit q') := by
  cases hq with
  | error e info => exact h.raise e info
  | done hxy r =>
    refine State.Alike.respond ?_ r
    simpa only [State.setInst, h.port_eq] using h.set hxy s.port

/-- A command outside REG.* answers alike states alike. -/
theorem exec_alike_of_not_isReg (hs : s.Inv) (hs' : s'.Inv) (h : s.Alike s') (hi : Instr.isReg i = false) :
    OutcomeAlike (exec i s) (exec i s') := by
  obtain ⟨x, hx⟩ := hs.exists_runs
  obtain ⟨p, hp, hw, hxp⟩ := hs.exists_profile hx
  obtain ⟨y, hy, hxy⟩ := h.exists_getElem? hx
  obtain ⟨p', hp', -, hyp⟩ := hs'.exists_profile hy
  rw [← h.cfg_eq] at hp' hyp
  obtain rfl := Option.some.inj (hp.symm.trans hp')
  have hy' : s'.Runs y := by rwa [State.Runs, ← h.port_eq]
  have hrel := reply_alike (i := i) hp hxy hxp hyp
  obtain ⟨q, hq⟩ := exists_reply hp hw hxp hi
  obtain ⟨q', hq'⟩ := exists_reply hp hw hyp hi
  rw [hq, hq'] at hrel
  rw [exec_of_reply hx hq, exec_of_reply hy' (by rwa [← h.cfg_eq, ← h.port_eq])]
  cases hrel with
  | some hqq => exact h.commit hqq

/-- REG.ADD looks for the key among the entries in use, and stores past them (44_registry_dispatch.md R263). -/
theorem execRegAdd_alike (hs : s.Inv) (hs' : s'.Inv) (h : s.Alike s') (proto handle : BitVec 8) (m : BitVec 4)
    (data : DataWord) : OutcomeAlike (execRegAdd proto handle m data s) (execRegAdd proto handle m data s') := by
  obtain ⟨hsealed, hn, -⟩ := h.reg_alike
  obtain ⟨hle, hlength, -⟩ := hs.registry
  obtain ⟨-, hlength', -⟩ := hs'.registry
  unfold execRegAdd
  rw [← h.cfg_eq, ← hsealed, ← hn]
  refine .ite (fun _ => h.raise _ _) fun _ => ?_
  cases s.cfg.profile? proto with
  | none => exact h.raise _ _
  | some p =>
    refine .ite (fun _ => h.raise _ _) fun _ => ?_
    rw [← h.reg_alike.find_eq]
    cases s.reg.find p proto (idOperand m data) with
    | some found => exact h.raise _ _
    | none =>
      refine .ite (fun _ => h.raise _ _) fun hfull => ?_
      have hroom : s.reg.n < s.reg.entries.length := by omega
      have hroom' : s'.reg.n < s'.reg.entries.length := by rw [hlength', ← h.cfg_eq, ← hn]; omega
      exact (h.setReg (h.reg_alike.append hroom hroom' _)).respond _

theorem execRegLookup_alike (h : s.Alike s') (proto : BitVec 8) (m : BitVec 4) (data : DataWord) :
    OutcomeAlike (execRegLookup proto m data s) (execRegLookup proto m data s') := by
  unfold execRegLookup
  rw [← h.cfg_eq, ← h.reg_alike.isSealed_eq]
  refine .ite (fun _ => h.raise _ _) fun _ => ?_
  cases s.cfg.profile? proto with
  | none => exact h.raise _ _
  | some p =>
    refine .ite (fun _ => h.raise _ _) fun _ => ?_
    rw [← h.reg_alike.find_eq]
    exact h.respond _

/-- REG.DISPATCH reads the held frame after it has checked `FO_VALID` (44_registry_dispatch.md R266). -/
theorem execRegDispatch_alike (hs : s.Inv) (h : s.Alike s') :
    OutcomeAlike (execRegDispatch s) (execRegDispatch s') := by
  obtain ⟨x, hx⟩ := hs.exists_runs
  obtain ⟨p, hp, -, -⟩ := hs.exists_profile hx
  obtain ⟨y, hy, hxy⟩ := h.exists_getElem? hx
  obtain ⟨hvalid, hframe⟩ := hxy.fo_alike
  have hp' : s'.cfg.instProfile? s'.port = some p := by rwa [← h.cfg_eq, ← h.port_eq]
  unfold execRegDispatch
  rw [State.withInst_of_some hx, State.withInst_of_some (h.port_eq ▸ hy), State.withProfile_of_some hp,
    State.withProfile_of_some hp', ← h.reg_alike.isSealed_eq, ← hvalid]
  refine .ite (fun _ => h.raise _ _) fun _ => .ite (fun _ => h.raise _ _) fun hv => ?_
  have hheld : x.fo.frame = y.fo.frame := hframe (by simpa using hv)
  simp only [dispatchResponse, ← h.cfg_eq, ← h.port_eq, ← hheld, ← h.reg_alike.find_eq]
  exact h.respond _

/-- Every command answers alike states alike. -/
theorem exec_alike (hs : s.Inv) (hs' : s'.Inv) (h : s.Alike s') (i : Instr) : OutcomeAlike (exec i s) (exec i s') := by
  cases hi : Instr.isReg i with
  | false => exact exec_alike_of_not_isReg hs hs' h hi
  | true =>
    cases i with
    | regAdd proto handle m data => exact execRegAdd_alike hs hs' h proto handle m data
    | regSeal =>
      simp only [exec, execRegSeal, ← h.reg_alike.n_eq]
      exact (h.setReg h.reg_alike.seal).respond _
    | regLookup proto m data => exact execRegLookup_alike h proto m data
    | regDispatch => exact execRegDispatch_alike hs h
    | _ => cases hi

theorem runCommand_alike (hs : s.Inv) (hs' : s'.Inv) (h : s.Alike s') (cmd : CmdWord) (data : DataWord) :
    OutcomeAlike (s.runCommand cmd data) (s'.runCommand cmd data) := by
  cases hd : decode cmd data with
  | ok i =>
    rw [State.runCommand_of_decode hd, State.runCommand_of_decode hd]
    exact exec_alike hs hs' h i
  | error e =>
    rw [State.runCommand_of_illegal hd, State.runCommand_of_illegal hd]
    exact h.raise _ _

/-- A host write of the same byte. -/
theorem hostWrite_alike (h : s.Alike s') {k a : Nat} {b : Byte} {t : State} (hwrite : s.hostWrite k a b = .next t) :
    ∃ t', s'.hostWrite k a b = .next t' ∧ t.Alike t' := by
  obtain ⟨x, hx, ha, rfl⟩ := State.hostWrite_next hwrite
  obtain ⟨y, hy, hxy⟩ := h.exists_getElem? hx
  refine ⟨_, ?_, h.set (hxy.withHb _) k⟩
  rw [h.cfg_eq] at ha
  simp only [State.hostWrite, hy, if_pos ha, hxy.hb_eq]

/-- Settles O60: the relation is kept by each of the inputs a step can take. -/
theorem unreadStorageIsNeverSeen : Obligations.UnreadStorageIsNeverSeen := by
  intro s s' t hs hs' h hstep
  rcases step_next_cases hstep with ⟨hin, rfl⟩ | ⟨k, cmd, data, rest, hin, hk, hrun⟩ |
    ⟨k, a, b, rest, hin, hwrite⟩ | ⟨rest, hin, rfl⟩ <;> rw [h.inbox_eq] at hin
  · exact ⟨s', step_of_nil hin, h⟩
  · have hk' : k < s'.insts.length := h.insts_length_eq ▸ hk
    have hout := runCommand_alike (hs.received rest hk s.rsp) (hs'.received rest hk' s'.rsp)
      ((h.withInbox rest).withPort k) cmd data
    rw [hrun] at hout
    rw [step_of_command hin hk']
    exact hout.exists_next
  · rw [step_of_writeByte hin]
    exact hostWrite_alike (h.withInbox rest) hwrite
  · refine ⟨_, step_of_hardReset hin, ?_⟩
    rw [(h.withInbox rest).hardReset_eq]
    exact State.Alike.refl _

end Sys2Proof.Machine
end

/-! ## Host buffers

What reaches a host buffer from outside, what a byte-aligned access moves, and that no command sees another port's buffer
or registers (20_memory.md R60, R63, R73). -/

section
/-! ### Host writes and inputs that name no port -/

namespace Sys2Proof.Machine

theorem step_of_command_noPort {s : State} {k : Nat} {cmd : CmdWord} {data : DataWord} {rest : List HostInput}
    (h : s.inbox = .command k cmd data :: rest) (hk : s.insts.length ≤ k) : step s = .fault (.noSuchPort k) := by
  simp [step, h, Nat.not_lt.mpr hk]

theorem State.hostWrite_of_lt {s : State} {k a : Nat} {x : Instance} (hx : s.insts[k]? = some x)
    (ha : a < s.cfg.hbCap) (b : Byte) :
    s.hostWrite k a b = .next { s with insts := s.insts.set k { x with hb := x.hb.write a b } } := by
  simp only [State.hostWrite, hx, if_pos ha]

theorem State.hostWrite_of_not_lt {s : State} {k a : Nat} {x : Instance} (hx : s.insts[k]? = some x)
    (ha : ¬ a < s.cfg.hbCap) (b : Byte) : s.hostWrite k a b = .fault (.hostAddress a) := by
  simp only [State.hostWrite, hx, if_neg ha]

theorem State.hostWrite_noPort {s : State} {k : Nat} (hk : s.insts.length ≤ k) (a : Nat) (b : Byte) :
    s.hostWrite k a b = .fault (.noSuchPort k) := by
  simp only [State.hostWrite, List.getElem?_eq_none hk]

/-- Settles O7: a host write inside `HB` is one `Memory.write` to the host buffer of its port. -/
theorem hostInputsAreTaken : Obligations.HostInputsAreTaken := by
  refine ⟨fun s => step_of_nil, ?_, ?_, ?_⟩
  · intro s k a b rest x hin hx hwf
    rw [step_of_writeByte hin]
    split
    case isTrue ha =>
      exact ⟨x.hb.write a b, State.hostWrite_of_lt (s := { s with inbox := rest }) hx ha b, Memory.write_wf hwf a b,
        Memory.read_write_self hwf a b, fun a' hne => Memory.read_write_ne x.hb b hne⟩
    case isFalse ha => exact State.hostWrite_of_not_lt (s := { s with inbox := rest }) hx ha b
  · intro s k a b rest hin hk
    rw [step_of_writeByte hin]
    exact State.hostWrite_noPort (s := { s with inbox := rest }) hk a b
  · intro s k cmd data rest hin hk
    exact step_of_command_noPort hin hk

end Sys2Proof.Machine
end

section
/-! ### Byte-aligned fields

At a byte-aligned offset a bit field of `8n` bits is `n` whole bytes, most significant first (20_memory.md R63). -/

namespace Sys2Proof.Machine

/-- `MemRead` of one byte more ends with that byte. -/
theorem Memory.readBytes_add_one (m : Memory) (a n : Nat) : m.readBytes a (n + 1) = m.readBytes a n ++ [m.read (a + n)] := by
  induction n generalizing a with
  | zero => rfl
  | succ n ih =>
    rw [Memory.readBytes, ih, Memory.readBytes, List.cons_append, Nat.add_assoc a 1 n, Nat.add_comm 1 n]

/-- A byte-aligned field read is the big-endian value of its bytes (40_bitcursor.md R121 to R123). -/
theorem Memory.getBits_bytes (m : Memory) (a n : Nat) : m.getBits (8 * a) (8 * n) = beValue (m.readBytes a n) := by
  induction n with
  | zero => rfl
  | succ n ih =>
    rw [Nat.mul_succ, Memory.getBits_add, ih, ← Nat.mul_add, Memory.getBits_byte, Memory.readBytes_add_one,
      beValue_append_singleton]
    rfl

/-- Bit `j` of byte `k` of `be_bytes(v, n)` (43_frame_parser.md R227): the last byte holds the low eight bits of `v`. -/
theorem getLsbD_getD_beBytes (v n k j : Nat) (hk : k < n) (hj : j < 8) :
    ((beBytes v n).getD k 0).getLsbD j = v.testBit (8 * (n - 1 - k) + j) := by
  induction n generalizing v with
  | zero => omega
  | succ n ih =>
    rw [beBytes]
    by_cases hkn : k < n
    · rw [List.getD_append _ _ _ _ (by simpa using hkn), ih _ hkn, show (256 : Nat) = 2 ^ 8 from rfl,
        Nat.testBit_div_two_pow]
      exact congrArg v.testBit (by omega)
    · obtain rfl : k = n := by omega
      rw [List.getD_append_right _ _ _ _ (by simp)]
      simp only [beBytes_length, Nat.sub_self, List.getD_cons_zero, BitVec.getLsbD_ofNat, hj, decide_true, Bool.true_and,
        Nat.add_sub_cancel, Nat.mul_zero, Nat.zero_add]

/-- A byte-aligned field written is its bytes written, most significant first (40_bitcursor.md R124 to R126). -/
theorem Memory.putBits_bytes {m : Memory} (h : m.wf) (a n u : Nat) :
    m.putBits (8 * a) (8 * n) (u % 2 ^ (8 * n)) = m.writeBytes a (beBytes u n) := by
  refine Memory.ext_read (Memory.putBits_wf h _ _ _) (Memory.writeBytes_wf h _ _) fun b => ?_
  rw [Memory.read_writeBytes h, beBytes_length]
  by_cases hb : a ≤ b ∧ b < a + n
  · rw [if_pos hb]
    refine BitVec.eq_of_getLsbD_eq fun j hj => ?_
    rw [Memory.getLsbD_read _ _ _ hj, Memory.bitAt_putBits h, if_pos (by omega),
      getLsbD_getD_beBytes _ _ _ _ (by omega) hj, Nat.testBit_mod_two_pow,
      show 8 * n - 1 - (8 * b + (7 - j) - 8 * a) = 8 * (n - 1 - (b - a)) + j by omega]
    simp only [show 8 * (n - 1 - (b - a)) + j < 8 * n by omega, decide_true, Bool.true_and]
  · rw [if_neg hb, Memory.read_putBits _ _ _ _ (by omega)]

variable {s : State} {x : Instance} {i : Instr} {a : Nat}

/-- A read of `n` bytes at a byte-aligned offset with room in the view. -/
theorem exec_read_bytes (n : Nat) (hx : s.Runs x) (hopen : x.cur.isOpen = true) (hoff : x.cur.off = 8 * a)
    (hi : exec i s = s.runInst (readField (8 * n) false zext64)) (hroom : a + n ≤ x.cur.len) :
    exec i s = .next (s.after (x.atOffset (8 * a + 8 * n)) (Response.ok (zext64 (beValue (x.hb.readBytes a n))))) := by
  have hok : accessError x.cur (8 * n) false false = none := accessError_eq_none.mpr ⟨hopen, by simp, by simp, by omega⟩
  rw [hi, ← Memory.getBits_bytes, ← hoff]
  exact State.runInst_done hx (by simp only [readField, hok]; rfl)

/-- A write of `n` bytes at a byte-aligned offset with room in a mutable view. -/
theorem exec_write_bytes (n : Nat) {u : Nat} (hx : s.Runs x) (hwf : x.hb.wf) (hopen : x.cur.isOpen = true)
    (hmode : x.cur.mode = .rw) (hoff : x.cur.off = 8 * a) (hi : exec i s = s.runInst (writeField (8 * n) false u))
    (hroom : a + n ≤ x.cur.len) :
    exec i s = .next (s.after { x.atOffset (8 * a + 8 * n) with hb := x.hb.writeBytes a (beBytes u n) } (Response.ok 0)) := by
  have hok : accessError x.cur (8 * n) true false = none :=
    accessError_eq_none.mpr ⟨hopen, by simp, fun _ => hmode, by omega⟩
  rw [hi, ← Memory.putBits_bytes hwf, ← hoff]
  exact State.runInst_done hx (by simp only [writeField, hok]; rfl)

theorem beValue_four (b0 b1 b2 b3 : Byte) :
    beValue [b0, b1, b2, b3] = b0.toNat * 2 ^ 24 + b1.toNat * 2 ^ 16 + b2.toNat * 2 ^ 8 + b3.toNat := by
  simp only [beValue, List.foldl_cons, List.foldl_nil]
  omega

/-- Settles O13: the helpers are reads and writes of 1, 2 and 4 bytes. -/
theorem byteAlignedHelpersMoveBytes : Obligations.ByteAlignedHelpersMoveBytes := by
  intro s x a hx hwf hopen hoff
  refine ⟨fun hroom => ?_, fun hroom => ?_, fun hroom => ?_, fun hmode v => ?_⟩
  · simpa [Memory.readBytes, beValue] using exec_read_bytes (i := .curRdb8) 1 hx hopen hoff rfl hroom
  · simpa [Memory.readBytes, beValue] using exec_read_bytes (i := .curRdb16) 2 hx hopen hoff rfl hroom
  · simpa [Memory.readBytes, beValue_four] using exec_read_bytes (i := .curRdb32) 4 hx hopen hoff rfl hroom
  · refine ⟨fun hroom => ?_, fun hroom => ?_, fun hroom => ?_⟩
    · exact exec_write_bytes 1 hx hwf hopen hmode hoff rfl hroom
    · exact exec_write_bytes 2 hx hwf hopen hmode hoff rfl hroom
    · simpa [beBytes, Nat.div_div_eq_div_mul] using
        exec_write_bytes (i := .curWrb32 v) 4 hx hwf hopen hmode hoff rfl hroom

end Sys2Proof.Machine
end

section
/-! ### Isolation

A command reads the parameters, the registry and the issuing `Instance`, and writes at most the last two and the response. -/

namespace Sys2Proof.Machine

variable {s s' : State} {i : Instr}

/-- Two states that agree on all a command reads: the parameters, the port in use, the registry and the issuing `Instance`
(20_memory.md R73, 60_exceptions.md R312). -/
structure State.AgreesOnPort (s s' : State) : Prop where
  cfg_eq : s.cfg = s'.cfg
  port_eq : s.port = s'.port
  reg_eq : s.reg = s'.reg
  inst_eq : s.insts[s.port]? = s'.insts[s'.port]?

theorem State.AgreesOnPort.runs {x : Instance} (h : s.AgreesOnPort s') (hx : s.Runs x) : s'.Runs x :=
  h.inst_eq.symm.trans hx

/-- Whether or not there is an `Instance` on the port in use, agreeing states agree after it is replaced. -/
theorem State.AgreesOnPort.setInst (h : s.AgreesOnPort s') (y : Instance) : (s.setInst y).AgreesOnPort (s'.setInst y) where
  cfg_eq := h.cfg_eq
  port_eq := h.port_eq
  reg_eq := h.reg_eq
  inst_eq := by
    simp only [State.setInst_insts, State.setInst_port, List.getElem?_set_self', h.inst_eq]

theorem State.AgreesOnPort.setReg (h : s.AgreesOnPort s') (g : Registry) : (s.setReg g).AgreesOnPort (s'.setReg g) where
  cfg_eq := h.cfg_eq
  port_eq := h.port_eq
  reg_eq := rfl
  inst_eq := h.inst_eq

theorem State.AgreesOnPort.withRsp (h : s.AgreesOnPort s') (r : Response) :
    ({ s with rsp := r } : State).AgreesOnPort { s' with rsp := r } :=
  ⟨h.cfg_eq, h.port_eq, h.reg_eq, h.inst_eq⟩

/-- Both outcomes answer, with the same response, and their next states agree. -/
inductive AnswersAgree : Host.Outcome State Fault Refusal → Host.Outcome State Fault Refusal → Prop
  | next {t t' : State} (agree : t.AgreesOnPort t') (rsp_eq : t'.rsp = t.rsp) : AnswersAgree (.next t) (.next t')

theorem AnswersAgree.exists_next {t : State} {o : Host.Outcome State Fault Refusal} (h : AnswersAgree (.next t) o) :
    ∃ t', o = .next t' ∧ t.AgreesOnPort t' ∧ t'.rsp = t.rsp := by
  cases h with
  | next agree rsp_eq => exact ⟨_, rfl, agree, rsp_eq⟩

theorem AnswersAgree.ite {P : Prop} [Decidable P] {a b a' b' : Host.Outcome State Fault Refusal}
    (hpos : AnswersAgree a a') (hneg : AnswersAgree b b') :
    AnswersAgree (if P then a else b) (if P then a' else b') := by
  split
  · exact hpos
  · exact hneg

theorem State.AgreesOnPort.respond (h : s.AgreesOnPort s') (r : Response) : AnswersAgree (s.respond r) (s'.respond r) :=
  .next (h.withRsp r) rfl

theorem State.AgreesOnPort.raise (h : s.AgreesOnPort s') (e : Status) (info : DataWord) :
    AnswersAgree (s.raise e info) (s'.raise e info) := h.respond _

theorem State.AgreesOnPort.commit (h : s.AgreesOnPort s') (q : Reply) : AnswersAgree (s.commit q) (s'.commit q) := by
  cases q with
  | done y r => exact (h.setInst y).respond r
  | error e info => exact h.raise e info

/-- A command outside REG.* carries out the reply of the `Instance` on which the two states agree. -/
theorem exec_answersAgree_of_not_isReg (hs : s.Inv) (h : s.AgreesOnPort s') (hi : Instr.isReg i = false) :
    AnswersAgree (exec i s) (exec i s') := by
  obtain ⟨x, hx⟩ := hs.exists_runs
  obtain ⟨p, hp, hw, hxp⟩ := hs.exists_profile hx
  obtain ⟨q, hq⟩ := exists_reply hp hw hxp hi
  rw [exec_of_reply hx hq, exec_of_reply (h.runs hx) (by rwa [← h.cfg_eq, ← h.port_eq])]
  exact h.commit q

/-- A command of the registry unit reads the parameters, the registry and the frame the issuing `Instance` holds. -/
theorem exec_answersAgree_of_isReg (hs : s.Inv) (h : s.AgreesOnPort s') (hi : Instr.isReg i = true) :
    AnswersAgree (exec i s) (exec i s') := by
  cases i with
  | regAdd proto handle m data =>
    simp only [exec, execRegAdd, ← h.cfg_eq, ← h.reg_eq]
    refine .ite (h.raise _ _) ?_
    cases s.cfg.profile? proto with
    | none => exact h.raise _ _
    | some p =>
      refine .ite (h.raise _ _) ?_
      cases s.reg.find p proto (idOperand m data) with
      | some found => exact h.raise _ _
      | none => exact .ite (h.raise _ _) ((h.setReg _).respond _)
  | regSeal =>
    simp only [exec, execRegSeal, ← h.reg_eq]
    exact (h.setReg _).respond _
  | regLookup proto m data =>
    simp only [exec, execRegLookup, ← h.cfg_eq, ← h.reg_eq]
    refine .ite (h.raise _ _) ?_
    cases s.cfg.profile? proto with
    | none => exact h.raise _ _
    | some p => exact .ite (h.raise _ _) (h.respond _)
  | regDispatch =>
    obtain ⟨x, hx⟩ := hs.exists_runs
    obtain ⟨p, hp, -, -⟩ := hs.exists_profile hx
    have hp' : s'.cfg.instProfile? s'.port = some p := by rwa [← h.cfg_eq, ← h.port_eq]
    simp only [exec, execRegDispatch, State.withInst_of_some hx, State.withInst_of_some (h.runs hx),
      State.withProfile_of_some hp, State.withProfile_of_some hp', ← h.cfg_eq, ← h.port_eq, ← h.reg_eq]
    exact .ite (h.raise _ _) (.ite (h.raise _ _) (h.respond _))
  | _ => cases hi

/-- Settles O59: states that agree on the port in use answer a command of either kind, REG.* or not, alike. -/
theorem instancesDoNotInterfere : Obligations.InstancesDoNotInterfere := by
  intro i s s' t hcfg hport hreg hinst hs _ hexec
  have h : s.AgreesOnPort s' := ⟨hcfg, hport, hreg, hinst⟩
  have hans : AnswersAgree (exec i s) (exec i s') := by
    cases hi : Instr.isReg i with
    | false => exact exec_answersAgree_of_not_isReg hs h hi
    | true => exact exec_answersAgree_of_isReg hs h hi
  rw [hexec] at hans
  obtain ⟨t', hexec', agree, rsp_eq⟩ := hans.exists_next
  exact ⟨t', hexec', rsp_eq, agree.reg_eq.symm, agree.inst_eq.symm⟩

end Sys2Proof.Machine
end

/-! ## The encoding

The encoder and the decoder follow the same opcode map (30_encoding.md R82 to R90): the operands a row packs into a field
are read back from it, and a word is accepted exactly where the row of its opcode matches. -/

section
/-! ### Packed fields

Where R87 packs several operands or reserved bits into `W` or `IMM`: what the decoder reads from the encoder's field, and
the field the encoder makes of what the decoder read. -/

namespace Sys2Proof

/-- Each of three neighbouring fields is read back from where it stands. -/
theorem extractLsb'_three_fields {a b c : Nat} (x : BitVec a) (y : BitVec b) (z : BitVec c) :
    (x ++ y ++ z).extractLsb' (c + b) a = x ∧ (x ++ y ++ z).extractLsb' c b = y ∧ (x ++ y ++ z).extractLsb' 0 c = z := by
  refine ⟨?_, ?_, BitVec.extractLsb'_append_eq_right⟩
  · rw [BitVec.extractLsb'_append_eq_of_le (Nat.le_add_right c b), Nat.add_sub_cancel_left,
      BitVec.extractLsb'_append_eq_left]
  · rw [BitVec.extractLsb'_append_eq_of_le (Nat.le_refl c), Nat.sub_self, BitVec.extractLsb'_append_eq_right]

/-- A word is three neighbouring fields of it, one after another. -/
theorem append_three_fields {a b c : Nat} {x : BitVec (a + b + c)} :
    x.extractLsb' (c + b) a ++ x.extractLsb' c b ++ x.extractLsb' 0 c = x := by
  rw [BitVec.extractLsb'_append_extractLsb'_eq_extractLsb' rfl, BitVec.extractLsb'_append_extractLsb']

/-- A word whose upper bits are 0 is zeros before its lower bits. -/
theorem zero_append_extractLsb' {m len : Nat} {x : BitVec (m + len)} (h : x.extractLsb' len m = 0#m) :
    0#m ++ x.extractLsb' 0 len = x := by
  rw [← h, BitVec.extractLsb'_append_extractLsb']

theorem bit_eq_zero_or_one (b : BitVec 1) : b = 0#1 ∨ b = 1#1 := by revert b; decide

theorem ofBool_beq_one (b : BitVec 1) : BitVec.ofBool (b == 1) = b := by revert b; decide

theorem beq_one_ofBool (v : Bool) : (BitVec.ofBool v == 1#1) = v := by revert v; decide

variable {w : BitVec 8} {imm : BitVec 16}

/-! #### CUR.OPEN -/

theorem openField_reserved (mode : ViewMode) (src : ViewSource) : (openField mode src).extractLsb' 2 6 = 0 := by
  cases mode <;> cases src <;> simp only [openField] <;> rfl

theorem modeOfBit_openField (mode : ViewMode) (src : ViewSource) :
    modeOfBit ((openField mode src).extractLsb' 0 1) = mode := by
  cases mode <;> cases src <;> simp only [openField] <;> rfl

theorem sourceOfBit_openField (mode : ViewMode) (src : ViewSource) :
    sourceOfBit ((openField mode src).extractLsb' 1 1) (encodeData (.curOpen mode src)) = src := by
  cases src with
  | hostBuffer len =>
    have bit : (openField mode (.hostBuffer len)).extractLsb' 1 1 = 0 := by
      cases mode <;> simp only [openField] <;> rfl
    simp [bit, sourceOfBit, encodeData, mkData_lo]
  | frameOutput => cases mode <;> rfl

theorem openField_of_bits (hw : w.extractLsb' 2 6 = 0#6) (data : DataWord) :
    openField (modeOfBit (w.extractLsb' 0 1)) (sourceOfBit (w.extractLsb' 1 1) data) = w := by
  have bits (src mode : BitVec 1) :
      openField (modeOfBit mode) (sourceOfBit src data) = (0#6 ++ src ++ mode : BitVec (6 + 1 + 1)) := by
    rcases bit_eq_zero_or_one src with rfl | rfl <;> rcases bit_eq_zero_or_one mode with rfl | rfl <;> rfl
  rw [bits, ← hw]
  exact append_three_fields (a := 6) (b := 1) (c := 1)

/-! #### FX.SET -/

theorem valueField_bits (v : Bool) : BitVec.extractLsb' (n := 8) 1 7 (0#7 ++ BitVec.ofBool v) = 0 ∧
    BitVec.extractLsb' (n := 8) 0 1 (0#7 ++ BitVec.ofBool v) = BitVec.ofBool v :=
  ⟨BitVec.extractLsb'_append_eq_left, BitVec.extractLsb'_append_eq_right⟩

theorem valueField_of_bits (hw : w.extractLsb' 1 7 = 0#7) :
    (0#7 ++ BitVec.ofBool (w.extractLsb' 0 1 == 1) : BitVec (7 + 1)) = w :=
  (congrArg (0#7 ++ ·) (ofBool_beq_one _)).trans (zero_append_extractLsb' hw)

/-! #### CK.COMPUTE, CK.FORMAT and CK.CHECK -/

theorem kindField_bits (kind : BitVec 4) : BitVec.extractLsb' (n := 8) 4 4 (0#4 ++ kind) = 0 ∧
    BitVec.extractLsb' (n := 8) 0 4 (0#4 ++ kind) = kind :=
  ⟨BitVec.extractLsb'_append_eq_left, BitVec.extractLsb'_append_eq_right⟩

theorem kindField_of_bits (hw : w.extractLsb' 4 4 = 0#4) : (0#4 ++ w.extractLsb' 0 4 : BitVec (4 + 4)) = w :=
  zero_append_extractLsb' hw

theorem formatField_bits (order : Bool) (kind : BitVec 4) :
    BitVec.extractLsb' (n := 8) 5 3 (0#3 ++ BitVec.ofBool order ++ kind) = 0 ∧
    BitVec.extractLsb' (n := 8) 4 1 (0#3 ++ BitVec.ofBool order ++ kind) = BitVec.ofBool order ∧
    BitVec.extractLsb' (n := 8) 0 4 (0#3 ++ BitVec.ofBool order ++ kind) = kind :=
  extractLsb'_three_fields 0#3 (BitVec.ofBool order) kind

theorem formatField_of_bits (hw : w.extractLsb' 5 3 = 0#3) :
    (0#3 ++ BitVec.ofBool (w.extractLsb' 4 1 == 1) ++ w.extractLsb' 0 4 : BitVec (3 + 1 + 4)) = w := by
  rw [← hw, ofBool_beq_one]
  exact append_three_fields (a := 3) (b := 1) (c := 4)

/-! #### FP.PUSH -/

theorem byteField_bits (b : Byte) : BitVec.extractLsb' (n := 16) 8 8 (0#8 ++ b) = 0 ∧
    BitVec.extractLsb' (n := 16) 0 8 (0#8 ++ b) = b :=
  ⟨BitVec.extractLsb'_append_eq_left, BitVec.extractLsb'_append_eq_right⟩

theorem byteField_of_bits (himm : imm.extractLsb' 8 8 = 0#8) : (0#8 ++ imm.extractLsb' 0 8 : BitVec (8 + 8)) = imm :=
  zero_append_extractLsb' himm

/-! #### REG.ADD and REG.LOOKUP -/

theorem addField_bits (handle : BitVec 8) (m : BitVec 4) :
    BitVec.extractLsb' (n := 16) 8 8 (handle ++ 0#4 ++ m) = handle ∧
    BitVec.extractLsb' (n := 16) 4 4 (handle ++ 0#4 ++ m) = 0 ∧
    BitVec.extractLsb' (n := 16) 0 4 (handle ++ 0#4 ++ m) = m :=
  extractLsb'_three_fields handle 0#4 m

theorem addField_of_bits (himm : imm.extractLsb' 4 4 = 0#4) :
    (imm.extractLsb' 8 8 ++ 0#4 ++ imm.extractLsb' 0 4 : BitVec (8 + 4 + 4)) = imm := by
  rw [← himm]
  exact append_three_fields (a := 8) (b := 4) (c := 4)

theorem lookupField_bits (m : BitVec 4) : BitVec.extractLsb' (n := 16) 4 12 (0#12 ++ m) = 0 ∧
    BitVec.extractLsb' (n := 16) 0 4 (0#12 ++ m) = m :=
  ⟨BitVec.extractLsb'_append_eq_left, BitVec.extractLsb'_append_eq_right⟩

theorem lookupField_of_bits (himm : imm.extractLsb' 4 12 = 0#12) :
    (0#12 ++ imm.extractLsb' 0 4 : BitVec (12 + 4)) = imm :=
  zero_append_extractLsb' himm

/-! ### Decoding an encoded command -/

/-- The decoder reads the instruction back: its opcode selects the row, its reserved bits are 0, and each operand is read
from where the encoder put it. The rows of the last case give each operand a whole field. -/
theorem decode_encode (i : Instr) : decode (encodeCmd i) (encodeData i) = .ok i := by
  cases i with
  | curOpen mode src =>
    simp [decode, encodeCmd, whenZero, openField_reserved, modeOfBit_openField, sourceOfBit_openField]
  | fxSet v index => simp [decode, encodeCmd, whenZero, valueField_bits, beq_one_ofBool]
  | ckCompute | ckCheck => simp [decode, encodeCmd, encodeData, whenZero, kindField_bits, mkData_lo, mkData_hi]
  | ckFormat order kind v =>
    have value : (v.setWidth 64).extractLsb' 0 16 = v :=
      (BitVec.extractLsb'_setWidth_of_le (by decide)).trans BitVec.extractLsb'_eq_self
    simp [decode, encodeCmd, encodeData, whenZero, formatField_bits, beq_one_ofBool, value]
  | fpPush b => simp [decode, encodeCmd, whenZero, byteField_bits]
  | regAdd proto handle m data => simp [decode, encodeCmd, encodeData, whenZero, addField_bits]
  | regLookup proto m data => simp [decode, encodeCmd, encodeData, whenZero, lookupField_bits]
  | _ => simp [decode, encodeCmd, encodeData, whenZero, mkData_lo]

/-- Settles O1: the decoder reads each operand back from its field. -/
theorem decodeOfEncode : Obligations.DecodeOfEncode := decode_encode

theorem decode_of_encode_eq {i : Instr} {cmd : CmdWord} {data : DataWord} (h : encode i = (cmd, data)) :
    decode cmd data = .ok i := by
  obtain ⟨rfl, rfl⟩ := Prod.mk.inj h
  exact decode_encode i

/-- Settles O5: each sample word is the encoding of the command it stands for. -/
theorem sampleWordsDecode : Obligations.SampleWordsDecode := by
  refine ⟨?_, ?_, ?_, ?_, ?_, ?_, ?_, ?_, ?_, ?_, ?_, ?_⟩ <;> exact decode_of_encode_eq (by decide)

end Sys2Proof
end

section
/-! ### The rows of the opcode table

The opcode of a word decides which row can match it (30_encoding.md R87, R90). -/

namespace Sys2Proof

/-- The assigned opcodes, in the order of R87. -/
theorem opcodes_eq : opcodeTable.map (fun row => opcOf row.1) =
    [0x00, 0x10, 0x11, 0x12, 0x13, 0x14, 0x15, 0x16, 0x17, 0x18, 0x19, 0x1A, 0x1B, 0x1C, 0x1D,
     0x20, 0x21, 0x22, 0x23, 0x24, 0x25, 0x30, 0x31, 0x32, 0x40, 0x41, 0x42, 0x50, 0x51, 0x52, 0x53] := rfl

theorem opcodes_nodup : (opcodeTable.map (fun row => opcOf row.1)).Nodup := by decide

/-- Every row compares the whole opcode. -/
theorem opcOf_mask : ∀ row ∈ opcodeTable, opcOf row.2 = BitVec.allOnes 8 :=
  List.forall_iff_forall_mem.mp (by decide)

/-- A row matches words of its own opcode alone. -/
theorem opcOf_of_row {cmd : CmdWord} {row : CmdWord × CmdWord} (hrow : row ∈ opcodeTable) (h : cmd &&& row.2 = row.1) :
    opcOf cmd = opcOf row.1 := by
  have hand : opcOf (cmd &&& row.2) = opcOf cmd &&& opcOf row.2 := BitVec.extractLsb'_and
  rw [← h, hand, opcOf_mask row hrow, BitVec.and_allOnes]

theorem inOpcodeTable_iff {cmd : CmdWord} : inOpcodeTable cmd = true ↔ ∃ row ∈ opcodeTable, cmd &&& row.2 = row.1 := by
  simp [inOpcodeTable]

theorem opcOf_mem_of_inOpcodeTable {cmd : CmdWord} (h : inOpcodeTable cmd = true) :
    opcOf cmd ∈ opcodeTable.map (fun row => opcOf row.1) := by
  obtain ⟨row, hrow, hmatch⟩ := inOpcodeTable_iff.mp h
  exact List.mem_map.mpr ⟨row, hrow, (opcOf_of_row hrow hmatch).symm⟩

/-- A word matches the table exactly where it matches the row of its own opcode. -/
theorem inOpcodeTable_iff_row {cmd : CmdWord} {row : CmdWord × CmdWord} (hrow : row ∈ opcodeTable)
    (hopc : opcOf cmd = opcOf row.1) : inOpcodeTable cmd = true ↔ cmd &&& row.2 = row.1 := by
  refine inOpcodeTable_iff.trans ⟨?_, fun h => ⟨row, hrow, h⟩⟩
  rintro ⟨row', hrow', h⟩
  obtain rfl : row' = row :=
    List.inj_on_of_nodup_map opcodes_nodup hrow' hrow ((opcOf_of_row hrow' h).symm.trans hopc)
  exact h

/-- The same field by field, where `mw` and `mi` mask the reserved bits of `W` and `IMM` in the row of opcode `o`. -/
theorem inOpcodeTable_mkCmd {o w mw : BitVec 8} {imm mi : BitVec 16}
    (hrow : (mkCmd o 0 0, mkCmd 0xFF mw mi) ∈ opcodeTable) :
    inOpcodeTable (mkCmd o w imm) = true ↔ w &&& mw = 0 ∧ imm &&& mi = 0 := by
  have hopc : o &&& 0xFF = o := BitVec.and_allOnes
  rw [inOpcodeTable_iff_row hrow (by simp), mkCmd_and, mkCmd_inj]
  exact and_iff_right hopc

theorem inOpcodeTable_encodeCmd : ∀ i : Instr, inOpcodeTable (encodeCmd i) = true
  | .nop => Laws.TableRow.nop
  | .curOpen mode src => Laws.TableRow.curOpen mode src
  | .curClose => Laws.TableRow.curClose
  | .curRdu w => Laws.TableRow.curRdu w
  | .curRds w => Laws.TableRow.curRds w
  | .curWru w value => Laws.TableRow.curWru w value
  | .curWrs w value => Laws.TableRow.curWrs w value
  | .curRdb8 => Laws.TableRow.curRdb8
  | .curRdb16 => Laws.TableRow.curRdb16
  | .curRdb32 => Laws.TableRow.curRdb32
  | .curWrb8 value => Laws.TableRow.curWrb8 value
  | .curWrb16 value => Laws.TableRow.curWrb16 value
  | .curWrb32 value => Laws.TableRow.curWrb32 value
  | .curSkip bits => Laws.TableRow.curSkip bits
  | .curTell => Laws.TableRow.curTell
  | .fxClear => Laws.TableRow.fxClear
  | .fxGet index => Laws.TableRow.fxGet index
  | .fxSet v index => Laws.TableRow.fxSet v index
  | .fxDeser => Laws.TableRow.fxDeser
  | .fxSer => Laws.TableRow.fxSer
  | .fxSize => Laws.TableRow.fxSize
  | .ckCompute kind start count => Laws.TableRow.ckCompute kind start count
  | .ckFormat order kind value => Laws.TableRow.ckFormat order kind value
  | .ckCheck kind rx start count => Laws.TableRow.ckCheck kind rx start count
  | .fpPush b => Laws.TableRow.fpPush b
  | .fpReset => Laws.TableRow.fpReset
  | .fpWrap start count => Laws.TableRow.fpWrap start count
  | .regAdd proto handle m data => Laws.TableRow.regAdd proto handle m data
  | .regSeal => Laws.TableRow.regSeal
  | .regLookup proto m data => Laws.TableRow.regLookup proto m data
  | .regDispatch => Laws.TableRow.regDispatch

end Sys2Proof
end

section
/-! ### Acceptance

Each line of the decoder against the row of its opcode, one lemma for each shape of row. -/

namespace Sys2Proof

/-- What the decoder answers for a word agrees with the encoder and the table: an instruction whose command word it is, or
the rejection of a word in no row (30_encoding.md R90). -/
def DecodeAgrees (cmd : CmdWord) : Except Illegal Instr → Prop
  | .ok i => encodeCmd i = cmd
  | .error _ => inOpcodeTable cmd = false

/-- A word whose bits under a mask are 0 is 0 in every field the mask covers. -/
theorem extractLsb'_eq_zero_of_and {n start len : Nat} {x mask : BitVec n} (h : x &&& mask = 0#n)
    (hmask : mask.extractLsb' start len = BitVec.allOnes len) : x.extractLsb' start len = 0#len := by
  rw [← BitVec.and_allOnes (x := x.extractLsb' start len), ← hmask, ← BitVec.extractLsb'_and, h]
  exact BitVec.extractLsb'_zero

theorem eq_zero_of_and_allOnes {n : Nat} {x : BitVec n} (h : x &&& BitVec.allOnes n = 0#n) : x = 0#n := by
  rwa [BitVec.and_allOnes] at h

variable {o w : BitVec 8} {imm : BitVec 16} {i : Instr}

/-- A line of the decoder agrees where its check `b` passes only words its instruction encodes to, and passes every word
the row of its opcode matches. -/
theorem whenZero_agrees {b : Bool} (mw : BitVec 8) (mi : BitVec 16)
    (hrow : (mkCmd o 0 0, mkCmd 0xFF mw mi) ∈ opcodeTable) (hword : b = true → encodeCmd i = mkCmd o w imm)
    (hmask : w &&& mw = 0 → imm &&& mi = 0 → b = true) :
    DecodeAgrees (mkCmd o w imm) (whenZero b (mkCmd o w imm) i) := by
  cases b with
  | true => exact hword rfl
  | false =>
    refine Bool.eq_false_iff.mpr fun h => ?_
    obtain ⟨hw, himm⟩ := (inOpcodeTable_mkCmd hrow).mp h
    cases hmask hw himm

/-- A row whose `W` and `IMM` are reserved. -/
theorem whenZero_agrees_noOperand (hrow : (mkCmd o 0 0, mkCmd 0xFF 0xFF 0xFFFF) ∈ opcodeTable)
    (hi : encodeCmd i = mkCmd o 0 0) :
    DecodeAgrees (mkCmd o w imm) (whenZero (w == 0 && imm == 0) (mkCmd o w imm) i) := by
  refine whenZero_agrees 0xFF 0xFFFF hrow (fun h => ?_) (fun hw himm => ?_)
  · obtain ⟨rfl, rfl⟩ : w = 0 ∧ imm = 0 := by simpa using h
    exact hi
  · simp [eq_zero_of_and_allOnes hw, eq_zero_of_and_allOnes himm]

/-- A row whose `W` is one operand and whose `IMM` is reserved. -/
theorem whenZero_agrees_wOperand (hrow : (mkCmd o 0 0, mkCmd 0xFF 0 0xFFFF) ∈ opcodeTable)
    (hi : encodeCmd i = mkCmd o w 0) :
    DecodeAgrees (mkCmd o w imm) (whenZero (imm == 0) (mkCmd o w imm) i) := by
  refine whenZero_agrees 0 0xFFFF hrow (fun h => ?_) (fun _ himm => ?_)
  · obtain rfl : imm = 0 := by simpa using h
    exact hi
  · simp [eq_zero_of_and_allOnes himm]

/-- A row whose `W` packs operands beside the reserved bits at `start` and whose `IMM` is reserved. -/
theorem whenZero_agrees_packedW {start len : Nat} (mw : BitVec 8)
    (hrow : (mkCmd o 0 0, mkCmd 0xFF mw 0xFFFF) ∈ opcodeTable) (hmw : mw.extractLsb' start len = BitVec.allOnes len)
    (hi : w.extractLsb' start len = 0#len → encodeCmd i = mkCmd o w 0) :
    DecodeAgrees (mkCmd o w imm) (whenZero (w.extractLsb' start len == 0 && imm == 0) (mkCmd o w imm) i) := by
  refine whenZero_agrees mw 0xFFFF hrow (fun h => ?_) (fun hw himm => ?_)
  · obtain ⟨hw, rfl⟩ : w.extractLsb' start len = 0#len ∧ imm = 0 := by simpa using h
    exact hi hw
  · simp [extractLsb'_eq_zero_of_and hw hmw, eq_zero_of_and_allOnes himm]

/-- The same where `IMM` is an operand. -/
theorem whenZero_agrees_packedW_imm {start len : Nat} (mw : BitVec 8)
    (hrow : (mkCmd o 0 0, mkCmd 0xFF mw 0) ∈ opcodeTable) (hmw : mw.extractLsb' start len = BitVec.allOnes len)
    (hi : w.extractLsb' start len = 0#len → encodeCmd i = mkCmd o w imm) :
    DecodeAgrees (mkCmd o w imm) (whenZero (w.extractLsb' start len == 0) (mkCmd o w imm) i) := by
  refine whenZero_agrees mw 0 hrow (fun h => hi (by simpa using h)) (fun hw _ => ?_)
  simp [extractLsb'_eq_zero_of_and hw hmw]

/-- A row whose `W` is an operand and whose `IMM` packs operands beside the reserved bits at `start`. -/
theorem whenZero_agrees_packedImm {start len : Nat} (mi : BitVec 16)
    (hrow : (mkCmd o 0 0, mkCmd 0xFF 0 mi) ∈ opcodeTable) (hmi : mi.extractLsb' start len = BitVec.allOnes len)
    (hi : imm.extractLsb' start len = 0#len → encodeCmd i = mkCmd o w imm) :
    DecodeAgrees (mkCmd o w imm) (whenZero (imm.extractLsb' start len == 0) (mkCmd o w imm) i) := by
  refine whenZero_agrees 0 mi hrow (fun h => hi (by simpa using h)) (fun _ himm => ?_)
  simp [extractLsb'_eq_zero_of_and himm hmi]

theorem fxGet_agrees : DecodeAgrees (mkCmd 0x21 w imm) (whenZero (w == 0) (mkCmd 0x21 w imm) (.fxGet imm)) := by
  refine whenZero_agrees 0xFF 0 (by decide) (fun h => ?_) (fun hw _ => ?_)
  · obtain rfl : w = 0 := by simpa using h
    rfl
  · simp [eq_zero_of_and_allOnes hw]

theorem fpPush_agrees : DecodeAgrees (mkCmd 0x40 w imm)
    (whenZero (w == 0 && imm.extractLsb' 8 8 == 0) (mkCmd 0x40 w imm) (.fpPush (imm.extractLsb' 0 8))) := by
  refine whenZero_agrees 0xFF 0xFF00 (by decide) (fun h => ?_) (fun hw himm => ?_)
  · obtain ⟨rfl, himm⟩ : w = 0 ∧ imm.extractLsb' 8 8 = 0#8 := by simpa using h
    exact congrArg (mkCmd 0x40 0) (byteField_of_bits himm)
  · have upper : imm.extractLsb' 8 8 = 0#8 := extractLsb'_eq_zero_of_and himm (by decide)
    simp [eq_zero_of_and_allOnes hw, upper]

/-- The decoder against the table, row by row; a word of no assigned opcode is in no row. -/
theorem decode_mkCmd_agrees (o w : BitVec 8) (imm : BitVec 16) (data : DataWord) :
    DecodeAgrees (mkCmd o w imm) (decode (mkCmd o w imm) data) := by
  simp only [decode, opcOf_mkCmd, wOf_mkCmd, immOf_mkCmd]
  split
  any_goals exact whenZero_agrees_noOperand (by decide) rfl
  any_goals exact whenZero_agrees_wOperand (by decide) rfl
  · exact whenZero_agrees_packedW 0xFC (by decide) (by decide)
      fun hw => congrArg (mkCmd 0x10 · 0) (openField_of_bits hw data)
  · exact fxGet_agrees
  · exact whenZero_agrees_packedW_imm 0xFE (by decide) (by decide)
      fun hw => congrArg (mkCmd 0x22 · imm) (valueField_of_bits hw)
  · exact whenZero_agrees_packedW 0xF0 (by decide) (by decide)
      fun hw => congrArg (mkCmd 0x30 · 0) (kindField_of_bits hw)
  · exact whenZero_agrees_packedW 0xE0 (by decide) (by decide)
      fun hw => congrArg (mkCmd 0x31 · 0) (formatField_of_bits hw)
  · exact whenZero_agrees_packedW_imm 0xF0 (by decide) (by decide)
      fun hw => congrArg (mkCmd 0x32 · imm) (kindField_of_bits hw)
  · exact fpPush_agrees
  · exact whenZero_agrees_packedImm 0x00F0 (by decide) (by decide)
      fun himm => congrArg (mkCmd 0x50 w) (addField_of_bits himm)
  · exact whenZero_agrees_packedImm 0xFFF0 (by decide) (by decide)
      fun himm => congrArg (mkCmd 0x52 w) (lookupField_of_bits himm)
  · refine Bool.eq_false_iff.mpr fun h => ?_
    have assigned := opcOf_mem_of_inOpcodeTable h
    simp_all [opcodes_eq]

theorem decode_agrees (cmd : CmdWord) (data : DataWord) : DecodeAgrees cmd (decode cmd data) := by
  rw [← mkCmd_fields cmd]
  exact decode_mkCmd_agrees _ _ _ _

/-- No bit of CMD is dropped: an accepted word is the command word of the instruction read from it. -/
theorem encodeCmd_of_decode {cmd : CmdWord} {data : DataWord} (h : decode cmd data = .ok i) : encodeCmd i = cmd := by
  have agrees := decode_agrees cmd data
  rwa [h] at agrees

/-- The decoder accepts exactly the words of the table (30_encoding.md R90). -/
theorem exists_decode_iff {cmd : CmdWord} {data : DataWord} :
    (∃ i, decode cmd data = .ok i) ↔ inOpcodeTable cmd = true := by
  constructor
  · rintro ⟨i, h⟩
    rw [← encodeCmd_of_decode h]
    exact inOpcodeTable_encodeCmd i
  · intro h
    have agrees := decode_agrees cmd data
    cases hd : decode cmd data with
    | ok i => exact ⟨i, rfl⟩
    | error e =>
      rw [hd] at agrees
      exact absurd h (Bool.eq_false_iff.mp agrees)

theorem exists_decode_error {cmd : CmdWord} (h : inOpcodeTable cmd = false) (data : DataWord) :
    ∃ e, decode cmd data = .error e := by
  cases hd : decode cmd data with
  | ok i => exact absurd (exists_decode_iff.mp ⟨i, hd⟩) (Bool.eq_false_iff.mp h)
  | error e => exact ⟨e, rfl⟩

/-- Settles O2: an accepted word is the encoder's, so decoding it with the encoder's DATA reads the same instruction. -/
theorem decoderAcceptsTheOpcodeTable : Obligations.DecoderAcceptsTheOpcodeTable := by
  intro cmd data
  refine ⟨exists_decode_iff, fun i h => ?_⟩
  have word := encodeCmd_of_decode h
  exact ⟨word, word ▸ decode_encode i⟩

end Sys2Proof
end

section
/-! ### Illegal words and NOP -/

namespace Sys2Proof.Machine

theorem opcOf_toNat (cmd : CmdWord) : (opcOf cmd).toNat = cmd.toNat / 2 ^ 24 := by
  have hlt := cmd.isLt
  rw [opcOf, BitVec.extractLsb'_toNat, Nat.shiftRight_eq_div_pow, Nat.mod_eq_of_lt (by omega)]

/-- The opcodes R90 lists as unassigned. -/
abbrev UnassignedOpcode (opc : Nat) : Prop :=
  (0x01 ≤ opc ∧ opc ≤ 0x0F) ∨ (0x1E ≤ opc ∧ opc ≤ 0x1F) ∨ (0x26 ≤ opc ∧ opc ≤ 0x2F)
    ∨ (0x33 ≤ opc ∧ opc ≤ 0x3F) ∨ (0x43 ≤ opc ∧ opc ≤ 0x4F) ∨ 0x54 ≤ opc

theorem opcode_assigned : ∀ row ∈ opcodeTable, ¬ UnassignedOpcode (opcOf row.1).toNat :=
  List.forall_iff_forall_mem.mp (by decide)

theorem State.raise_setWidth (s : State) (e : Status) (cmd : CmdWord) :
    s.raise e (cmd.setWidth 64) = .next (s.failed e cmd.toNat) := by
  simp only [State.raise, State.respond, State.failed, Response.error, zext64, BitVec.ofNat_toNat]

/-- Settles O3: the decoder rejects a word in no row, and no assigned opcode lies in the ranges of R90. -/
theorem illegalWordsAreAnswered : Obligations.IllegalWordsAreAnswered := by
  refine ⟨fun s k cmd data rest hin hk h => ?_, ?_⟩
  · obtain ⟨e, he⟩ := exists_decode_error h data
    rw [step_of_command hin hk, State.runCommand_of_illegal he, State.raise_setWidth]
  · rintro cmd opc rfl hrange
    refine Bool.eq_false_iff.mpr fun h => ?_
    obtain ⟨row, hrow, hmatch⟩ := inOpcodeTable_iff.mp h
    rw [← opcOf_toNat, opcOf_of_row hrow hmatch] at hrange
    exact opcode_assigned row hrow hrange

/-- Settles O6: NOP responds `S_OK` and does nothing else. -/
theorem nopChangesNothing : Obligations.NopChangesNothing := fun _ => rfl

end Sys2Proof.Machine
end

section
/-! ### The decode sequence

What a registry search answers, and the two commands of `decode` on a held frame (44_registry_dispatch.md R266, R267;
40_bitcursor.md R110). -/

namespace Sys2Proof.Machine

theorem Registry.mem_used_iff {g : Registry} {e : RegEntry} : e ∈ g.used ↔ ∃ j, j < g.n ∧ g.entries[j]? = some e := by
  simp [Registry.used, List.mem_iff_getElem?, List.getElem?_take]

variable {s : State} {x : Instance} {g : Registry} {p : Profile} {proto : BitVec 8} {id : List Byte}

/-- A search finds nothing exactly where no entry in use matches the key (44_registry_dispatch.md R265). -/
theorem Registry.find_eq_none_iff : g.find p proto id = none ↔ Unmatched g p proto id := by
  refine findFrom_none.trans ⟨?_, ?_⟩
  · rintro h j e ⟨hj, he, hkey⟩
    exact Bool.false_ne_true ((h e (Registry.mem_used_iff.mpr ⟨j, hj, he⟩)).symm.trans hkey)
  · intro h e hmem
    obtain ⟨j, hj, he⟩ := Registry.mem_used_iff.mp hmem
    exact Bool.eq_false_iff.mpr fun hkey => h j e ⟨hj, he, hkey⟩

theorem dispatchResponse_of_unmatched (h : Unmatched g p proto id) :
    dispatchResponse g p proto id = Response.unrecognized := by
  simp only [dispatchResponse, Registry.find_eq_none_iff.mpr h, lookupResponse, ite_self]

theorem dispatchResponse_status_of_matchesAt {j : Nat} {e : RegEntry} (hid : id.length ≤ idMax)
    (h : MatchesAt g p proto id j e) : (dispatchResponse g p proto id).status = .sOk := by
  rw [dispatchResponse, if_pos hid]
  cases hfind : g.find p proto id with
  | none => exact absurd h (Registry.find_eq_none_iff.mp hfind j e)
  | some r => rfl

/-- In the sealed phase REG.DISPATCH answers a held frame by its id and changes nothing else. -/
theorem exec_regDispatch_of_held (hx : s.Runs x) (hproto : s.cfg.protoId[s.port]? = some proto)
    (hp : s.cfg.profile? proto = some p) (hs : s.reg.isSealed = true) (hv : x.fo.valid = true) :
    exec .regDispatch s = .next { s with rsp := dispatchResponse s.reg p proto x.fo.frame.id } := by
  have hinst : s.cfg.instProfile? s.port = some p := Config.instProfile?_eq_some_iff.mpr ⟨proto, hproto, hp⟩
  simp only [exec, execRegDispatch, State.withInst_of_some hx, State.withProfile_of_some hinst, hs, hv,
    List.getD_eq_getElem?_getD, hproto]
  rfl

/-- The issuing `Instance` after CUR.OPEN of its held frame: the payload at the start of `HB` and a read-only view of it. -/
def Instance.viewingFrame (x : Instance) : Instance :=
  { x with hb := x.hb.writeBytes 0 x.fo.frame.payload, cur := CursorUnit.view .ro x.fo.frame.payload.length }

/-- CUR.OPEN of a held frame whose payload fits in `HB`. -/
theorem exec_curOpen_of_held (hx : s.Runs x) (hv : x.fo.valid = true)
    (hfit : x.fo.frame.payload.length ≤ s.cfg.hbCap) : exec (.curOpen .ro .frameOutput) s =
      .next (s.after x.viewingFrame (Response.ok (zext64 x.fo.frame.payload.length))) := by
  have hq : Instr.reply s.cfg s.port x (.curOpen .ro .frameOutput) =
      some (.done x.viewingFrame (Response.ok (zext64 x.fo.frame.payload.length))) := by
    simp [Instr.reply, openFrameOutput, hv, Nat.not_lt.mpr hfit, Instance.openView, Instance.viewingFrame]
  rw [exec_of_reply hx hq]
  rfl

/-- Settles O50: REG.DISPATCH answers `S_OK` where an entry matches, and CUR.OPEN then writes the payload from address 0
on; otherwise its `S_UNRECOGNIZED` ends the sequence. -/
theorem decodeOpensTheHeldFrame : Obligations.DecodeOpensTheHeldFrame := by
  intro s x proto p hx _ hwf hproto hp hs hv hfit hid
  have dispatched := exec_regDispatch_of_held hx hproto hp hs hv
  refine ⟨fun j e he => ⟨x.viewingFrame.hb, ?_, fun k b hb => ?_, fun a ha => ?_⟩, fun hno => ?_⟩
  · simp only [runDecode, dispatched, dispatchResponse_status_of_matchesAt hid he, if_true]
    exact exec_curOpen_of_held (s := { s with rsp := _ }) hx hv hfit
  · obtain ⟨hk, rfl⟩ := List.getElem?_eq_some_iff.mp hb
    rw [Instance.viewingFrame, Memory.read_writeBytes hwf, if_pos (by omega)]
    simp [hk]
  · rw [Instance.viewingFrame, Memory.read_writeBytes hwf, if_neg (by omega)]
  · rw [dispatchResponse_of_unmatched hno] at dispatched
    simp only [runDecode, dispatched]
    rfl

end Sys2Proof.Machine
end

section
/-! ### Opening, closing and moving the cursor

The commands that place the view (40_bitcursor.md R110, R111) and those that move or read the offset (R130, R131). -/

namespace Sys2Proof.Machine

variable {s : State} {x y : Instance} {i : Instr} {r : Response} {e : Status} {mode : ViewMode}

/-- A command whose reply completes leaves `State.after`. -/
theorem exec_eq_after (hx : s.Runs x) (hq : Instr.reply s.cfg s.port x i = some (.done y r)) :
    exec i s = .next (s.after y r) := exec_of_reply hx hq

/-- A command whose reply is an error leaves `State.failed` (60_exceptions.md R302). -/
theorem exec_eq_failed {info : Nat} (hx : s.Runs x)
    (hq : Instr.reply s.cfg s.port x i = some (.error e (zext64 info))) :
    exec i s = .next (s.failed e info) := exec_of_reply hx hq

/-- `x` with a view of `len` bytes opened on it. -/
def Instance.viewing (x : Instance) (mode : ViewMode) (len : Nat) : Instance := { x with cur := CursorUnit.view mode len }

@[simp] theorem Instance.viewing_cur (x : Instance) (mode : ViewMode) (len : Nat) :
    (x.viewing mode len).cur = { isOpen := true, mode := mode, len := len, off := 0 } := rfl

/-- CUR.OPEN of the host buffer within `HB_CAP` (40_bitcursor.md R110). -/
theorem exec_curOpen_hostBuffer {len : BitVec 32} (hx : s.Runs x) (hfit : len.toNat ≤ s.cfg.hbCap) :
    exec (.curOpen mode (.hostBuffer len)) s =
      .next (s.after (x.viewing mode len.toNat) (Response.ok (zext64 len.toNat))) :=
  exec_eq_after hx (by simp [Instr.reply, openHostBuffer, Nat.not_lt.mpr hfit, Instance.openView, Instance.viewing])

theorem Instance.viewingFrame_hb_wf (h : x.hb.wf) : x.viewingFrame.hb.wf := Memory.writeBytes_wf h 0 _

/-- The copied payload: byte `k` of it stands at address `k` (40_bitcursor.md R110). -/
theorem Instance.read_viewingFrame_of_getElem? (h : x.hb.wf) {k : Nat} {b : Byte} (hb : x.fo.frame.payload[k]? = some b) :
    x.viewingFrame.hb.read k = b := by
  obtain ⟨hk, rfl⟩ := List.getElem?_eq_some_iff.mp hb
  rw [Instance.viewingFrame, Memory.read_writeBytes h, if_pos (by omega)]
  simp [hk]

theorem Instance.read_viewingFrame_of_length_le (h : x.hb.wf) {a : Nat} (ha : x.fo.frame.payload.length ≤ a) :
    x.viewingFrame.hb.read a = x.hb.read a := by
  rw [Instance.viewingFrame, Memory.read_writeBytes h, if_neg (by omega)]

/-- Settles O8: the errors of each source in the order of R110; where none applies the view is open, and the payload of a
held frame is copied as `Instance.viewingFrame` says. -/
theorem cursorOpenOpensAView : Obligations.CursorOpenOpensAView := by
  intro s x mode hx hwf
  refine ⟨fun len => ?_, ?_⟩
  · split
    case isTrue hbig => exact exec_eq_failed hx (by simp [Instr.reply, openHostBuffer, hbig])
    case isFalse hfit => exact exec_curOpen_hostBuffer hx (Nat.not_lt.mp hfit)
  · split_ifs with hmode hvalid hbig
    · exact exec_eq_failed hx (by simp [Instr.reply, openFrameOutput, hmode, zext64])
    · cases mode with
      | ro => exact exec_curOpen_frameOutput_of_invalid hx hvalid
      | rw => exact absurd rfl hmode
    · exact exec_eq_failed hx (by simp [Instr.reply, openFrameOutput, hmode, hvalid, hbig])
    · cases mode with
      | ro =>
        exact ⟨x.viewingFrame.hb, exec_curOpen_of_held hx (by simpa using hvalid) (Nat.not_lt.mp hbig),
          Instance.viewingFrame_hb_wf hwf, fun _ _ => Instance.read_viewingFrame_of_getElem? hwf,
          fun _ => Instance.read_viewingFrame_of_length_le hwf⟩
      | rw => exact absurd rfl hmode

/-! ### CUR.CLOSE, CUR.SKIP and CUR.TELL -/

/-- CUR.SKIP within an open view moves the offset, whatever the mode and the count (40_bitcursor.md R130). -/
theorem exec_curSkip {n : DataWord} (hx : s.Runs x) (hopen : x.cur.isOpen = true)
    (hroom : x.cur.off + n.toNat ≤ 8 * x.cur.len) :
    exec (.curSkip n) s = .next (s.after (x.atOffset (x.cur.off + n.toNat)) (Response.ok 0)) := by
  have hok : accessError x.cur n.toNat false false = none :=
    accessError_eq_none.mpr ⟨hopen, by simp, by simp, hroom⟩
  exact exec_eq_after hx (by simp only [Instr.reply, readField, hok]; rfl)

/-- Settles O9: CUR.SKIP and CUR.TELL check the view before they answer, CUR.CLOSE checks nothing. -/
theorem cursorCloseSkipTell : Obligations.CursorCloseSkipTell := by
  intro s x hx
  refine ⟨exec_eq_after hx rfl, ?_, fun n => ?_⟩
  · split
    case isTrue hclosed => exact exec_eq_failed hx (by simp [Instr.reply, hclosed, zext64])
    case isFalse hopen => exact exec_eq_after hx (by simp [Instr.reply, hopen])
  · split_ifs with hclosed hpast
    · exact exec_eq_failed hx (by simp [Instr.reply, readField, accessError, hclosed, zext64])
    · exact exec_eq_failed hx (by simp [Instr.reply, readField, accessError, hclosed, hpast])
    · exact exec_curSkip hx (by simpa using hclosed) (Nat.not_lt.mp hpast)

end Sys2Proof.Machine
end

section
/-! ### Cursor reads

What a field read answers once the access check R112 passes, and the bits of its two results (40_bitcursor.md R113, R117,
R118). -/

namespace Sys2Proof.Machine

/-! ### The bits of a result -/

theorem getLsbD_zext64 (v j : Nat) : (zext64 v).getLsbD j = (decide (j < 64) && v.testBit j) :=
  BitVec.getLsbD_ofNat 64 v j

theorem zext64_toNat_of_lt {v : Nat} (h : v < 2 ^ 64) : (zext64 v).toNat = v :=
  Nat.mod_eq_of_lt h

/-- `sext_64` is the sign extension of the `w`-bit word (00_scope.md R9). -/
theorem sext64_eq_signExtend {v w : Nat} (hw : 1 ≤ w) (hv : v < 2 ^ w) : sext64 v w = (BitVec.ofNat w v).signExtend 64 := by
  have hmsb : (BitVec.ofNat w v).msb = v.testBit (w - 1) := by
    rw [BitVec.msb_eq_getLsbD_last, BitVec.getLsbD_ofNat]
    simp only [show w - 1 < w by omega, decide_true, Bool.true_and]
  rw [sext64, BitVec.signExtend, BitVec.toInt_eq_msb_cond, hmsb, BitVec.toNat_ofNat, Nat.mod_eq_of_lt hv]
  simp only [Nat.cast_pow, Nat.cast_ofNat]

/-- Bit `w-1` of a field by weight is the first bit of the field (40_bitcursor.md R113). -/
theorem Memory.testBit_getBits_sub (m : Memory) (o : Nat) {w k : Nat} (hk : k < w) :
    (m.getBits o w).testBit (w - 1 - k) = m.bitAt (o + k) := by
  rw [Memory.testBit_getBits, show w - 1 - (w - 1 - k) = k by omega]
  simp only [show w - 1 - k < w by omega, decide_true, Bool.true_and]

/-- A field zero-extended: its bits most significant first, then zeros (40_bitcursor.md R117). -/
theorem zext64_getBits_bits (m : Memory) (o : Nat) {w : Nat} (hw : w ≤ 64) :
    (∀ k, k < w → ((zext64 (m.getBits o w)).getLsbD (w - 1 - k)).toNat = m.bit (o + k))
      ∧ ∀ j, w ≤ j → (zext64 (m.getBits o w)).getLsbD j = false := by
  refine ⟨fun k hk => ?_, fun j hj => ?_⟩
  · rw [getLsbD_zext64, Memory.testBit_getBits_sub m o hk, Memory.bit_eq_bitAt]
    simp only [show w - 1 - k < 64 by omega, decide_true, Bool.true_and]
  · rw [getLsbD_zext64, Memory.testBit_getBits]
    simp only [Nat.not_lt.mpr hj, decide_false, Bool.false_and, Bool.and_false]

/-- A field sign-extended: its bits most significant first, then copies of the first (40_bitcursor.md R118). -/
theorem sext64_getBits_bits (m : Memory) (o : Nat) {w : Nat} (hw1 : 1 ≤ w) (hw : w ≤ 64) :
    (∀ k, k < w → ((sext64 (m.getBits o w) w).getLsbD (w - 1 - k)).toNat = m.bit (o + k))
      ∧ ∀ j, w ≤ j → j < 64 → ((sext64 (m.getBits o w) w).getLsbD j).toNat = m.bit o := by
  have hfield (k : Nat) (hk : k < w) : (BitVec.ofNat w (m.getBits o w)).getLsbD (w - 1 - k) = m.bitAt (o + k) := by
    rw [BitVec.getLsbD_ofNat, Memory.testBit_getBits_sub m o hk]
    simp only [show w - 1 - k < w by omega, decide_true, Bool.true_and]
  rw [sext64_eq_signExtend hw1 (Memory.getBits_lt m o w)]
  refine ⟨fun k hk => ?_, fun j hj hj64 => ?_⟩
  · rw [BitVec.getLsbD_signExtend, if_pos (by omega), hfield k hk, Memory.bit_eq_bitAt]
    simp only [show w - 1 - k < 64 by omega, decide_true, Bool.true_and]
  · rw [BitVec.getLsbD_signExtend, if_neg (by omega), BitVec.msb_eq_getLsbD_last, ← Nat.sub_zero (w - 1), hfield 0 hw1,
      Memory.bit_eq_bitAt]
    simp only [hj64, decide_true, Bool.true_and, Nat.add_zero]

/-! ### The commands -/

variable {s : State} {x : Instance} {i : Instr} {w : Nat} {ck : Bool} {result : Nat → DataWord} {P : Prop}

/-- The width that passed the access check is legal, whether the check looked at it or the command fixes it. -/
theorem width_of_accessError_eq_none {c : CursorUnit} {wr : Bool} (hc : ck = false → 1 ≤ w ∧ w ≤ 64)
    (h : accessError c w wr ck = none) : 1 ≤ w ∧ w ≤ 64 := by
  obtain ⟨-, hwidth, -, -⟩ := accessError_eq_none.mp h
  cases ck with
  | true => exact hwidth rfl
  | false => exact hc rfl

/-- A cursor read whose check passes answers the field and moves the offset past it. -/
theorem exec_readField (hx : s.Runs x) (hi : exec i s = s.runInst (readField w ck result))
    (hok : accessError x.cur w false ck = none) : exec i s =
      .next (s.after (x.atOffset (x.cur.off + w)) (Response.ok (result (x.hb.getBits x.cur.off w)))) := by
  rw [hi]
  exact State.runInst_done hx (by simp only [readField, hok]; rfl)

/-- A cursor read answers as the check R112 says, and otherwise `P`, which may use what the read then does. -/
theorem accessAnswers_read (hx : s.Runs x) (hi : exec i s = s.runInst (readField w ck result))
    (hc : ck = false → 1 ≤ w ∧ w ≤ 64)
    (hP : 1 ≤ w → w ≤ 64 → exec i s =
      .next (s.after (x.atOffset (x.cur.off + w)) (Response.ok (result (x.hb.getBits x.cur.off w)))) → P) :
    AccessAnswers i s x w false P := by
  refine accessAnswers_of hx hi hc (fun e he => by simp only [readField, he]) (fun hok => ?_)
  obtain ⟨hw1, hw⟩ := width_of_accessError_eq_none hc hok
  exact hP hw1 hw (exec_readField hx hi hok)

/-- Each unsigned read is the zero-extended field read of its width. -/
theorem exists_readField_of_unsignedRead (h : Instr.unsignedRead i = some w) :
    ∃ ck, (ck = false → 1 ≤ w ∧ w ≤ 64) ∧ ∀ s, exec i s = s.runInst (readField w ck zext64) := by
  cases i with
  | curRdu n => cases h; exact ⟨true, by simp, fun _ => rfl⟩
  | curRdb8 | curRdb16 | curRdb32 => cases h; exact ⟨false, by decide, fun _ => rfl⟩
  | _ => cases h

/-- Settles O10: the value of an unsigned read is its field zero-extended. -/
theorem unsignedReadsTakeTheField : Obligations.UnsignedReadsTakeTheField := by
  intro s x i w hx h
  obtain ⟨ck, hc, hi⟩ := exists_readField_of_unsignedRead h
  exact accessAnswers_read hx (hi s) hc fun _ hw hread => ⟨_, hread, zext64_getBits_bits x.hb x.cur.off hw⟩

/-- Settles O11: the value of CUR.RDS is its field sign-extended. -/
theorem signedReadsExtendTheSign : Obligations.SignedReadsExtendTheSign := fun _ x _ hx =>
  accessAnswers_read hx rfl (by simp) fun hw1 hw hread => ⟨_, hread, sext64_getBits_bits x.hb x.cur.off hw1 hw⟩

end Sys2Proof.Machine
end

section
/-! ### Cursor writes

What a cursor write stores (40_bitcursor.md R115, R119, R120, R124 to R126), and that the byte-aligned helpers are the
generic access of their width (R127). -/

namespace Sys2Proof.Machine

/-- `trunc_w` of the signed value is `trunc_w` of the word (40_bitcursor.md R120). -/
theorem toNat_toInt_emod_two_pow (v : DataWord) {w : Nat} (hw : w ≤ 64) : (v.toInt % 2 ^ w).toNat = v.toNat % 2 ^ w := by
  have hdvd : ((2 ^ w : Nat) : Int) ∣ ((2 ^ 64 : Nat) : Int) := Int.natCast_dvd_natCast.mpr (Nat.pow_dvd_pow 2 hw)
  have hmod : v.toInt % ((2 ^ w : Nat) : Int) = ((v.toNat % 2 ^ w : Nat) : Int) := by
    rw [BitVec.toInt_eq_toNat_bmod, ← Int.emod_emod_of_dvd _ hdvd, Int.bmod_emod, Int.emod_emod_of_dvd _ hdvd,
      Int.natCast_emod]
  rw [show (2 : Int) ^ w = ((2 ^ w : Nat) : Int) by simp, hmod, Int.toNat_natCast]

/-- The bits of a stored field are the low bits of the word, most significant first (40_bitcursor.md R115). -/
theorem Memory.bit_putBits_field {m : Memory} (h : m.wf) (o : Nat) (v : DataWord) {w k : Nat} (hk : k < w) :
    (m.putBits o w (v.toNat % 2 ^ w)).bit (o + k) = (v.getLsbD (w - 1 - k)).toNat := by
  rw [Memory.bit_eq_bitAt, Memory.bitAt_putBits h, if_pos (by omega), Nat.testBit_mod_two_pow,
    show w - 1 - (o + k - o) = w - 1 - k by omega]
  simp only [show w - 1 - k < w by omega, decide_true, Bool.true_and]
  rfl

theorem Memory.bit_putBits_outside {m : Memory} (h : m.wf) {o w q : Nat} (u : Nat) (hq : q < o ∨ o + w ≤ q) :
    (m.putBits o w u).bit q = m.bit q := by
  rw [Memory.bit_eq_bitAt, Memory.bit_eq_bitAt, Memory.bitAt_putBits h, if_neg (by omega)]

/-- `x` after a cursor write of the low `w` bits of `v`. -/
def Instance.stored (x : Instance) (w : Nat) (v : DataWord) : Instance :=
  { x.atOffset (x.cur.off + w) with hb := x.hb.putBits x.cur.off w (v.toNat % 2 ^ w) }

variable {s : State} {x : Instance} {i : Instr} {w u : Nat} {v : DataWord} {ck : Bool}

/-- Each cursor write is the field write of its width and of the low bits of its DATA operand. -/
theorem exists_writeField_of_cursorWrite (h : Instr.cursorWrite i = some (w, v)) :
    ∃ ck u, (ck = false → 1 ≤ w ∧ w ≤ 64) ∧ (w ≤ 64 → u % 2 ^ w = v.toNat % 2 ^ w)
      ∧ ∀ s, exec i s = s.runInst (writeField w ck u) := by
  cases i with
  | curWru n d => cases h; exact ⟨true, _, by simp, fun _ => rfl, fun _ => rfl⟩
  | curWrs n d =>
    cases h
    refine ⟨true, _, by simp, fun hw => ?_, fun _ => rfl⟩
    rw [toNat_toInt_emod_two_pow v hw, Nat.mod_mod]
  | curWrb8 d | curWrb16 d | curWrb32 d => cases h; exact ⟨false, _, by decide, fun _ => rfl, fun _ => rfl⟩
  | _ => cases h

/-- A cursor write answers as the check R112 says, and otherwise stores its field and moves the offset past it. -/
theorem accessAnswers_write (hx : s.Runs x) (h : Instr.cursorWrite i = some (w, v)) :
    AccessAnswers i s x w true (exec i s = .next (s.after (x.stored w v) (Response.ok 0))) := by
  obtain ⟨ck, u, hc, hu, hi⟩ := exists_writeField_of_cursorWrite h
  refine accessAnswers_of hx (hi s) hc (fun e he => by simp only [writeField, he]) (fun hok => ?_)
  obtain ⟨-, hw⟩ := width_of_accessError_eq_none hc hok
  rw [hi, Instance.stored, ← hu hw]
  exact State.runInst_done hx (by simp only [writeField, hok]; rfl)

/-- What the check R112 lets pass may be weakened. -/
theorem AccessAnswers.imp {wr : Bool} {P Q : Prop} (h : AccessAnswers i s x w wr P) (hPQ : P → Q) :
    AccessAnswers i s x w wr Q := by
  unfold AccessAnswers at h ⊢
  split_ifs at h ⊢
  · exact h
  · exact h
  · exact h
  · exact h
  · exact hPQ h

/-- Settles O12: the memory is the one `putbits` leaves, bit by bit. -/
theorem cursorWritesStoreTheField : Obligations.CursorWritesStoreTheField := fun _ x _ w v hx hwf h =>
  (accessAnswers_write hx h).imp fun hwrite =>
    ⟨(x.stored w v).hb, hwrite, Memory.putBits_wf hwf _ _ _, fun _ => Memory.bit_putBits_field hwf _ v,
      fun _ => Memory.bit_putBits_outside hwf _, Memory.read_putBits _ _ _⟩

/-! ### The byte-aligned helpers -/

/-- At a legal width the width check decides nothing (40_bitcursor.md R112). -/
theorem accessError_widthChecked (c : CursorUnit) (wr : Bool) (hw1 : 1 ≤ w) (hw : w ≤ wMax) :
    accessError c w wr true = accessError c w wr false := by
  simp only [accessError, hw1, hw, decide_true, Bool.and_self, Bool.not_true, Bool.and_false]

theorem readField_widthChecked (result : Nat → DataWord) (hw1 : 1 ≤ w) (hw : w ≤ wMax) :
    readField w true result = readField w false result :=
  funext fun x => by simp only [readField, accessError_widthChecked x.cur false hw1 hw]

theorem writeField_widthChecked (u : Nat) (hw1 : 1 ≤ w) (hw : w ≤ wMax) : writeField w true u = writeField w false u :=
  funext fun x => by simp only [writeField, accessError_widthChecked x.cur true hw1 hw]

/-- Settles O14: a helper differs from the generic access in the width check alone, which its width passes. -/
theorem helpersEqualTheGenericAccess : Obligations.HelpersEqualTheGenericAccess := by
  have hread (w : Nat) (hw1 : 1 ≤ w) (hw : w ≤ wMax) (s : State) :
      s.runInst (readField w false zext64) = s.runInst (readField w true zext64) := by
    rw [readField_widthChecked zext64 hw1 hw]
  have hwrite (w : Nat) (hw1 : 1 ≤ w) (hw : w ≤ wMax) (v : DataWord) (s : State) :
      s.runInst (writeField w false v.toNat) = s.runInst (writeField w true v.toNat) := by
    rw [writeField_widthChecked v.toNat hw1 hw]
  exact fun s v => ⟨hread 8 (by decide) (by decide) s, hread 16 (by decide) (by decide) s,
    hread 32 (by decide) (by decide) s, hwrite 8 (by decide) (by decide) v s, hwrite 16 (by decide) (by decide) v s,
    hwrite 32 (by decide) (by decide) v s⟩

end Sys2Proof.Machine
end

section
/-! ### A field written reads back

The command sequence of 40_bitcursor.md R128. -/

namespace Sys2Proof.Machine

/-! ### The values -/

theorem zext64_toNat_mod_of_lt {u : DataWord} {w : Nat} (hu : u.toNat < 2 ^ w) : zext64 (u.toNat % 2 ^ w) = u := by
  rw [Nat.mod_eq_of_lt hu, zext64, BitVec.ofNat_toNat, BitVec.setWidth_eq]

/-- A word in the signed `w`-bit range is the sign extension of its low `w` bits. -/
theorem sext64_toNat_mod_of_range {v : DataWord} {w : Nat} (hw1 : 1 ≤ w) (hw : w ≤ 64)
    (hlo : -(2 : Int) ^ (w - 1) ≤ v.toInt) (hhi : v.toInt < 2 ^ (w - 1)) : sext64 (v.toNat % 2 ^ w) w = v := by
  have hdvd : 2 ^ w ∣ 2 ^ 64 := Nat.pow_dvd_pow 2 hw
  have hrange : v.toInt.bmod (2 ^ w) = v.toInt := by
    obtain ⟨n, rfl⟩ : ∃ n, w = n + 1 := ⟨w - 1, by omega⟩
    simp only [Nat.add_sub_cancel] at hlo hhi
    apply Int.bmod_eq_of_le <;> (rw [Nat.pow_succ]; push_cast; omega)
  rw [sext64_eq_signExtend hw1 (Nat.mod_lt _ (Nat.two_pow_pos w))]
  apply BitVec.eq_of_toInt_eq
  calc ((BitVec.ofNat w (v.toNat % 2 ^ w)).signExtend 64).toInt
      = (BitVec.ofNat w (v.toNat % 2 ^ w)).toInt := BitVec.toInt_signExtend_of_le hw
    _ = (v.toNat : Int).bmod (2 ^ w) := by rw [BitVec.toInt_ofNat', Int.natCast_emod, Int.emod_bmod]
    _ = v.toInt.bmod (2 ^ w) := by rw [BitVec.toInt_eq_toNat_bmod, Int.bmod_bmod_of_dvd hdvd]
    _ = v.toInt := hrange

/-! ### The sequence -/

variable {s : State} {x y : Instance} {i : Instr} {w : Nat}

theorem State.after_runs (hx : s.Runs x) (y : Instance) (r : Response) : (s.after y r).Runs y := by
  have hport : s.port < s.insts.length := (List.getElem?_eq_some_iff.mp hx).1
  simp [State.Runs, State.after, hport]

/-- An access that passes every check of R112 does what it is to do. -/
theorem AccessAnswers.of_passed {wr : Bool} {P : Prop} (h : AccessAnswers i s x w wr P) (hopen : x.cur.isOpen = true)
    (hw1 : 1 ≤ w) (hw : w ≤ 64) (hmode : wr = true → x.cur.mode = .rw) (hroom : x.cur.off + w ≤ 8 * x.cur.len) : P := by
  unfold AccessAnswers at h
  rwa [if_neg (by simp [hopen]), if_neg (by omega), if_neg (by rintro ⟨hwr, hro⟩; rw [hmode hwr] at hro; cases hro),
    if_neg (by omega)] at h

/-- Opening a view of the host buffer, skipping to a field and reading it. -/
theorem runAll_open_skip_read {t : State} {ri : Instr} {len : BitVec 32} {mode : ViewMode} {off : Nat}
    {result : Nat → DataWord} (hy : t.Runs y) (hfit : len.toNat ≤ t.cfg.hbCap) (hw1 : 1 ≤ w) (hw : w ≤ 64)
    (hroom : off + w ≤ 8 * len.toNat) (hread : ∀ t, exec ri t = t.runInst (readField w true result)) :
    ∃ u, runAll [.curOpen mode (.hostBuffer len), .curSkip (zext64 off), ri] t = some
      ([Response.ok (zext64 len.toNat), Response.ok 0, Response.ok (result (y.hb.getBits off w))], u) := by
  have hlen := len.isLt
  have hoff : (zext64 off).toNat = off := zext64_toNat_of_lt (by omega)
  have opened := exec_curOpen_hostBuffer (mode := mode) hy hfit
  have hopened := State.after_runs hy (y.viewing mode len.toNat) (Response.ok (zext64 len.toNat))
  have skipped := exec_curSkip (n := zext64 off) hopened rfl (by simp only [Instance.viewing_cur]; omega)
  simp only [Instance.viewing_cur, Nat.zero_add, hoff] at skipped
  have hskipped := State.after_runs hopened ((y.viewing mode len.toNat).atOffset off) (Response.ok 0)
  have answered := exec_readField hskipped (hread _) (accessError_eq_none.mpr ⟨rfl, fun _ => ⟨hw1, hw⟩, by simp, hroom⟩)
  rw [runAll_cons_of_next opened, runAll_cons_of_next skipped, runAll_cons_of_next answered]
  exact ⟨_, rfl⟩

/-- Writing a field, opening the view again, skipping to the field and reading it answers `result` of the low bits
written. -/
theorem runAll_write_open_skip_read {wi ri : Instr} {len : BitVec 32} {mode : ViewMode} {result : Nat → DataWord}
    {v : DataWord} (hs : s.Inv) (hx : s.Runs x) (hopen : x.cur.isOpen = true) (hmode : x.cur.mode = .rw)
    (hlen : x.cur.len = len.toNat) (hw1 : 1 ≤ w) (hw : w ≤ 64) (hroom : x.cur.off + w ≤ 8 * x.cur.len)
    (hwrite : Instr.cursorWrite wi = some (w, v)) (hread : ∀ t, exec ri t = t.runInst (readField w true result)) :
    ∃ rs t, runAll [wi, .curOpen mode (.hostBuffer len), .curSkip (zext64 x.cur.off), ri] s = some (rs, t)
      ∧ rs = [Response.ok 0, Response.ok (zext64 len.toNat), Response.ok 0, Response.ok (result (v.toNat % 2 ^ w))] := by
  obtain ⟨-, -, -, ⟨hcap, -, -⟩, -, -, -, hwf, -⟩ := hs.exists_profile hx
  have written := (accessAnswers_write hx hwrite).of_passed hopen hw1 hw (fun _ => hmode) hroom
  obtain ⟨u, readBack⟩ := runAll_open_skip_read (mode := mode) (State.after_runs hx (x.stored w v) (Response.ok 0))
    (hlen ▸ hcap) hw1 hw (hlen ▸ hroom) hread
  refine ⟨_, u, ?_, rfl⟩
  rw [runAll_cons_of_next written, readBack, Option.map_some, Instance.stored, Memory.getBits_putBits hwf, Nat.mod_mod]
  rfl

/-- Settles O15: the value read is the sign or zero extension of the low bits written, which in its range is the value. -/
theorem cursorFieldRoundTrip : Obligations.CursorFieldRoundTrip := by
  intro s x w len mode hs hx hopen hmode hlen hw1 hw hroom
  refine ⟨fun u hu => ?_, fun v hlo hhi => ?_⟩
  · have h := runAll_write_open_skip_read (wi := .curWru w u) (ri := .curRdu w) (mode := mode)
      hs hx hopen hmode hlen hw1 hw hroom rfl (fun _ => rfl)
    rwa [zext64_toNat_mod_of_lt hu] at h
  · have h := runAll_write_open_skip_read (wi := .curWrs w v) (ri := .curRds w) (mode := mode)
      hs hx hopen hmode hlen hw1 hw hroom rfl (fun _ => rfl)
    rwa [sext64_toNat_mod_of_range hw1 hw hlo hhi] at h

end Sys2Proof.Machine
end

/-! ## Extensible fields

What the FX commands read, store and put on the wire (41_extensible_field.md R140 to R167). -/

section
/-! ### Logical bits

FX.CLEAR, FX.GET, FX.SIZE and FX.SET: the octet and the bit an index names (41_extensible_field.md R141, R150 to R152,
R165). -/

namespace Sys2Proof.Machine

theorem FieldUnit.getElem?_oct {f : FieldUnit} {k : Nat} (hk : k < f.oct.length) : f.oct[k]? = some (f.octet k) := by
  simp [FieldUnit.octet, hk]

theorem FieldUnit.octet_of_getElem? {f : FieldUnit} {k : Nat} {o : Byte} (h : f.oct[k]? = some o) : f.octet k = o := by
  simp [FieldUnit.octet, h]

/-- Settles O17: FX.GET reads the octet `i div 7` of a field that has one, at the bit `FieldUnit.get_eq` names. -/
theorem fxClearGetSize : Obligations.FxClearGetSize := by
  rintro s x hx ⟨hn, hlength⟩
  refine ⟨exec_eq_after hx rfl, exec_eq_after hx rfl, fun i => ?_⟩
  have hget : exec (.fxGet i) s = .next (s.after x (Response.ok (x.fx.get i.toNat))) := exec_eq_after hx rfl
  rw [FieldUnit.get_eq] at hget
  split
  case isTrue hpast => rwa [if_neg (by omega)] at hget
  case isFalse hin =>
    rw [if_pos (by omega)] at hget
    exact ⟨_, FieldUnit.getElem?_oct (by omega), hget⟩

theorem FieldUnit.setBit_n (f : FieldUnit) (i : Nat) (v : Bool) : (f.setBit i v).n = max f.n (i / 7 + 1) :=
  FieldUnit.grow_n f (i / 7)

/-- Bit position `d` of octet `k` after FX.SET, counted from the most significant: the written bit, 0 elsewhere in the
materialized octets, and the old bit otherwise (41_extensible_field.md R152). -/
theorem FieldUnit.getLsbD_setBit_octet {f : FieldUnit} {i : Nat} (v : Bool) (k : Nat) {d : Nat}
    (hn : f.n ≤ f.oct.length) (hi : i / 7 < f.oct.length) (hd : d < 8) :
    ((f.setBit i v).octet k).getLsbD (7 - d) =
      if k = i / 7 ∧ d = i % 7 then v
      else if f.n ≤ k ∧ k ≤ i / 7 then false
      else (f.octet k).getLsbD (7 - d) := by
  have hposition : 7 - d = 7 - i % 7 ↔ d = i % 7 := by omega
  rw [FieldUnit.setBit, FieldUnit.putLogical_octet_bit _ _ _ _ _ (by omega) (by rwa [FieldUnit.grow_length f _ hn hi]),
    FieldUnit.grow_octet f _ _ hn]
  simp only [hposition]
  split_ifs
  · rfl
  · exact BitVec.getLsbD_zero
  · rfl

/-- Settles O18: the field is `FieldUnit.setBit`, bit by bit. -/
theorem fxSetWritesOneBit : Obligations.FxSetWritesOneBit := by
  intro s x v i hx hinv
  have ⟨hn, hlength⟩ := hinv
  split
  case isTrue hpast => exact exec_eq_failed hx (by simp [Instr.reply, hpast])
  case isFalse hin =>
    obtain ⟨-, hlength'⟩ := FieldUnit.setBit_inv hinv (Nat.not_le.mp hin) v
    refine ⟨x.fx.setBit i.toNat v, exec_eq_after hx (by simp [Instr.reply, hin]), FieldUnit.setBit_n _ _ _, hlength', ?_⟩
    intro k o old ho hold d hd
    rw [← FieldUnit.octet_of_getElem? ho, ← FieldUnit.octet_of_getElem? hold]
    exact FieldUnit.getLsbD_setBit_octet v k (by omega) (by omega) hd

end Sys2Proof.Machine
end

section
/-! ### Reading a chain

FX.DESER by the octets of the host buffer: how many continue decides how the reading loop ends (41_extensible_field.md
R155). -/

namespace Sys2Proof.Machine

/-- The octet at bit offset `o` (40_bitcursor.md R113 with `w = 8`). -/
def Memory.octetAt (m : Memory) (o : Nat) : Byte := BitVec.ofNat 8 (m.getBits o 8)

/-- The `n` octets from bit offset `o`. -/
def Memory.octetsAt (m : Memory) (o n : Nat) : List Byte := (List.range n).map fun j => m.octetAt (o + 8 * j)

theorem Memory.octetAt_toNat (m : Memory) (o : Nat) : (m.octetAt o).toNat = m.getBits o 8 :=
  Nat.mod_eq_of_lt (Memory.getBits_lt m o 8)

/-- An octet's bits are the buffer's, most significant first. -/
theorem Memory.getLsbD_octetAt (m : Memory) (o : Nat) {d : Nat} (hd : d < 8) :
    (m.octetAt o).getLsbD (7 - d) = m.bitAt (o + d) := by
  rw [BitVec.getLsbD, Memory.octetAt_toNat]
  exact Memory.testBit_getBits_sub m o hd

theorem and_fxMask_eq_zero_iff (b : Byte) : b &&& fxMask = 0 ↔ b.getLsbD 0 = false := by revert b; decide

/-- The FX bit of an octet is the last of its bits in the buffer (41_extensible_field.md R140). -/
theorem Memory.octetAt_and_fxMask_eq_zero_iff (m : Memory) (o : Nat) : m.octetAt o &&& fxMask = 0 ↔ m.bit (o + 7) = 0 := by
  rw [and_fxMask_eq_zero_iff, Memory.bit_eq_bitAt, ← Memory.getLsbD_octetAt m o (d := 7) (by decide), Bool.toNat_eq_zero]

@[simp] theorem Memory.octetsAt_length (m : Memory) (o n : Nat) : (m.octetsAt o n).length = n := by
  simp [Memory.octetsAt]

@[simp] theorem Memory.getElem_octetsAt (m : Memory) (o n : Nat) {j : Nat} (hj : j < (m.octetsAt o n).length) :
    (m.octetsAt o n)[j] = m.octetAt (o + 8 * j) := by
  simp [Memory.octetsAt]

theorem Memory.octetsAt_add_one (m : Memory) (o n : Nat) :
    m.octetsAt o (n + 1) = m.octetsAt o n ++ [m.octetAt (o + 8 * n)] := by
  simp [Memory.octetsAt, List.range_succ]

section Loop

variable {m : Memory} {limit room off n : Nat}

/-- The loop passes over `n` octets that continue. -/
theorem readChain_octetsAt (hroom : n ≤ room) (hfit : off + 8 * n ≤ limit)
    (hfx : ∀ j, j < n → m.bit (off + 8 * j + 7) = 1) :
    readChain m limit room off [] = readChain m limit (room - n) (off + 8 * n) (m.octetsAt off n) := by
  have hloop := readChain_continue m limit (m.octetsAt off n) room off [] (by simpa) (by simpa)
    (fun t ht => by rw [Memory.getElem_octetsAt, Memory.octetAt_toNat])
    (fun b hb => by
      obtain ⟨j, hj, rfl⟩ := List.getElem_of_mem hb
      rw [Memory.getElem_octetsAt, Ne, Memory.octetAt_and_fxMask_eq_zero_iff, hfx j (by simpa using hj)]
      exact Nat.one_ne_zero)
  simpa using hloop

/-- A chain of `n` octets inside the view ends the loop after its last. -/
theorem readChain_eq_complete (hn : 1 ≤ n) (hroom : n ≤ room) (hfit : off + 8 * n ≤ limit)
    (hfx : ∀ j, j < n → m.bit (off + 8 * j + 7) = if j + 1 < n then 1 else 0) :
    readChain m limit room off [] = .complete (m.octetsAt off n) (off + 8 * n) := by
  obtain ⟨k, rfl⟩ : ∃ k, n = k + 1 := ⟨n - 1, by omega⟩
  obtain ⟨r, hr⟩ : ∃ r, room - k = r + 1 := ⟨room - k - 1, by omega⟩
  have hlast : m.octetAt (off + 8 * k) &&& fxMask = 0 := by
    rw [Memory.octetAt_and_fxMask_eq_zero_iff, hfx k (by omega), if_neg (by omega)]
  rw [readChain_octetsAt (n := k) (by omega) (by omega) (fun j hj => by rw [hfx j (by omega), if_pos (by omega)]), hr,
    readChain, if_neg (by omega), Memory.octetsAt_add_one]
  exact if_pos hlast

/-- The view ends before the first octet. -/
theorem readChain_eq_noOctet (hroom : 1 ≤ room) (hend : limit < off + 8) :
    readChain m limit room off [] = .noOctet off := by
  obtain ⟨r, rfl⟩ : ∃ r, room = r + 1 := ⟨room - 1, by omega⟩
  rw [readChain, if_pos hend]
  rfl

/-- The view ends after `n` octets that continue. -/
theorem readChain_eq_truncated (hn : 1 ≤ n) (hroom : n < room) (hfit : off + 8 * n ≤ limit)
    (hend : limit < off + 8 * n + 8) (hfx : ∀ j, j < n → m.bit (off + 8 * j + 7) = 1) :
    readChain m limit room off [] = .truncated (off + 8 * n) := by
  obtain ⟨r, hr⟩ : ∃ r, room - n = r + 1 := ⟨room - n - 1, by omega⟩
  have hread : ¬ (m.octetsAt off n).isEmpty = true := by
    rw [List.isEmpty_iff_length_eq_zero, Memory.octetsAt_length]
    omega
  rw [readChain_octetsAt (by omega) hfit hfx, hr, readChain, if_pos hend, if_neg hread]

/-- As many octets continue as the field has room for. -/
theorem readChain_eq_malformed (hfit : off + 8 * room ≤ limit)
    (hfx : ∀ j, j < room → m.bit (off + 8 * j + 7) = 1) :
    readChain m limit room off [] = .malformed (off + 8 * room) := by
  rw [readChain_octetsAt le_rfl hfit hfx, Nat.sub_self, readChain]

end Loop

/-- Octet `j` of the field FX.DESER stores: the octet read, and 0 past the chain. -/
theorem FieldUnit.octet_ofOctets (c : Config) (octs : List Byte) (j : Nat) :
    (FieldUnit.ofOctets c octs).octet j = octs.getD j 0 := by
  simp only [FieldUnit.octet, FieldUnit.ofOctets]
  by_cases hj : j < octs.length
  · rw [List.getD_append _ _ _ _ hj]
  · rw [List.getD_append_right _ _ _ _ (Nat.not_lt.mp hj), List.getD_eq_default _ _ (Nat.not_lt.mp hj),
      List.getD_eq_getElem?_getD, List.getElem?_replicate]
    split <;> rfl

/-- `x` after FX.DESER has read `n` octets from `CUR_OFF` (41_extensible_field.md R155). -/
def Instance.deserialized (x : Instance) (c : Config) (n : Nat) : Instance :=
  { x.atOffset (x.cur.off + 8 * n) with fx := FieldUnit.ofOctets c (x.hb.octetsAt x.cur.off n) }

section Command

variable {s : State} {x : Instance}

/-- A chain of `n` octets inside an open view: FX.DESER stores them and moves the offset past them. -/
theorem exec_fxDeser_of_chain {n : Nat} (hx : s.Runs x) (hopen : x.cur.isOpen = true) (hn : 1 ≤ n)
    (hroom : n ≤ s.cfg.fxMax) (hfit : x.cur.off + 8 * n ≤ 8 * x.cur.len)
    (hfx : ∀ j, j < n → x.hb.bit (x.cur.off + 8 * j + 7) = if j + 1 < n then 1 else 0) :
    exec .fxDeser s = .next (s.after (x.deserialized s.cfg n) (Response.ok (zext64 n))) := by
  have hread := readChain_eq_complete hn hroom hfit hfx
  exact exec_eq_after hx (by simp [Instr.reply, deserialize, hopen, hread, Instance.deserialized, Instance.atOffset])

/-- As many octets continue as the field has room for: FX.DESER is refused (41_extensible_field.md R155, R167). -/
theorem exec_fxDeser_of_endless (hx : s.Runs x) (hopen : x.cur.isOpen = true)
    (hfit : x.cur.off + 8 * s.cfg.fxMax ≤ 8 * x.cur.len)
    (hfx : ∀ j, j < s.cfg.fxMax → x.hb.bit (x.cur.off + 8 * j + 7) = 1) :
    exec .fxDeser s = .next (s.failed .eFxMalformed (x.cur.off + 8 * s.cfg.fxMax)) := by
  have hread := readChain_eq_malformed hfit hfx
  exact exec_eq_failed hx (by simp [Instr.reply, deserialize, hopen, hread])

/-- Settles O19: each end of the reading loop is the answer of FX.DESER, and the octets read are the buffer's bits. -/
theorem fxDeserReadsTheChain : Obligations.FxDeserReadsTheChain := by
  intro s x hx hmax
  refine ⟨fun hclosed => exec_eq_failed hx (by simp [Instr.reply, deserialize, hclosed, zext64]), fun hopen => ?_⟩
  refine ⟨fun hend => ?_, fun n hn hroom hfit hfx => ?_, fun n hn hroom hfit hend hfx => ?_,
    exec_fxDeser_of_endless hx hopen⟩
  · have hread := readChain_eq_noOctet (m := x.hb) hmax hend
    exact exec_eq_failed hx (by simp [Instr.reply, deserialize, hopen, hread])
  · obtain ⟨-, hlength⟩ := FieldUnit.ofOctets_inv s.cfg (o := x.hb.octetsAt x.cur.off n) (by simpa)
    refine ⟨(x.deserialized s.cfg n).fx, exec_fxDeser_of_chain hx hopen hn hroom hfit hfx,
      Memory.octetsAt_length _ _ _, hlength, fun j o ho d hd => ?_⟩
    rw [← FieldUnit.octet_of_getElem? ho, Instance.deserialized, FieldUnit.octet_ofOctets]
    split
    case isTrue hj =>
      rw [List.getD_eq_getElem _ _ (by simpa), Memory.getElem_octetsAt, Memory.getLsbD_octetAt _ _ hd, Memory.bit_eq_bitAt]
    case isFalse hj =>
      rw [List.getD_eq_default _ _ (by simpa using hj)]
      simp
  · have hread := readChain_eq_truncated hn hroom hfit hend hfx
    exact exec_eq_failed hx (by simp [Instr.reply, deserialize, hopen, hread])

end Command

end Sys2Proof.Machine
end

section
/-! ### Writing a chain

FX.SER: the octets on the wire, where they stand in the host buffer, and that they read back as the field
(41_extensible_field.md R142, R160, R166, R167). -/

namespace Sys2Proof.Machine

variable {s : State} {x : Instance} {m : Memory} {o : Nat} {octs : List Byte}

theorem FieldUnit.octets_length {f : FieldUnit} (h : f.n ≤ f.oct.length) : f.octets.length = f.n := by
  simp [FieldUnit.octets, h]

theorem FieldUnit.getElem_octets {f : FieldUnit} {j : Nat} (hj : j < f.octets.length) : f.octets[j] = f.octet j := by
  have hjn : j < f.n := Nat.lt_of_lt_of_le hj (List.length_take_le _ _)
  rw [FieldUnit.octet_eq_octets_getD hjn, List.getD_eq_getElem _ _ hj]

/-- The octets written read back from where they were written. -/
theorem Memory.octetAt_putOctets (h : m.wf) {j : Nat} (hj : j < octs.length) :
    (m.putOctets o octs).octetAt (o + 8 * j) = octs[j] := by
  rw [Memory.octetAt, Memory.getBits_putOctets h _ _ _ hj, BitVec.ofNat_toNat, BitVec.setWidth_eq]

theorem Memory.octetsAt_putOctets (h : m.wf) : (m.putOctets o octs).octetsAt o octs.length = octs :=
  List.ext_getElem (by simp) fun j _ hj => by rw [Memory.getElem_octetsAt, Memory.octetAt_putOctets h hj]

theorem Memory.bit_putOctets (h : m.wf) {j d : Nat} (hj : j < octs.length) (hd : d < 8) :
    (m.putOctets o octs).bit (o + 8 * j + d) = (octs[j].getLsbD (7 - d)).toNat := by
  rw [Memory.bit_eq_bitAt, ← Memory.getLsbD_octetAt _ _ hd, Memory.octetAt_putOctets h hj]

theorem getLsbD_dataMask (j : Nat) (hj : j < 8) : dataMask.getLsbD j = decide (j ≠ 0) := by revert j; decide

theorem getLsbD_fxMask (j : Nat) (hj : j < 8) : fxMask.getLsbD j = decide (j = 0) := by revert j; decide

/-- A bit of an octet on the wire: a data bit as stored, and FX 1 in all but the last octet (41_extensible_field.md R166). -/
theorem getLsbD_wireOctets {j d : Nat} (hj : j < octs.length) (hd : d < 8) :
    ((wireOctets octs)[j]'(by simpa)).getLsbD (7 - d) =
      if d < 7 then octs[j].getLsbD (7 - d) else decide (j + 1 < octs.length) := by
  have hdata : dataMask.getLsbD (7 - d) = decide (d < 7) := by
    rw [getLsbD_dataMask _ (by omega), decide_eq_decide]
    omega
  have hfx : fxMask.getLsbD (7 - d) = !decide (d < 7) := by
    rw [getLsbD_fxMask _ (by omega), ← decide_not, decide_eq_decide]
    omega
  have hbit : (octs[j] &&& dataMask).getLsbD (7 - d) = (octs[j].getLsbD (7 - d) && decide (d < 7)) := by
    rw [BitVec.getLsbD_and, hdata]
  rw [wireOctets_getElem octs j hj]
  by_cases hlast : j + 1 < octs.length
  · rw [if_pos hlast, BitVec.getLsbD_or, hbit, hfx]
    split <;> simp [*]
  · rw [if_neg hlast, hbit]
    split <;> simp [*]

/-- The data bits on the wire are those of the octets (41_extensible_field.md R142, R160). -/
theorem getElem_wireOctets_and_dataMask {j : Nat} (hj : j < octs.length) :
    (wireOctets octs)[j]'(by simpa) &&& dataMask = octs[j] &&& dataMask := by
  have hmask : fxMask &&& dataMask = 0#8 := by decide
  rw [wireOctets_getElem octs j hj]
  split
  · rw [BitVec.and_or_distrib_right, BitVec.and_assoc, BitVec.and_self, hmask, BitVec.or_zero]
  · rw [BitVec.and_assoc, BitVec.and_self]

theorem FieldUnit.wireOctets_octets_length {f : FieldUnit} (h : f.n ≤ f.oct.length) :
    (wireOctets f.octets).length = f.n := by
  rw [wireOctets_length, FieldUnit.octets_length h]

/-- `x` after FX.SER has written its field (41_extensible_field.md R160). -/
def Instance.serialized (x : Instance) : Instance :=
  { x.atOffset (x.cur.off + 8 * x.fx.n) with hb := x.hb.putOctets x.cur.off (wireOctets x.fx.octets) }

theorem exec_fxSer (hx : s.Runs x) (hopen : x.cur.isOpen = true) (hmode : x.cur.mode = .rw)
    (hfit : x.cur.off + 8 * x.fx.n ≤ 8 * x.cur.len) :
    exec .fxSer s = .next (s.after x.serialized (Response.ok (zext64 x.fx.n))) :=
  exec_eq_after hx (by
    simp [Instr.reply, serialize, hopen, hmode, Nat.not_lt.mpr hfit, Instance.serialized, Instance.advance,
      Instance.atOffset])

/-- The octets written are those of the field on the wire. -/
theorem Instance.octetsAt_serialized (hwf : x.hb.wf) (hn : x.fx.n ≤ x.fx.oct.length) :
    x.serialized.hb.octetsAt x.cur.off x.fx.n = wireOctets x.fx.octets := by
  conv_lhs => rw [← FieldUnit.wireOctets_octets_length hn]
  exact Memory.octetsAt_putOctets hwf

/-- The bits of octet `j` as written. -/
theorem Instance.bit_serialized (hwf : x.hb.wf) (hn : x.fx.n ≤ x.fx.oct.length) {j d : Nat} (hj : j < x.fx.n)
    (hd : d < 8) : x.serialized.hb.bit (x.cur.off + 8 * j + d) =
      (if d < 7 then (x.fx.octet j).getLsbD (7 - d) else decide (j + 1 < x.fx.n)).toNat := by
  have hlength := FieldUnit.octets_length hn
  rw [Instance.serialized, Memory.bit_putOctets hwf (by simpa [hlength]) hd, getLsbD_wireOctets (by omega) hd,
    FieldUnit.getElem_octets, hlength]

/-- The FX bits as written: 1 in all but the last octet (41_extensible_field.md R166). -/
theorem Instance.fxBit_serialized (hwf : x.hb.wf) (hn : x.fx.n ≤ x.fx.oct.length) {j : Nat} (hj : j < x.fx.n) :
    x.serialized.hb.bit (x.cur.off + 8 * j + 7) = if j + 1 < x.fx.n then 1 else 0 := by
  rw [Instance.bit_serialized hwf hn hj (by decide), if_neg (by decide)]
  split <;> simp [*]

/-- Settles O20: the buffer is that of `Instance.serialized`. -/
theorem fxSerWritesTheChain : Obligations.FxSerWritesTheChain := by
  rintro s x hx ⟨hn, hlength⟩ hwf
  have hlen : x.fx.n ≤ x.fx.oct.length := hlength ▸ hn
  have hwire := FieldUnit.wireOctets_octets_length hlen
  split_ifs with hclosed hmode hpast
  · exact exec_eq_failed hx (by simp [Instr.reply, serialize, hclosed, zext64])
  · exact exec_eq_failed hx (by simp [Instr.reply, serialize, hclosed, hmode])
  · exact exec_eq_failed hx (by simp [Instr.reply, serialize, hclosed, hmode, hpast])
  · have hrw : x.cur.mode = .rw := by
      cases h : x.cur.mode with
      | ro => exact absurd h hmode
      | rw => rfl
    refine ⟨x.serialized.hb, exec_fxSer hx (by simpa using hclosed) hrw (Nat.not_lt.mp hpast),
      Memory.putOctets_wf hwf _ _, fun j o hj ho d hd => ?_, fun j => Instance.fxBit_serialized hwf hlen,
      fun q hq => ?_, fun a ha => Memory.read_putOctets _ _ _ (by rwa [hwire])⟩
    · rw [Instance.bit_serialized hwf hlen hj (by omega), if_pos hd, FieldUnit.octet_of_getElem? ho]
    · rw [Memory.bit_eq_bitAt, Memory.bit_eq_bitAt, Instance.serialized,
        Memory.bitAt_putOctets_apart hwf _ _ _ (by rwa [hwire])]

end Sys2Proof.Machine
end

section
/-! ### A serialized field reads back

The command sequence of 41_extensible_field.md R167. -/

namespace Sys2Proof.Machine

variable {s t : State} {x y : Instance} {len : BitVec 32} {mode : ViewMode}

/-- `x` with a view of `len` bytes opened on it and `off` bits skipped. -/
def Instance.viewingFrom (x : Instance) (mode : ViewMode) (len off : Nat) : Instance := (x.viewing mode len).atOffset off

/-- Opening a view of the host buffer and skipping to an offset inside it, before the commands `is`. -/
theorem runAll_open_skip {off : Nat} (is : List Instr) (hy : t.Runs y) (hfit : len.toNat ≤ t.cfg.hbCap)
    (hoff : off ≤ 8 * len.toNat) :
    ∃ u, u.Runs (y.viewingFrom mode len.toNat off) ∧ u.cfg = t.cfg ∧
      runAll (.curOpen mode (.hostBuffer len) :: .curSkip (zext64 off) :: is) t =
        (runAll is u).map (fun r => (Response.ok (zext64 len.toNat) :: Response.ok 0 :: r.1, r.2)) := by
  have hlen := len.isLt
  have hword : (zext64 off).toNat = off := zext64_toNat_of_lt (by omega)
  have opened := exec_curOpen_hostBuffer (mode := mode) hy hfit
  have hopened := State.after_runs hy (y.viewing mode len.toNat) (Response.ok (zext64 len.toNat))
  have skipped := exec_curSkip (n := zext64 off) hopened rfl (by simp only [Instance.viewing_cur]; omega)
  simp only [Instance.viewing_cur, Nat.zero_add, hword] at skipped
  refine ⟨_, State.after_runs hopened (y.viewingFrom mode len.toNat off) (Response.ok 0), rfl, ?_⟩
  rw [runAll_cons_of_next opened, runAll_cons_of_next skipped, Option.map_map]
  rfl

/-- A field read from the wire octets of `f` has the data bits of `f` (41_extensible_field.md R142). -/
theorem FieldUnit.octet_ofOctets_wireOctets_and_dataMask (c : Config) {f : FieldUnit} {j : Nat} (hn : f.n ≤ f.oct.length)
    (hj : j < f.n) : (FieldUnit.ofOctets c (wireOctets f.octets)).octet j &&& dataMask = f.octet j &&& dataMask := by
  have hj : j < f.octets.length := by rwa [FieldUnit.octets_length hn]
  rw [FieldUnit.octet_ofOctets, List.getD_eq_getElem _ _ (by simpa), getElem_wireOctets_and_dataMask hj,
    FieldUnit.getElem_octets]

/-- Settles O21: FX.DESER reads back the octets FX.SER put on the wire, whose data bits are the field's. -/
theorem fxFieldRoundTrip : Obligations.FxFieldRoundTrip := by
  refine ⟨fun s x len mode hs hx hopen hmode hn hroom hfit hcap => ?_, fun s x _ hx => exec_fxDeser_of_endless hx⟩
  obtain ⟨-, -, -, -, ⟨hmax, hlength⟩, -, -, hwf, -⟩ := hs.exists_profile hx
  have hlen : x.fx.n ≤ x.fx.oct.length := hlength ▸ hmax
  have written := exec_fxSer hx hopen hmode hroom
  obtain ⟨u, hu, hcfg, placed⟩ := runAll_open_skip (mode := mode) (off := x.cur.off) [.fxDeser]
    (State.after_runs hx x.serialized (Response.ok (zext64 x.fx.n))) hcap (by omega)
  have read := exec_fxDeser_of_chain hu rfl hn (hcfg ▸ hmax) hfit
    (fun j hj => Instance.fxBit_serialized hwf hlen hj)
  have hfield : ((x.serialized.viewingFrom mode len.toNat x.cur.off).deserialized u.cfg x.fx.n).fx =
      FieldUnit.ofOctets u.cfg (wireOctets x.fx.octets) :=
    congrArg (FieldUnit.ofOctets u.cfg) (Instance.octetsAt_serialized hwf hlen)
  have hafter := State.after_runs hu ((x.serialized.viewingFrom mode len.toNat x.cur.off).deserialized u.cfg x.fx.n)
    (Response.ok (zext64 x.fx.n))
  refine ⟨[Response.ok (zext64 x.fx.n), Response.ok (zext64 len.toNat), Response.ok 0, Response.ok (zext64 x.fx.n)],
    _, _, ?_, rfl, hafter, ?_, fun j o o' hj ho ho' => ?_⟩
  · rw [runAll_cons_of_next written, placed, runAll_cons_of_next read]
    rfl
  · rw [hfield, FieldUnit.ofOctets_n, FieldUnit.wireOctets_octets_length hlen]
  · rw [hfield] at ho'
    rw [← FieldUnit.octet_of_getElem? ho, ← FieldUnit.octet_of_getElem? ho']
    exact FieldUnit.octet_ofOctets_wireOctets_and_dataMask u.cfg hlen hj

end Sys2Proof.Machine
end

section
/-! ### The checksum algorithms

What each byte does to a running checksum (42_checksum.md R170, R175, R176): the closed forms of XOR8 and FLETCHER8, the
linearity of CRC16, and that no algorithm forgets a difference. -/

namespace Sys2Proof.Machine

/-! ### XOR8 -/

theorem xor8_append (a b : List Byte) : xor8 (a ++ b) = xor8 a ^^^ xor8 b := by
  have hfold := List.foldl_assoc (op := (· ^^^ · : Byte → Byte → Byte)) (l := b) (a₁ := xor8 a) (a₂ := 0#8)
  rw [BitVec.xor_zero] at hfold
  rw [xor8, List.foldl_append]
  exact hfold

/-! ### FLETCHER8 -/

/-- The sum of the bytes (42_checksum.md R175). -/
def byteSum (s : List Byte) : Nat := (s.map (·.toNat)).sum

/-- The sum of the bytes, each weighted by its distance from the end: the first `s.length` times, the last once. -/
def weightedSum (s : List Byte) : Nat := (s.mapIdx (fun k b => (s.length - k) * b.toNat)).sum

theorem byteSum_cons (b : Byte) (s : List Byte) : byteSum (b :: s) = b.toNat + byteSum s := by
  simp [byteSum]

theorem weightedSum_cons (b : Byte) (s : List Byte) :
    weightedSum (b :: s) = (s.length + 1) * b.toNat + weightedSum s := by
  simp [weightedSum, List.mapIdx_cons]

/-- `A` and `B` after the bytes of `s`: `A` has grown by their sum, `B` by the weighted sum and once per byte by the `A` it
started with. -/
theorem foldl_fletcherByte (s : List Byte) (a b : BitVec 8) :
    s.foldl fletcherByte (a, b) =
      (a + BitVec.ofNat 8 (byteSum s), b + BitVec.ofNat 8 s.length * a + BitVec.ofNat 8 (weightedSum s)) := by
  induction s generalizing a b with
  | nil => simp [byteSum, weightedSum]
  | cons x s ih =>
    rw [List.foldl_cons, fletcherByte, ih, byteSum_cons, weightedSum_cons, List.length_cons]
    simp only [BitVec.ofNat_add, BitVec.ofNat_mul, BitVec.ofNat_toNat, BitVec.setWidth_eq, Prod.mk.injEq]
    exact ⟨by ring, by rw [show (1#8 : Byte) = 1 from rfl]; ring⟩

/-- Two neighbouring fields, as a number. -/
theorem append_toNat {m n : Nat} (x : BitVec m) (y : BitVec n) : (x ++ y).toNat = x.toNat * 2 ^ n + y.toNat := by
  rw [BitVec.toNat_append, ← Nat.shiftLeft_add_eq_or_of_lt y.isLt, Nat.shiftLeft_eq]

theorem fletcher8_toNat (s : List Byte) : (fletcher8 s).toNat = byteSum s % 256 * 256 + weightedSum s % 256 := by
  rw [fletcher8, foldl_fletcherByte]
  simpa using append_toNat (BitVec.ofNat 8 (byteSum s)) (BitVec.ofNat 8 (weightedSum s))

/-! ### CRC16 -/

/-- One round of R176 shifts, and adds the polynomial where bit 15 was 1. -/
theorem crcBit_eq (c : BitVec 16) : crcBit c = (c <<< 1) ^^^ (if c.getLsbD 15 then 0x1021 else 0) := by
  unfold crcBit
  split <;> simp

theorem crcBit_toNat (c : BitVec 16) :
    (crcBit c).toNat = if c.toNat.testBit 15 then ((c.toNat * 2) ^^^ 0x1021) % 65536 else c.toNat * 2 % 65536 := by
  rw [crcBit, BitVec.testBit_toNat]
  split
  · rw [BitVec.toNat_xor, BitVec.toNat_shiftLeft, Nat.shiftLeft_eq, Nat.xor_mod_two_pow (n := 16)]; rfl
  · rw [BitVec.toNat_shiftLeft, Nat.shiftLeft_eq]

theorem crcBit_xor (c d : BitVec 16) : crcBit (c ^^^ d) = crcBit c ^^^ crcBit d := by
  have hpolynomial (u v : Bool) : (if (u ^^ v) = true then (0x1021 : BitVec 16) else 0) =
      (if u = true then 0x1021 else 0) ^^^ (if v = true then 0x1021 else 0) := by
    cases u <;> cases v <;> rfl
  rw [crcBit_eq, crcBit_eq, crcBit_eq, BitVec.shiftLeft_xor_distrib, BitVec.getLsbD_xor, hpolynomial]
  ac_rfl

/-- The polynomial is odd, so bit 0 after a round is the bit it shifted out. -/
theorem crcBit_getLsbD_zero (c : BitVec 16) : (crcBit c).getLsbD 0 = c.getLsbD 15 := by
  rw [crcBit_eq]
  cases c.getLsbD 15 <;> simp

/-- A round loses nothing: bit 0 of the result says whether the polynomial was added, and without it the rest is shifted. -/
theorem crcBit_injective : Function.Injective crcBit := by
  intro c d h
  have htop : c.getLsbD 15 = d.getLsbD 15 := by rw [← crcBit_getLsbD_zero, h, crcBit_getLsbD_zero]
  rw [crcBit_eq, crcBit_eq, htop, BitVec.xor_left_inj] at h
  refine BitVec.eq_of_getLsbD_eq fun i hi => ?_
  by_cases hi15 : i = 15
  · rw [hi15, htop]
  · have := congrArg (·.getLsbD (i + 1)) h
    simp only [BitVec.getLsbD_shiftLeft] at this
    simpa only [Nat.add_sub_cancel, show i + 1 < 16 by omega, decide_true, Nat.succ_lt_succ_iff, Nat.not_lt_zero,
      decide_false, Bool.not_false, Bool.true_and] using this

theorem crcBits_succ (k : Nat) (c : BitVec 16) : crcBits (k + 1) c = crcBit (crcBits k c) := by
  induction k generalizing c with
  | zero => rfl
  | succ k ih => rw [crcBits, ih, crcBits]

theorem crcBits_succ_toNat (k : Nat) (c : BitVec 16) : (crcBits (k + 1) c).toNat =
    if (crcBits k c).toNat.testBit 15 then (((crcBits k c).toNat * 2) ^^^ 0x1021) % 65536
    else (crcBits k c).toNat * 2 % 65536 := by
  rw [crcBits_succ, crcBit_toNat]

theorem crcBits_xor (k : Nat) (c d : BitVec 16) : crcBits k (c ^^^ d) = crcBits k c ^^^ crcBits k d := by
  induction k with
  | zero => rfl
  | succ k ih => rw [crcBits_succ, crcBits_succ, crcBits_succ, ih, crcBit_xor]

theorem crcBits_injective (k : Nat) : Function.Injective (crcBits k) := by
  induction k with
  | zero => exact Function.injective_id
  | succ k ih => exact fun c d h => crcBit_injective (ih h)

/-- While no 1 reaches bit 15, the rounds only shift. -/
theorem crcBits_eq_shiftLeft {k : Nat} {c : BitVec 16} (h : c.toNat * 2 ^ k < 2 ^ 16) : crcBits k c = c <<< k := by
  induction k generalizing c with
  | zero => simp [crcBits]
  | succ k ih =>
    rw [pow_succ', ← mul_assoc] at h
    have hdouble : c.toNat * 2 < 2 ^ 16 := Nat.lt_of_le_of_lt (Nat.le_mul_of_pos_right _ (Nat.two_pow_pos k)) h
    have hc : c.toNat < 2 ^ 15 := by omega
    have hshift : (c <<< 1).toNat = c.toNat * 2 := by
      rw [BitVec.toNat_shiftLeft, Nat.shiftLeft_eq, Nat.mod_eq_of_lt hdouble]
    have hround : crcBit c = c <<< 1 := by
      rw [crcBit, ← BitVec.testBit_toNat, Nat.testBit_lt_two_pow hc, if_neg Bool.false_ne_true]
    rw [crcBits, hround, ih (by rwa [hshift]), Nat.add_comm, BitVec.shiftLeft_add]

theorem crcByte_xor (c d : BitVec 16) (x y : Byte) : crcByte (c ^^^ d) (x ^^^ y) = crcByte c x ^^^ crcByte d y := by
  have hbyte : (x ^^^ y) ++ 0#8 = (x ++ 0#8) ^^^ (y ++ 0#8) := by rw [BitVec.xor_append, BitVec.xor_self]
  rw [crcByte, crcByte, crcByte, ← crcBits_xor, hbyte]
  ac_rfl

theorem foldl_crcByte_xor {a b : List Byte} (h : a.length = b.length) (c d : BitVec 16) :
    (a.zipWith (· ^^^ ·) b).foldl crcByte (c ^^^ d) = a.foldl crcByte c ^^^ b.foldl crcByte d := by
  induction a generalizing b c d with
  | nil => cases b with
    | nil => rfl
    | cons y b => cases h
  | cons x a ih => cases b with
    | nil => cases h
    | cons y b =>
      rw [List.zipWith_cons_cons, List.foldl_cons, List.foldl_cons, List.foldl_cons, crcByte_xor, ih (Nat.succ.inj h)]

theorem crc16_concat (s : List Byte) (b : Byte) : crc16 (s ++ [b]) = crcByte (crc16 s) b := by
  rw [crc16, List.foldl_append]; rfl

theorem zero_append_shiftLeft (b : Byte) : (0#8 ++ b : BitVec (8 + 8)) <<< 8 = b ++ 0#8 := by
  revert b
  decide

/-- The high byte of the running checksum clears it from the register: eight rounds shift its low byte up. -/
theorem crcByte_highByte (c : BitVec 16) : crcByte c (highByte c) = (lowByte c ++ 0#8 : BitVec (8 + 8)) := by
  have hsplit : (highByte c ++ lowByte c : BitVec (8 + 8)) = c := BitVec.extractLsb'_append_extractLsb'
  have hcleared : c ^^^ (highByte c ++ 0#8 : BitVec (8 + 8)) = (0#8 ++ lowByte c : BitVec (8 + 8)) := by
    conv_lhs => arg 1; rw [← hsplit]
    rw [BitVec.xor_append, BitVec.xor_self, BitVec.xor_zero]
  have hsmall : (0#8 ++ lowByte c : BitVec (8 + 8)).toNat * 2 ^ 8 < 2 ^ 16 := by
    have := (lowByte c).isLt
    rw [append_toNat, BitVec.toNat_zero]
    omega
  rw [crcByte, hcleared, crcBits_eq_shiftLeft hsmall]
  exact zero_append_shiftLeft _

theorem crcByte_self (b : Byte) : crcByte (b ++ 0#8 : BitVec (8 + 8)) b = 0 := by
  rw [crcByte, BitVec.xor_self]
  rfl

/-- A sequence followed by its CRC16, high byte first, has CRC16 0 (42_checksum.md R176). -/
theorem crc16_append_wire16 (s : List Byte) : crc16 (s ++ wire16 .be (crc16 s)) = 0 := by
  have happend : s ++ wire16 .be (crc16 s) = (s ++ [highByte (crc16 s)]) ++ [lowByte (crc16 s)] := by simp [wire16]
  rw [happend, crc16_concat, crc16_concat, crcByte_highByte, crcByte_self]

theorem highByte_eq (v : BitVec 16) : highByte v = BitVec.ofNat 8 (v.toNat / 256) := by
  rw [highByte, BitVec.extractLsb', Nat.shiftRight_eq_div_pow]

theorem lowByte_eq (v : BitVec 16) : lowByte v = BitVec.ofNat 8 v.toNat := rfl

theorem wire16_be (v : BitVec 16) : wire16 .be v = [BitVec.ofNat 8 (v.toNat / 256), BitVec.ofNat 8 v.toNat] := by
  rw [wire16, highByte_eq, lowByte_eq]

theorem wire16_le (v : BitVec 16) : wire16 .le v = [BitVec.ofNat 8 v.toNat, BitVec.ofNat 8 (v.toNat / 256)] := by
  rw [wire16, highByte_eq, lowByte_eq]

/-- The check value of R176: the CRC16 of "123456789". -/
theorem crc16_checkValue : crc16 [0x31, 0x32, 0x33, 0x34, 0x35, 0x36, 0x37, 0x38, 0x39] = 0x31C3 := by
  simp [crc16, crcByte, crcBits, crcBit]

/-- Settles O26: XOR8 by its fold, FLETCHER8 by `foldl_fletcherByte`, CRC16 by its rounds, which are linear. -/
theorem checksumsInClosedForm : Obligations.ChecksumsInClosedForm := by
  refine ⟨⟨rfl, fun b => BitVec.zero_xor, xor8_append⟩, fletcher8_toNat, rfl, fun a b => ?_, crc16_checkValue,
    fun a b h => foldl_crcByte_xor h 0 0, fun a => ?_⟩
  · refine ⟨fun k => (crcBits k (crc16 a ^^^ (b ++ 0#8 : BitVec (8 + 8)))).toNat, ?_,
      fun k _ => crcBits_succ_toNat k _, congrArg BitVec.toNat (crc16_concat a b)⟩
    exact (BitVec.toNat_xor _ _).trans (by simp only [append_toNat, BitVec.toNat_zero, Nat.add_zero, Nat.reducePow])
  · rw [← wire16_be]
    exact crc16_append_wire16 a

/-! ### A change of one byte -/

theorem foldl_injective {σ : Type} {f : σ → Byte → σ} (hstate : ∀ x, Function.Injective (f · x)) (s : List Byte) :
    Function.Injective (fun c => s.foldl f c) := by
  induction s with
  | nil => exact Function.injective_id
  | cons x s ih => exact fun c d h => hstate x (ih h)

/-- A fold whose step forgets neither the state nor the byte keeps a difference in one byte to the end. -/
theorem foldl_ne_of_one_byte {σ : Type} {f : σ → Byte → σ} (hstate : ∀ x, Function.Injective (f · x))
    (hbyte : ∀ c, Function.Injective (f c)) (c : σ) (before after : List Byte) {b b' : Byte} (hb : b ≠ b') :
    (before ++ b :: after).foldl f c ≠ (before ++ b' :: after).foldl f c := by
  rw [List.foldl_append, List.foldl_append, List.foldl_cons, List.foldl_cons]
  exact fun h => hb (hbyte _ (foldl_injective hstate after h))

variable {b b' : Byte} (before after : List Byte)

theorem xor8_ne_of_one_byte (hb : b ≠ b') : xor8 (before ++ b :: after) ≠ xor8 (before ++ b' :: after) :=
  foldl_ne_of_one_byte (fun x _ _ h => (BitVec.xor_left_inj x).mp h) (fun c _ _ h => (BitVec.xor_right_inj c).mp h) 0
    before after hb

theorem fletcherByte_injective_state (x : Byte) : Function.Injective (fletcherByte · x) := by
  rintro ⟨a, b⟩ ⟨a', b'⟩ h
  obtain ⟨ha, hb⟩ := Prod.mk.inj h
  obtain rfl : a = a' := (BitVec.add_left_inj x).mp ha
  obtain rfl : b = b' := (BitVec.add_left_inj _).mp hb
  rfl

theorem fletcherByte_injective_byte (c : BitVec 8 × BitVec 8) : Function.Injective (fletcherByte c) :=
  fun _ _ h => (BitVec.add_right_inj c.1).mp (Prod.mk.inj h).1

theorem fletcher8_ne_of_one_byte (hb : b ≠ b') :
    fletcher8 (before ++ b :: after) ≠ fletcher8 (before ++ b' :: after) := by
  intro h
  refine foldl_ne_of_one_byte fletcherByte_injective_state fletcherByte_injective_byte (0, 0) before after hb ?_
  have hhigh := congrArg highByte h
  have hlow := congrArg lowByte h
  simp only [fletcher8, highByte, lowByte] at hhigh hlow
  rw [BitVec.extractLsb'_append_eq_left, BitVec.extractLsb'_append_eq_left] at hhigh
  rw [BitVec.extractLsb'_append_eq_right, BitVec.extractLsb'_append_eq_right] at hlow
  exact Prod.ext hhigh hlow

theorem crcByte_injective_state (x : Byte) : Function.Injective (crcByte · x) :=
  fun _ _ h => (BitVec.xor_left_inj _).mp (crcBits_injective 8 h)

theorem crcByte_injective_byte (c : BitVec 16) : Function.Injective (crcByte c) := fun _ _ h =>
  (BitVec.append_left_inj _).mp ((BitVec.xor_right_inj c).mp (crcBits_injective 8 h))

theorem crc16_ne_of_one_byte (hb : b ≠ b') : crc16 (before ++ b :: after) ≠ crc16 (before ++ b' :: after) :=
  foldl_ne_of_one_byte crcByte_injective_state crcByte_injective_byte 0 before after hb

/-! ### The checksum as a number -/

/-- The checksum of `s` as a number. -/
def checksumValue : CkKind → List Byte → Nat
  | .xor8, s => (xor8 s).toNat
  | .fletcher8, s => (fletcher8 s).toNat
  | .crc16, s => (crc16 s).toNat

theorem checksumValue_lt (k : CkKind) (s : List Byte) : checksumValue k s < 2 ^ 16 := by
  cases k with
  | xor8 => exact Nat.lt_trans (xor8 s).isLt (by decide)
  | fletcher8 => exact (fletcher8 s).isLt
  | crc16 => exact (crc16 s).isLt

theorem checksumOf_eq_zext64 (k : CkKind) (s : List Byte) : checksumOf k s = zext64 (checksumValue k s) := by
  cases k <;> exact (BitVec.ofNat_toNat ..).symm

theorem checksumOf_toNat (k : CkKind) (s : List Byte) : (checksumOf k s).toNat = checksumValue k s := by
  rw [checksumOf_eq_zext64, zext64_toNat_of_lt (Nat.lt_trans (checksumValue_lt k s) (by decide))]

/-- Settles O27: each algorithm folds a step that forgets nothing, and the response is wide enough for its checksum. -/
theorem oneByteErrorChangesTheChecksum : Obligations.OneByteErrorChangesTheChecksum := by
  intro kind before after b b' hb h
  rw [← BitVec.toNat_inj, checksumOf_toNat, checksumOf_toNat] at h
  cases kind with
  | xor8 => exact xor8_ne_of_one_byte before after hb (BitVec.eq_of_toNat_eq h)
  | fletcher8 => exact fletcher8_ne_of_one_byte before after hb (BitVec.eq_of_toNat_eq h)
  | crc16 => exact crc16_ne_of_one_byte before after hb (BitVec.eq_of_toNat_eq h)

end Sys2Proof.Machine
end

section
/-! ### The wire forms of a checksum

Hex digits and the two bytes CK.FORMAT answers (42_checksum.md R171, R172, R176, R181). -/

namespace Sys2Proof.Machine

theorem hexu_isUpperHexDigit (d : BitVec 4) :
    (0x30 ≤ (hexu d).toNat ∧ (hexu d).toNat ≤ 0x39) ∨ (0x41 ≤ (hexu d).toNat ∧ (hexu d).toNat ≤ 0x46) := by
  revert d
  decide

theorem highNibble_eq (v : BitVec 8) : v.extractLsb' 4 4 = BitVec.ofNat 4 (v.toNat / 16) := by
  rw [BitVec.extractLsb', Nat.shiftRight_eq_div_pow]

theorem lowNibble_eq (v : BitVec 8) : v.extractLsb' 0 4 = BitVec.ofNat 4 v.toNat := rfl

theorem formatXor8_eq (v : BitVec 8) :
    formatXor8 v = [hexu (BitVec.ofNat 4 (v.toNat / 16)), hexu (BitVec.ofNat 4 v.toNat)] := by
  rw [formatXor8, highNibble_eq, lowNibble_eq]

/-- Settles O25: a byte is two digits of `hexu`, which `hexval` reads back; `hexval` is R172 as it stands. -/
theorem hexDigitsReadBack : Obligations.HexDigitsReadBack := by
  refine ⟨fun v => ⟨_, _, formatXor8_eq v, ?_, ?_, ?_⟩, fun c => rfl⟩
  · have := v.isLt
    rw [hexval_hexu, BitVec.toNat_ofNat, Nat.mod_eq_of_lt (by omega)]
  · rw [hexval_hexu, BitVec.toNat_ofNat]
  · simp only [List.mem_cons, List.not_mem_nil, or_false]
    rintro d (rfl | rfl) <;> exact hexu_isUpperHexDigit _

end Sys2Proof.Machine
end

section
/-! ### The checksum commands

The kind codes, the info words and what CK.COMPUTE, CK.CHECK and CK.FORMAT answer (30_encoding.md R88 to R90;
42_checksum.md R180 to R182). -/

namespace Sys2Proof.Machine

variable {kind : BitVec 4} {k : CkKind}

/-- Codes above 2 name no kind (30_encoding.md R88). -/
theorem kindOfCode_eq_none_iff : kindOfCode kind = none ↔ 2 < kind.toNat := by revert kind; decide

theorem kindOfCode_eq_xor8_iff : kindOfCode kind = some .xor8 ↔ kind = 0 := by revert kind; decide

theorem kindOfCode_eq_fletcher8_iff : kindOfCode kind = some .fletcher8 ↔ kind = 1 := by revert kind; decide

theorem kindOfCode_eq_crc16_iff : kindOfCode kind = some .crc16 ↔ kind = 2 := by revert kind; decide

theorem not_two_lt_of_kindOfCode (hk : kindOfCode kind = some k) : ¬ 2 < kind.toNat := fun h =>
  Option.some_ne_none k (hk.symm.trans (kindOfCode_eq_none_iff.mpr h))

theorem checksumValue_of_kindOfCode (hk : kindOfCode kind = some k) (bytes : List Byte) :
    (if kind = 0 then (xor8 bytes).toNat else if kind = 1 then (fletcher8 bytes).toNat else (crc16 bytes).toNat) =
      checksumValue k bytes := by
  cases k with
  | xor8 => rw [if_pos (kindOfCode_eq_xor8_iff.mp hk), checksumValue]
  | fletcher8 => rw [kindOfCode_eq_fletcher8_iff.mp hk, if_neg (by decide), if_pos rfl, checksumValue]
  | crc16 => rw [kindOfCode_eq_crc16_iff.mp hk, if_neg (by decide), if_neg (by decide), checksumValue]

/-! ### The info words -/

theorem setWidth_eq_zext64 {w : Nat} (v : BitVec w) : v.setWidth 64 = zext64 v.toNat := (BitVec.ofNat_toNat ..).symm

/-- A command word as a number (30_encoding.md R80). -/
theorem mkCmd_toNat (o w : BitVec 8) (i : BitVec 16) :
    (mkCmd o w i).toNat = (o.toNat * 2 ^ 8 + w.toNat) * 2 ^ 16 + i.toNat := by
  rw [mkCmd, append_toNat, append_toNat]

theorem commandInfo_eq {i : Instr} {o w : BitVec 8} {imm : BitVec 16} (h : encodeCmd i = mkCmd o w imm) :
    commandInfo i = zext64 ((o.toNat * 2 ^ 8 + w.toNat) * 2 ^ 16 + imm.toNat) := by
  rw [commandInfo, h, setWidth_eq_zext64, mkCmd_toNat]

theorem commandInfo_ckCheck_zero (rx : BitVec 16) (start n : BitVec 32) :
    commandInfo (.ckCheck 0 rx start n) = zext64 (0x32000000 + rx.toNat) :=
  commandInfo_eq (o := 0x32) (w := 0) rfl

/-- The word of a CK.FORMAT with the order bit set. -/
theorem commandInfo_ckFormat_true (kind : BitVec 4) (v : BitVec 16) :
    commandInfo (.ckFormat true kind v) = zext64 (0x31100000 + kind.toNat * 2 ^ 16) := by
  have hfield : (0#3 ++ BitVec.ofBool true ++ kind : BitVec (3 + 1 + 4)).toNat = 2 ^ 4 + kind.toNat := append_toNat _ kind
  rw [commandInfo_eq rfl, hfield]
  congr 1
  simp only [BitVec.reduceToNat]
  omega

/-! ### CK.COMPUTE and CK.CHECK -/

theorem Memory.holds_readBytes (m : Memory) (a n : Nat) : Holds m a n (m.readBytes a n) :=
  ⟨Memory.readBytes_length m a n, fun k hk => Memory.getElem?_readBytes m a n k hk⟩

theorem not_rangeFits_iff {c : Config} {start n : BitVec 32} :
    (!rangeFits c start n) = true ↔ c.hbCap < start.toNat + n.toNat := by
  simp [rangeFits]

/-- Settles O22: the range is read whole, and its checksum answered as `checksumOf_eq_zext64` says. -/
theorem ckComputeGivesTheChecksum : Obligations.CkComputeGivesTheChecksum := by
  intro s x kind start n hx
  cases hk : kindOfCode kind with
  | none =>
    rw [if_pos (kindOfCode_eq_none_iff.mp hk)]
    exact exec_eq_failed hx (by rw [Instr.reply, hk, setWidth_eq_zext64])
  | some k =>
    rw [if_neg (not_two_lt_of_kindOfCode hk)]
    split
    case isTrue hpast =>
      exact exec_eq_failed hx (by simp only [Instr.reply, hk, if_pos (not_rangeFits_iff.mpr hpast), setWidth_eq_zext64])
    case isFalse hin =>
      refine ⟨_, Memory.holds_readBytes .., exec_eq_after hx ?_⟩
      simp only [Instr.reply, hk, if_neg (mt not_rangeFits_iff.mp hin), checksumOf_eq_zext64,
        checksumValue_of_kindOfCode hk]

theorem highByte_eq_zero_iff (v : BitVec 16) : highByte v = 0 ↔ ¬ 256 ≤ v.toNat := by
  have := v.isLt
  rw [highByte_eq, ← BitVec.toNat_inj, BitVec.toNat_ofNat, show (0 : Byte).toNat = 0 from rfl]
  omega

/-- CK.CHECK compares the two checksums as numbers (42_checksum.md R182). -/
theorem bit01_checksumOf_beq (k : CkKind) (bytes : List Byte) (rx : BitVec 16) :
    bit01 (checksumOf k bytes == rx.setWidth 64) = if checksumValue k bytes = rx.toNat then 1 else 0 := by
  have hiff : checksumOf k bytes = rx.setWidth 64 ↔ checksumValue k bytes = rx.toNat := by
    rw [← BitVec.toNat_inj, checksumOf_toNat, BitVec.toNat_setWidth_of_le (by decide)]
  simp only [bit01, beq_iff_eq, hiff]

/-- The check of `IMM[15:8]` that CK.CHECK makes for XOR8 alone (42_checksum.md R182). -/
theorem ckCheck_reserved_iff (hk : kindOfCode kind = some k) (rx : BitVec 16) :
    (k == .xor8 && highByte rx != 0) = true ↔ kind = 0 ∧ 256 ≤ rx.toNat := by
  rw [Bool.and_eq_true, beq_iff_eq, bne_iff_ne, ne_eq, highByte_eq_zero_iff, not_not, ← kindOfCode_eq_xor8_iff, hk,
    Option.some_inj]

/-- Settles O23: the checks of R182 in order, then the comparison of `bit01_checksumOf_beq`. -/
theorem ckCheckComparesTheChecksum : Obligations.CkCheckComparesTheChecksum := by
  intro s x kind rx start n hx
  cases hk : kindOfCode kind with
  | none =>
    rw [if_pos (kindOfCode_eq_none_iff.mp hk)]
    exact exec_eq_failed hx (by rw [Instr.reply, hk, setWidth_eq_zext64])
  | some k =>
    rw [if_neg (not_two_lt_of_kindOfCode hk)]
    have hreserved := ckCheck_reserved_iff hk rx
    split
    case isTrue hillegal =>
      refine exec_eq_failed hx ?_
      simp only [Instr.reply, hk, if_pos (hreserved.mpr hillegal)]
      rw [hillegal.1, commandInfo_ckCheck_zero]
    case isFalse hlegal =>
      split
      case isTrue hpast =>
        refine exec_eq_failed hx ?_
        simp only [Instr.reply, hk, if_neg (mt hreserved.mp hlegal), if_pos (not_rangeFits_iff.mpr hpast),
          setWidth_eq_zext64]
      case isFalse hin =>
        refine ⟨_, Memory.holds_readBytes .., exec_eq_after hx ?_⟩
        simp only [Instr.reply, hk, if_neg (mt hreserved.mp hlegal), if_neg (mt not_rangeFits_iff.mp hin),
          bit01_checksumOf_beq, checksumValue_of_kindOfCode hk]

/-! ### CK.FORMAT -/

/-- CK.FORMAT runs on the state alone (42_checksum.md R181). -/
theorem exec_ckFormat (order : Bool) (kind : BitVec 4) (v : BitVec 16) (s : State) :
    exec (.ckFormat order kind v) s = execCkFormat order kind v s := rfl

/-- An error whose info word is a number leaves `State.failed` (60_exceptions.md R302). -/
theorem State.raise_zext64 (s : State) (e : Status) (info : Nat) : s.raise e (zext64 info) = .next (s.failed e info) := rfl

/-- The check of the order bit that CK.FORMAT makes (42_checksum.md R181). -/
theorem ckFormat_reserved_iff (hk : kindOfCode kind = some k) (order : Bool) :
    (k != .crc16 && order) = true ↔ kind ≠ 2 ∧ order = true := by
  rw [Bool.and_eq_true, bne_iff_ne, ne_eq, ne_eq, ← kindOfCode_eq_crc16_iff, hk, Option.some_inj]

/-- The two digits of a low byte are those of the 16-bit value's last two. -/
theorem formatXor8_lowByte (v : BitVec 16) :
    formatXor8 (lowByte v) = [hexu (BitVec.ofNat 4 (v.toNat / 16)), hexu (BitVec.ofNat 4 v.toNat)] := by
  have hhigh : BitVec.ofNat 4 ((lowByte v).toNat / 16) = BitVec.ofNat 4 (v.toNat / 16) := by
    rw [lowByte_eq]; bv_omega
  have hlow : BitVec.ofNat 4 (lowByte v).toNat = BitVec.ofNat 4 v.toNat := by
    rw [lowByte_eq]; bv_omega
  rw [formatXor8_eq, hhigh, hlow]

theorem formatOf_of_kindOfCode (hk : kindOfCode kind = some k) (order : Bool) (v : BitVec 16) :
    formatOf k order v =
      if kind = 0 then [hexu (BitVec.ofNat 4 (v.toNat / 16)), hexu (BitVec.ofNat 4 v.toNat)]
      else if kind = 1 ∨ order = true then [BitVec.ofNat 8 (v.toNat / 256), BitVec.ofNat 8 v.toNat]
      else [BitVec.ofNat 8 v.toNat, BitVec.ofNat 8 (v.toNat / 256)] := by
  cases k with
  | xor8 => rw [if_pos (kindOfCode_eq_xor8_iff.mp hk), formatOf, formatXor8_lowByte]
  | fletcher8 => rw [kindOfCode_eq_fletcher8_iff.mp hk, if_neg (by decide), if_pos (.inl rfl), formatOf, wire16_be]
  | crc16 =>
    rw [kindOfCode_eq_crc16_iff.mp hk, if_neg (by decide)]
    cases order with
    | true => rw [if_pos (.inr rfl), formatOf, if_pos rfl, wire16_be]
    | false => rw [if_neg (by decide), formatOf, if_neg (by decide), wire16_le]

/-- Settles O24: the kind, then the order bit, then the bytes of `formatOf_of_kindOfCode`. -/
theorem ckFormatRendersTheWireForm : Obligations.CkFormatRendersTheWireForm := by
  intro s order kind v
  rw [exec_ckFormat, execCkFormat]
  cases hk : kindOfCode kind with
  | none => rw [if_pos (kindOfCode_eq_none_iff.mp hk), setWidth_eq_zext64, State.raise_zext64]
  | some k =>
    rw [if_neg (not_two_lt_of_kindOfCode hk)]
    have hreserved := ckFormat_reserved_iff hk order
    split
    case isTrue hillegal =>
      obtain ⟨-, rfl⟩ := id hillegal
      simp only [if_pos (hreserved.mpr hillegal), commandInfo_ckFormat_true, State.raise_zext64]
    case isFalse hlegal =>
      simp only [if_neg (mt hreserved.mp hlegal), formatOf_of_kindOfCode hk]
      rfl

end Sys2Proof.Machine
end

/-! ## The frame parser

What FP.PUSH, FP.RESET and FP.WRAP answer, state by state of the parser, and what a stream of bytes leaves
(43_frame_parser.md R200 to R243). -/

section
/-! ### One push

FP.PUSH is one step of the parser of the profile in use, which `State.pushed` carries out (43_frame_parser.md R210,
R212). -/

namespace Sys2Proof.Machine

variable {s : State} {x : Instance} {p : Profile} {b : Byte} {r : PushStep}

/-- The frame output after a push, written as the statements write it (43_frame_parser.md R210). -/
theorem State.after_afterPush (s : State) (x : Instance) (r : PushStep) :
    s.after (x.afterPush r) r.response = s.pushed x r.fp r.ok r.frame := by
  obtain ⟨fp, ok, frame⟩ := r
  cases frame <;> rfl

/-- A push carries out the parser's step on the byte. -/
theorem exec_fpPush (hx : s.Runs x) (hp : s.cfg.instProfile? s.port = some p) (hr : parserStep s.cfg p x.fp b = some r) :
    exec (.fpPush b) s = .next (s.pushed x r.fp r.ok r.frame) := by
  rw [← State.after_afterPush]
  exact exec_eq_after hx (by simp [Instr.reply, hp, hr])

/-- Settles O28: the parser's step exists and is lawful in every state that meets the invariant. -/
theorem pushResultLaw : Obligations.PushResultLaw := by
  intro s x b hs hx
  obtain ⟨p, hp, hw, -, -, hfp, -⟩ := hs.exists_profile hx
  obtain ⟨r, hr, -, hlawful⟩ := parserStep_keeps hw hfp b
  exact ⟨r.fp, r.ok, r.frame, exec_fpPush hx hp hr, hlawful⟩

/-- Settles O36: under the invariant the cleared registers are the reset values. -/
theorem fpResetClearsTheParser : Obligations.FpResetClearsTheParser := by
  intro s x p hx hp hfp
  have hreset : exec .fpReset s =
      .next (s.after { x with fp := ParserUnit.initial s.cfg p, fo := x.fo.drop } (Response.ok 0)) :=
    exec_eq_after hx (by simp [Instr.reply, hp, hfp.reset_eq])
  rw [hreset]
  cases p <;> rfl

end Sys2Proof.Machine
end

section
/-! ### The TEXT states

One equation per TEXT state for a byte that starts no frame, and one for a byte that does (43_frame_parser.md R201 to
R209). -/

namespace Sys2Proof.Machine

variable {c : Config} {s : State} {x : Instance} {fp : ParserUnit} {b : Byte} {r : PushStep}

theorem isStart_iff : isStart b = true ↔ b = 0x24 ∨ b = 0x21 := by
  simp [isStart, chDollar, chBang]

theorem isStart_eq_false (hdollar : b ≠ 0x24) (hbang : b ≠ 0x21) : isStart b = false :=
  Bool.eq_false_iff.mpr fun h => (isStart_iff.mp h).elim hdollar hbang

/-- A start byte starts a frame in every TEXT state (43_frame_parser.md R201, R206). -/
theorem textStep_of_isStart (hst : ParserState.fits .text fp.st = true) (hb : isStart b = true) :
    textStep c fp b = some (PushStep.quiet (textStart fp)) := by
  unfold textStep
  cases h : fp.st with
  | sync | accumulating | checksum1 | checksum2 | expectCr | expectLf => simp only [hb, if_true]
  | bSync | bHeader | bPayload | bTrailer => rw [h] at hst; cases hst

theorem textStep_sync (hst : fp.st = .sync) (hb : isStart b = false) : textStep c fp b = some (PushStep.quiet fp) := by
  simp [textStep, hst, hb]

theorem textStep_accumulating (hst : fp.st = .accumulating) (hb : isStart b = false) :
    textStep c fp b = some (textAccumulate c fp b) := by
  simp [textStep, hst, hb]

theorem textStep_checksum1 (hst : fp.st = .checksum1) (hb : isStart b = false) :
    textStep c fp b = some (textChecksum1 fp b) := by
  simp [textStep, hst, hb]

theorem textStep_checksum2 (hst : fp.st = .checksum2) (hb : isStart b = false) :
    textStep c fp b = some (textChecksum2 fp b) := by
  simp [textStep, hst, hb]

theorem textStep_expectCr (hst : fp.st = .expectCr) (hb : isStart b = false) :
    textStep c fp b = some (textExpectCr fp b) := by
  simp [textStep, hst, hb]

theorem textStep_expectLf (hst : fp.st = .expectLf) (hb : isStart b = false) :
    textStep c fp b = some (textExpectLf c fp b) := by
  simp [textStep, hst, hb]

/-- A push of a TEXT parser. -/
theorem exec_fpPush_text (hx : s.Runs x) (hp : s.cfg.instProfile? s.port = some .text)
    (hr : textStep s.cfg x.fp b = some r) : exec (.fpPush b) s = .next (s.pushed x r.fp r.ok r.frame) :=
  exec_fpPush hx hp hr

/-- Settles O29: `textStart` clears the two registers, and `Sync` ignores the other bytes. -/
theorem textStartByteStartsAFrame : Obligations.TextStartByteStartsAFrame := by
  intro s x b hx hp hfit
  refine ⟨fun hb => ?_, fun hb hst => ?_⟩
  · exact exec_fpPush_text hx hp (textStep_of_isStart hfit (isStart_iff.mpr hb))
  · exact exec_fpPush_text hx hp (textStep_sync hst (Bool.eq_false_iff.mpr (mt isStart_iff.mp hb)))

/-- A list with one entry set (00_scope.md R9). -/
theorem replaced_set {α : Type} {l : List α} {n : Nat} (h : n < l.length) (a : α) : Replaced l n a (l.set n a) :=
  ⟨List.length_set, List.getElem?_set_self h, fun _ hk => List.getElem?_set_ne (Ne.symm hk)⟩

theorem textAccumulate_star : textAccumulate c fp chStar = PushStep.quiet { fp with st := .checksum1 } := if_pos rfl

theorem textAccumulate_cr : textAccumulate c fp chCr =
    { fp := textIdle fp, ok := false, frame := if c.nockEmit then some (textFrame c fp.accumulated false) else none } :=
  (if_neg (by decide)).trans (if_pos rfl)

theorem textAccumulate_full (hstar : b ≠ chStar) (hcr : b ≠ chCr) (hfull : fp.cnt = c.bufCap) :
    textAccumulate c fp b = textAbort fp :=
  (if_neg hstar).trans ((if_neg hcr).trans (if_pos hfull))

theorem textAccumulate_room (hstar : b ≠ chStar) (hcr : b ≠ chCr) (hroom : fp.cnt ≠ c.bufCap) :
    textAccumulate c fp b = PushStep.quiet { fp with buf := fp.buf.set fp.cnt b, cnt := fp.cnt + 1 } :=
  (if_neg hstar).trans ((if_neg hcr).trans (if_neg hroom))

/-- Settles O30: the four cases of `textAccumulate`; the invariant leaves room for the byte in the last. -/
theorem textAccumulatesBytes : Obligations.TextAccumulatesBytes := by
  intro s x b hx hp hfp hst hdollar hbang
  obtain ⟨-, hlength, hcnt, -⟩ := hfp
  have push := exec_fpPush_text hx hp (textStep_accumulating hst (isStart_eq_false hdollar hbang))
  split
  case isTrue hstar =>
    obtain rfl : b = chStar := hstar
    rwa [textAccumulate_star] at push
  case isFalse hstar =>
    split
    case isTrue hcr =>
      obtain rfl : b = chCr := hcr
      rwa [textAccumulate_cr] at push
    case isFalse hcr =>
      split
      case isTrue hfull => rwa [textAccumulate_full hstar hcr hfull] at push
      case isFalse hroom =>
        rw [textAccumulate_room hstar hcr hroom] at push
        exact ⟨_, replaced_set (by omega) b, push⟩

theorem textChecksum1_of_hexval {d : Nat} (h : hexval b = some d) :
    textChecksum1 fp b = PushStep.quiet { fp with st := .checksum2, ckrx := BitVec.ofNat 8 (d * 16) } := by
  rw [textChecksum1, h]

theorem textChecksum1_of_not_hex (h : hexval b = none) : textChecksum1 fp b = textAbort fp := by
  rw [textChecksum1, h]

theorem textChecksum2_of_hexval {d : Nat} (h : hexval b = some d) :
    textChecksum2 fp b = PushStep.quiet { fp with st := .expectCr, ckrx := fp.ckrx + BitVec.ofNat 8 d } := by
  rw [textChecksum2, h]

theorem textChecksum2_of_not_hex (h : hexval b = none) : textChecksum2 fp b = textAbort fp := by
  rw [textChecksum2, h]

theorem textExpectCr_cr : textExpectCr fp chCr = PushStep.quiet { fp with st := .expectLf } := if_pos rfl

theorem textExpectCr_of_ne (h : b ≠ chCr) : textExpectCr fp b = textAbort fp := if_neg h

theorem textExpectLf_of_valid (h : xor8 fp.accumulated = fp.ckrx) : textExpectLf c fp chLf =
    { fp := textIdle fp, ok := true, frame := some (textFrame c fp.accumulated true) } :=
  (if_pos rfl).trans (if_pos h)

/-- A mismatch and a wrong byte both leave `Sync` and emit nothing (43_frame_parser.md R204, R209). -/
theorem textExpectLf_of_not_valid (h : ¬(b = chLf ∧ xor8 fp.accumulated = fp.ckrx)) :
    textExpectLf c fp b = PushStep.quiet (textIdle fp) := by
  by_cases hlf : b = chLf
  · exact (if_pos hlf).trans (if_neg fun hxor => h ⟨hlf, hxor⟩)
  · exact if_neg hlf

/-- Settles O31: the four states after the `'*'`, each with the byte it expects and with any other. -/
theorem textChecksumAndTerminators : Obligations.TextChecksumAndTerminators := by
  intro s x b hx hp hdollar hbang
  have hb := isStart_eq_false hdollar hbang
  refine ⟨fun hst => ?_, fun hst => ?_, fun hst => ?_, fun hst => ?_⟩
  · have push := exec_fpPush_text hx hp (textStep_checksum1 hst hb)
    cases hd : hexval b with
    | some d => rwa [textChecksum1_of_hexval hd] at push
    | none => rwa [textChecksum1_of_not_hex hd] at push
  · have push := exec_fpPush_text hx hp (textStep_checksum2 hst hb)
    cases hd : hexval b with
    | some d => rwa [textChecksum2_of_hexval hd] at push
    | none => rwa [textChecksum2_of_not_hex hd] at push
  · have push := exec_fpPush_text hx hp (textStep_expectCr hst hb)
    split
    case isTrue hcr =>
      obtain rfl : b = chCr := hcr
      rwa [textExpectCr_cr] at push
    case isFalse hcr => rwa [textExpectCr_of_ne hcr] at push
  · have push := exec_fpPush_text hx hp (textStep_expectLf hst hb)
    split
    case isTrue hvalid =>
      obtain ⟨rfl, hxor⟩ : b = chLf ∧ xor8 x.fp.accumulated = x.fp.ckrx := hvalid
      rwa [textExpectLf_of_valid hxor] at push
    case isFalse hvalid => rwa [textExpectLf_of_not_valid hvalid] at push

end Sys2Proof.Machine
end

section
/-! ### Message ids and header fields

The id of a TEXT and of a BINARY frame, and a header field as the weighted sum of its bytes (43_frame_parser.md R207, R223,
R227). -/

namespace Sys2Proof.Machine

variable {h s pre : List Byte} {b : Byte} {off n i v : Nat}

theorem addressField_of_not_mem (h : chComma ∉ pre) : addressField pre = pre := by
  induction pre with
  | nil => rfl
  | cons b bs ih =>
    obtain ⟨hb, hbs⟩ := not_or.mp (mt List.mem_cons.mpr h)
    rw [addressField, if_neg (Ne.symm hb), ih hbs]

theorem addressField_append_comma (h : chComma ∉ pre) (rest : List Byte) : addressField (pre ++ chComma :: rest) = pre := by
  induction pre with
  | nil => exact if_pos rfl
  | cons b bs ih =>
    obtain ⟨hb, hbs⟩ := not_or.mp (mt List.mem_cons.mpr h)
    rw [List.cons_append, addressField, if_neg (Ne.symm hb), ih hbs]

/-- Byte `i` of `be_bytes(v, n)` (43_frame_parser.md R227). -/
theorem getElem?_beBytes (hi : i < n) : (beBytes v n)[i]? = some (BitVec.ofNat 8 (v / 256 ^ (n - 1 - i))) := by
  induction n generalizing v with
  | zero => omega
  | succ n ih =>
    rw [beBytes]
    by_cases hin : i < n
    · rw [List.getElem?_append_left (by simpa using hin), ih hin, Nat.div_div_eq_div_mul, ← Nat.pow_succ',
        show (n - 1 - i).succ = n + 1 - 1 - i by omega]
    · obtain rfl : i = n := by omega
      simp

/-- Settles O32: the bytes before the first comma lose their first `ID_SKIP`; the id field's bytes are those of
`getElem?_beBytes`. -/
theorem messageIdsOfFrames : Obligations.MessageIdsOfFrames := by
  refine ⟨fun c pre rest hpre => ?_, fun p h => ⟨beBytes_length _ _, fun i hi => getElem?_beBytes hi⟩⟩
  have hdrop : pre.drop c.idSkip = pre.drop (min c.idSkip pre.length) := by
    rcases Nat.le_total c.idSkip pre.length with hle | hle
    · rw [Nat.min_eq_left hle]
    · rw [Nat.min_eq_right hle, List.drop_length, List.drop_eq_nil_of_le hle]
  rw [← hdrop]
  exact ⟨congrArg (List.drop c.idSkip) (addressField_of_not_mem hpre),
    congrArg (List.drop c.idSkip) (addressField_append_comma hpre rest)⟩

theorem beValue_cons (b : Byte) (s : List Byte) : beValue (b :: s) = b.toNat * 256 ^ s.length + beValue s := by
  induction s using List.reverseRecOn with
  | nil => simp [beValue]
  | append_singleton s a ih =>
    rw [← List.cons_append, beValue_append_singleton, beValue_append_singleton, ih, List.length_append,
      List.length_singleton, Nat.pow_succ]
    ring

/-- A big-endian value: the first byte weighs most (43_frame_parser.md R223). -/
theorem beValue_eq_sum (s : List Byte) :
    beValue s = ((List.range s.length).map fun i => (s.getD i 0).toNat * 256 ^ (s.length - 1 - i)).sum := by
  induction s with
  | nil => rfl
  | cons b s ih =>
    rw [beValue_cons, ih, List.length_cons, List.range_succ_eq_map, List.map_cons, List.sum_cons, List.map_map]
    congr 2
    refine List.map_congr_left fun i _ => ?_
    simp only [Function.comp_apply, List.getD_cons_succ]
    rw [show s.length + 1 - 1 - i.succ = s.length - 1 - i by omega]

/-- A little-endian value: the last byte weighs most (43_frame_parser.md R223). -/
theorem beValue_reverse_eq_sum (s : List Byte) :
    beValue s.reverse = ((List.range s.length).map fun i => (s.getD i 0).toNat * 256 ^ i).sum := by
  induction s with
  | nil => rfl
  | cons b s ih =>
    rw [List.reverse_cons, beValue_append_singleton, ih, List.length_cons, List.range_succ_eq_map, List.map_cons,
      List.sum_cons, List.map_map, ← List.sum_map_mul_right, Nat.add_comm]
    congr 2
    · simp
    · refine List.map_congr_left fun i _ => ?_
      simp only [Function.comp_apply, List.getD_cons_succ, Nat.succ_eq_add_one, Nat.pow_succ]
      ring

theorem slice_length (h : List Byte) (hfit : off + n ≤ h.length) : (slice h off n).length = n := by
  simp [slice]; omega

theorem slice_getD (h : List Byte) (hi : i < n) : (slice h off n).getD i 0 = h.getD (off + i) 0 := by
  simp [slice, List.getD_eq_getElem?_getD, hi]

theorem fieldValue_eq_sum (h : List Byte) (hfit : off + n ≤ h.length) :
    fieldValue h off n .be = ((List.range n).map fun i => (h.getD (off + i) 0).toNat * 256 ^ (n - 1 - i)).sum
    ∧ fieldValue h off n .le = ((List.range n).map fun i => (h.getD (off + i) 0).toNat * 256 ^ i).sum := by
  simp only [fieldValue, valueOf, beValue_eq_sum (slice h off n), beValue_reverse_eq_sum, slice_length h hfit]
  constructor <;>
    exact congrArg List.sum (List.map_congr_left fun i hi => by rw [slice_getD h (List.mem_range.mp hi)])

end Sys2Proof.Machine
end

section
/-! ### The BINARY states

What validation answers, and one push in each BINARY state (43_frame_parser.md R222 to R226). -/

namespace Sys2Proof.Machine

variable {c : Config} {s : State} {x : Instance} {fp : ParserUnit} {p : BinProfile} {b w0 w1 : Byte} {k : Nat}
  {r : PushStep}

/-- A push of a BINARY parser. -/
theorem exec_fpPush_binary (hx : s.Runs x) (hp : s.cfg.instProfile? s.port = some (.binary p))
    (hr : binStep s.cfg p x.fp b = some r) : exec (.fpPush b) s = .next (s.pushed x r.fp r.ok r.frame) :=
  exec_fpPush hx hp hr

theorem binStep_bSync (b : Byte) (hst : fp.st = .bSync k) : binStep c p fp b = some (binSync p k fp b) := by
  simp [binStep, hst]

theorem binStep_bHeader (b : Byte) (hst : fp.st = .bHeader) : binStep c p fp b = some (binHeader c p fp b) := by
  simp [binStep, hst]

theorem binStep_bPayload (b : Byte) (hst : fp.st = .bPayload) : binStep c p fp b = some (binPayload p fp b) := by
  simp [binStep, hst]

theorem binStep_bTrailer (b : Byte) (hst : fp.st = .bTrailer) : binStep c p fp b = some (binTrailer p fp b) := by
  simp [binStep, hst]

/-! #### The hunt for a sync sequence -/

theorem binSync_of_match (h : p.sync[k]? = some b) (hk : k + 1 ≠ p.sync.length) :
    binSync p k fp b = PushStep.quiet { fp with st := .bSync (k + 1) } :=
  (if_pos h).trans (if_neg hk)

theorem binSync_of_last (h : p.sync[k]? = some b) (hk : k + 1 = p.sync.length) :
    binSync p k fp b = PushStep.quiet { fp with st := .bHeader, hcnt := 0, cnt := 0, tcnt := 0 } :=
  (if_pos h).trans (if_pos hk)

/-- A failed partial match restarts from the current byte (43_frame_parser.md R222). -/
theorem binSync_of_restart (h : p.sync[k]? ≠ some b) (h0 : 0 < k ∧ p.sync[0]? = some b) :
    binSync p k fp b = PushStep.quiet { fp with st := .bSync 1 } :=
  (if_neg h).trans (if_pos h0)

theorem binSync_of_fail (h : p.sync[k]? ≠ some b) (h0 : ¬(0 < k ∧ p.sync[0]? = some b)) :
    binSync p k fp b = PushStep.quiet { fp with st := .bSync 0 } :=
  (if_neg h).trans (if_neg h0)

/-- Settles O33: the four cases of `binSync`. -/
theorem binarySyncHunts : Obligations.BinarySyncHunts := by
  intro s x p b k hx hp hst _
  have push := exec_fpPush_binary hx hp (binStep_bSync b hst)
  split_ifs with hmatch hlast hrestart
  · rwa [binSync_of_last hmatch hlast] at push
  · rwa [binSync_of_match hmatch hlast] at push
  · rwa [binSync_of_restart hmatch hrestart] at push
  · rwa [binSync_of_fail hmatch hrestart] at push

/-! #### Validation -/

/-- The model's checksum of a frame is the one the statements write out (43_frame_parser.md R226). -/
theorem binChecksum_covered (p : BinProfile) (h pl : List Byte) : binChecksum p (covered p h pl) = frameChecksum p h pl := by
  unfold binChecksum covered frameChecksum
  cases p.ckKind <;> rfl

/-- The received checksum in the profile's byte order (43_frame_parser.md R226). -/
theorem valueOf_ckWireOrder (p : BinProfile) (w0 w1 : Byte) : valueOf (ckWireOrder p) [w0, w1] = receivedValue p w0 w1 := by
  unfold ckWireOrder receivedValue
  cases p.ckKind <;> cases p.ckOrder <;> simp [valueOf, beValue, Nat.add_comm]

/-- `bvalidate()` where the whole header is held and the received bytes are `w0 w1`. -/
theorem binValidate_eq (hhdr : fp.hdr.length = p.hlen) (hrx : receivedChecksum p fp = [w0, w1]) :
    binValidate p fp =
      if (frameChecksum p fp.hdr (fp.buf.take fp.plen)).toNat = receivedValue p w0 w1 then
        { fp := binIdle fp, ok := true,
          frame := some { id := binId p fp.hdr, payload := fp.buf.take fp.plen, checksumValid := true } }
      else PushStep.quiet (binIdle fp) := by
  simp only [binValidate, ← hhdr, List.take_length, binChecksum_covered, hrx, valueOf_ckWireOrder]

theorem validateAnswers_of_push (hhdr : fp.hdr.length = p.hlen) (hrx : receivedChecksum p fp = [w0, w1])
    (push : exec (.fpPush b) s =
      .next (s.pushed x (binValidate p fp).fp (binValidate p fp).ok (binValidate p fp).frame)) :
    ValidateAnswers b s x p fp w0 w1 := by
  rw [binValidate_eq hhdr hrx] at push
  simp only [ValidateAnswers]
  split
  case isTrue hvalid => rwa [if_pos hvalid] at push
  case isFalse hvalid => rwa [if_neg hvalid] at push

/-- Two bytes of a list, one by one. -/
theorem slice_two {h : List Byte} {off : Nat} (h0 : h[off]? = some w0) (h1 : h[off + 1]? = some w1) :
    slice h off 2 = [w0, w1] := by
  obtain ⟨hlt0, rfl⟩ := List.getElem?_eq_some_iff.mp h0
  obtain ⟨hlt1, rfl⟩ := List.getElem?_eq_some_iff.mp h1
  rw [slice, List.drop_eq_getElem_cons hlt0, List.drop_eq_getElem_cons hlt1]
  rfl

theorem receivedChecksum_header (hloc : p.ckLoc = .header) (h0 : fp.hdr[p.ckOff]? = some w0)
    (h1 : fp.hdr[p.ckOff + 1]? = some w1) : receivedChecksum p fp = [w0, w1] := by
  rw [receivedChecksum, hloc]
  exact slice_two h0 h1

theorem receivedChecksum_trailer (hloc : p.ckLoc = .trailer) (htrl : fp.trl = [w0, w1]) :
    receivedChecksum p fp = [w0, w1] := by
  rw [receivedChecksum, hloc, htrl]
  rfl

theorem binEndPayload_trailer (hloc : p.ckLoc = .trailer) :
    binEndPayload p fp = PushStep.quiet { fp with st := .bTrailer, tcnt := 0 } := by
  rw [binEndPayload, hloc]

theorem binEndPayload_header (hloc : p.ckLoc = .header) : binEndPayload p fp = binValidate p fp := by
  rw [binEndPayload, hloc]

theorem CkLoc.eq_header_of_ne {l : CkLoc} (h : l ≠ .trailer) : l = .header := by
  cases l with
  | trailer => exact absurd rfl h
  | header => rfl

theorem endPayloadAnswers_of_push (hhdr : fp.hdr.length = p.hlen)
    (push : exec (.fpPush b) s =
      .next (s.pushed x (binEndPayload p fp).fp (binEndPayload p fp).ok (binEndPayload p fp).frame)) :
    EndPayloadAnswers b s x p fp := by
  unfold EndPayloadAnswers
  split
  case isTrue hloc => rwa [binEndPayload_trailer hloc] at push
  case isFalse hloc =>
    have hloc := CkLoc.eq_header_of_ne hloc
    rw [binEndPayload_header hloc] at push
    exact fun w0 w1 h0 h1 => validateAnswers_of_push hhdr (receivedChecksum_header hloc h0 h1) push

/-! #### The header -/

/-- The parser unit with a byte stored as the next header byte (43_frame_parser.md R223). -/
def ParserUnit.storeHeader (fp : ParserUnit) (b : Byte) : ParserUnit :=
  { fp with hdr := fp.hdr.set fp.hcnt b, hcnt := fp.hcnt + 1 }

theorem binHeader_of_more (h : fp.hcnt + 1 ≠ p.hlen) : binHeader c p fp b = PushStep.quiet (fp.storeHeader b) := if_neg h

theorem binHeader_of_last (h : fp.hcnt + 1 = p.hlen) : binHeader c p fp b = binHeaderDone c p (fp.storeHeader b) := if_pos h

/-- A length field that R223 aborts on. -/
def BadLength (c : Config) (p : BinProfile) (raw : Nat) : Prop :=
  raw < p.lenAdj ∨ raw % p.lenMult ≠ 0 ∨ c.bufCap < raw - p.lenAdj

theorem binHeaderDone_of_bad (h : BadLength c p (rawLength p fp.hdr)) :
    binHeaderDone c p fp = PushStep.quiet (binIdle fp) := if_pos h

theorem binHeaderDone_of_empty (h : ¬BadLength c p (rawLength p fp.hdr)) (h0 : rawLength p fp.hdr = p.lenAdj) :
    binHeaderDone c p fp = binEndPayload p { fp with plen := 0 } :=
  (if_neg h).trans (if_pos (by omega))

theorem binHeaderDone_of_payload (h : ¬BadLength c p (rawLength p fp.hdr)) (h0 : rawLength p fp.hdr ≠ p.lenAdj) :
    binHeaderDone c p fp = PushStep.quiet { fp with plen := rawLength p fp.hdr - p.lenAdj, st := .bPayload } := by
  have hle : p.lenAdj ≤ rawLength p fp.hdr := Nat.not_lt.mp fun hlt => h (.inl hlt)
  exact (if_neg h).trans (if_neg (by omega))

/-- Settles O34: a field is the sum of `fieldValue_eq_sum`; the last header byte makes one of the cases of
`binHeaderDone`. -/
theorem binaryHeaderGivesTheLength : Obligations.BinaryHeaderGivesTheLength := by
  refine ⟨fun h off n hfit => fieldValue_eq_sum h hfit, fun s x p b hx hp _ hfp hst => ?_⟩
  obtain ⟨-, -, -, hlength, -, -, -, -, hheader, -⟩ := hfp
  obtain ⟨hroom, -⟩ := hheader hst
  have hlength' : (x.fp.storeHeader b).hdr.length = p.hlen := List.length_set.trans hlength
  have push := exec_fpPush_binary hx hp (binStep_bHeader b hst)
  refine ⟨_, replaced_set (by omega) b, ?_⟩
  split
  case isTrue hmore => rwa [binHeader_of_more (by omega)] at push
  case isFalse hlast =>
    have hroom' : x.fp.hcnt < p.hlen := hroom
    rw [binHeader_of_last (by omega)] at push
    split_ifs with hbad hempty
    · rwa [binHeaderDone_of_bad (fp := x.fp.storeHeader b) hbad] at push
    · rw [binHeaderDone_of_empty (fp := x.fp.storeHeader b) hbad hempty] at push
      exact endPayloadAnswers_of_push hlength' push
    · rwa [binHeaderDone_of_payload (fp := x.fp.storeHeader b) hbad hempty] at push

/-! #### The payload and the trailer -/

/-- The parser unit with a byte stored as the next payload byte (43_frame_parser.md R224). -/
def ParserUnit.storePayload (fp : ParserUnit) (b : Byte) : ParserUnit :=
  { fp with buf := fp.buf.set fp.cnt b, cnt := fp.cnt + 1 }

theorem binPayload_of_more (h : fp.cnt + 1 ≠ fp.plen) : binPayload p fp b = PushStep.quiet (fp.storePayload b) := if_neg h

theorem binPayload_of_last (h : fp.cnt + 1 = fp.plen) : binPayload p fp b = binEndPayload p (fp.storePayload b) := if_pos h

theorem binTrailer_first (h : fp.tcnt = 0) :
    binTrailer p fp b = PushStep.quiet { fp with trl := fp.trl.set 0 b, tcnt := 1 } := by
  simp [binTrailer, h]

theorem binTrailer_second (h : fp.tcnt = 1) :
    binTrailer p fp b = binValidate p { fp with trl := fp.trl.set 1 b, tcnt := 2 } := by
  simp [binTrailer, h]

/-- Settles O35: the cases of `binPayload` and `binTrailer`; the invariant gives `BTrailer` a TRAILER profile. -/
theorem binaryPayloadAndTrailer : Obligations.BinaryPayloadAndTrailer := by
  intro s x p b hx hp _ hfp
  obtain ⟨-, hbuf, -, hhdr, -, hplen, htrl, -, -, hpayload, htrailer⟩ := hfp
  refine ⟨fun hst => ?_, fun hst => ?_⟩
  · have hroom := hpayload hst
    have push := exec_fpPush_binary hx hp (binStep_bPayload b hst)
    refine ⟨_, replaced_set (by omega) b, ?_⟩
    split
    case isTrue hmore => rwa [binPayload_of_more (by omega)] at push
    case isFalse hlast =>
      rw [binPayload_of_last (by omega)] at push
      exact endPayloadAnswers_of_push hhdr push
  · obtain ⟨htcnt, -, hloc⟩ := htrailer hst
    have hloc : p.ckLoc = .trailer := beq_iff_eq.mp hloc
    have push := exec_fpPush_binary hx hp (binStep_bTrailer b hst)
    obtain ⟨w0, w1, hw⟩ := List.length_eq_two.mp htrl
    split
    case isTrue hfirst =>
      rw [binTrailer_first hfirst] at push
      exact ⟨_, replaced_set (by omega) b, push⟩
    case isFalse hsecond =>
      rw [binTrailer_second (by omega), hw] at push
      exact ⟨w0, by rw [hw]; rfl, validateAnswers_of_push hhdr (receivedChecksum_trailer hloc rfl) push⟩

end Sys2Proof.Machine
end

section
/-! ### Outbound framing

The bytes FP.WRAP builds: every header byte of a BINARY frame, and that its checksum is the one a parser computes
(43_frame_parser.md R240 to R242). -/

namespace Sys2Proof.Machine

variable {c : Config} {s : State} {x : Instance} {p : BinProfile} {template pl h h' v : List Byte} {off n k : Nat}

/-! #### The header -/

theorem slice_congr (heq : ∀ k, off ≤ k → k < off + n → h[k]? = h'[k]?) : slice h off n = slice h' off n := by
  apply List.ext_getElem?
  intro k
  simp only [slice, List.getElem?_take, List.getElem?_drop]
  split
  · exact heq _ (by omega) (by omega)
  · rfl

/-- Storing bytes before an offset leaves the rest (00_scope.md R9). -/
theorem drop_splice (hfit : off + v.length ≤ n) (hn : n ≤ h.length) : (splice h off v).drop n = h.drop n := by
  apply List.ext_getElem?
  intro k
  rw [List.getElem?_drop, List.getElem?_drop, getElem?_splice _ _ _ _ (by omega) (.inr (by omega))]

theorem slice_getElem? (h : List Byte) (hk : k < n) : (slice h off n)[k]? = h[off + k]? := by
  simp [slice, hk]

theorem getElem?_splice_add (h v : List Byte) (hfit : off + v.length ≤ h.length) (hk : k < v.length) :
    (splice h off v)[off + k]? = v[k]? := by
  rw [← slice_getElem? _ hk, slice_splice _ _ _ hfit]

/-- The ranges R220 and R221 give the length field and a HEADER checksum. -/
theorem BinProfile.wf_ranges (hw : p.wf = true) : p.lenOff + p.lenBytes ≤ p.hlen ∧ (p.ckLoc = .header →
    p.ckOff + 2 ≤ p.ckStart ∧ p.ckStart ≤ p.hlen
    ∧ ∀ k, p.lenOff ≤ k → k < p.lenOff + p.lenBytes → k < p.ckOff ∨ p.ckOff + 2 ≤ k) := by
  obtain ⟨-, -, -, -, -, hlen, -, -, -, hstart, hck⟩ := (BinProfile.wf_iff_constraints p).mp hw
  refine ⟨hlen, fun hloc => ?_⟩
  obtain ⟨hbefore, hapart⟩ := hck hloc
  refine ⟨hbefore, hstart, fun k hlo hhi => ?_⟩
  by_contra hin
  exact (hapart k (by omega) (by omega)).1 ⟨hlo, hhi⟩

theorem wire16_length (o : ByteOrder) (v : BitVec 16) : (wire16 o v).length = 2 := by cases o <;> rfl

theorem wrapChecksum_length (p : BinProfile) (template pl : List Byte) : (wrapChecksum p template pl).length = 2 :=
  wire16_length _ _

section Header

variable (hw : p.wf = true) (ht : template.length = p.hlen)
include hw ht

theorem wrapLengthHeader_length : (wrapLengthHeader p template pl).length = p.hlen := by
  obtain ⟨hlen, -⟩ := BinProfile.wf_ranges hw
  rw [wrapLengthHeader, splice_length _ _ _ (by rw [bytesOf_length]; omega), ht]

theorem wrapHeader_length : (wrapHeader p template pl).length = p.hlen := by
  obtain ⟨-, hck⟩ := BinProfile.wf_ranges hw
  have hL := wrapLengthHeader_length (pl := pl) hw ht
  rw [wrapHeader]
  cases hloc : p.ckLoc with
  | trailer => exact hL
  | header =>
    obtain ⟨hbefore, hstart, -⟩ := hck hloc
    rw [splice_length _ _ _ (by rw [wrapChecksum_length]; omega), hL]

/-- A HEADER checksum changes its own two bytes only. -/
theorem wrapHeader_getElem? (hout : p.ckLoc = .header → k < p.ckOff ∨ p.ckOff + 2 ≤ k) :
    (wrapHeader p template pl)[k]? = (wrapLengthHeader p template pl)[k]? := by
  obtain ⟨-, hck⟩ := BinProfile.wf_ranges hw
  have hL := wrapLengthHeader_length (pl := pl) hw ht
  rw [wrapHeader]
  cases hloc : p.ckLoc with
  | trailer => rfl
  | header =>
    obtain ⟨hbefore, hstart, -⟩ := hck hloc
    have hW := wrapChecksum_length p template pl
    exact getElem?_splice _ _ _ _ (by omega) (by rw [hW]; exact hout hloc)

/-- Every other header byte comes from the template (43_frame_parser.md R242). -/
theorem wrapHeader_getElem?_template (hlen : ¬(p.lenOff ≤ k ∧ k < p.lenOff + p.lenBytes))
    (hout : p.ckLoc = .header → ¬(p.ckOff ≤ k ∧ k < p.ckOff + 2)) : (wrapHeader p template pl)[k]? = template[k]? := by
  obtain ⟨hrange, -⟩ := BinProfile.wf_ranges hw
  rw [wrapHeader_getElem? hw ht fun hloc => by have := hout hloc; omega, wrapLengthHeader,
    getElem?_splice _ _ _ _ (by rw [bytesOf_length]; omega) (by rw [bytesOf_length]; omega)]

/-- The length field holds the raw length (43_frame_parser.md R242). -/
theorem rawLength_wrapHeader (hraw : wrapRaw p pl < 2 ^ (8 * p.lenBytes)) :
    rawLength p (wrapHeader p template pl) = wrapRaw p pl := by
  obtain ⟨hrange, hck⟩ := BinProfile.wf_ranges hw
  have hkept : slice (wrapHeader p template pl) p.lenOff p.lenBytes =
      slice (wrapLengthHeader p template pl) p.lenOff p.lenBytes := slice_congr fun k hlo hhi =>
    wrapHeader_getElem? hw ht fun hloc => by
      obtain ⟨-, -, hapart⟩ := hck hloc
      exact hapart k hlo hhi
  have hfield : slice (wrapLengthHeader p template pl) p.lenOff p.lenBytes =
      bytesOf p.lenOrder (wrapRaw p pl) p.lenBytes := by
    have h := slice_splice template (bytesOf p.lenOrder (wrapRaw p pl) p.lenBytes) p.lenOff
      (by rw [bytesOf_length]; omega)
    rwa [bytesOf_length] at h
  rw [rawLength, fieldValue, hkept, hfield, valueOf_bytesOf, show (256 : Nat) = 2 ^ 8 from rfl, ← Nat.pow_mul,
    Nat.mod_eq_of_lt hraw]

/-- The checksum covers no byte of its own field, so filling it in leaves it right (43_frame_parser.md R221, R242). -/
theorem frameChecksum_wrapHeader : frameChecksum p (wrapHeader p template pl) pl =
    binChecksum p (covered p (wrapLengthHeader p template pl) pl) := by
  obtain ⟨-, hck⟩ := BinProfile.wf_ranges hw
  have hL := wrapLengthHeader_length (pl := pl) hw ht
  rw [← binChecksum_covered, covered, covered, wrapHeader]
  cases hloc : p.ckLoc with
  | trailer => rfl
  | header =>
    obtain ⟨hbefore, hstart, -⟩ := hck hloc
    rw [drop_splice (by rw [wrapChecksum_length]; exact hbefore) (by omega)]

/-- The two checksum bytes on the wire are those of the frame's checksum (43_frame_parser.md R226, R242). -/
theorem exists_wrapChecksum_bytes : ∃ w0 w1, wrapChecksum p template pl = [w0, w1] ∧
    receivedValue p w0 w1 = (frameChecksum p (wrapHeader p template pl) pl).toNat := by
  obtain ⟨w0, w1, hW⟩ := List.length_eq_two.mp (wrapChecksum_length p template pl)
  refine ⟨w0, w1, hW, ?_⟩
  rw [← valueOf_ckWireOrder, ← hW, wrapChecksum, valueOf_wire16, frameChecksum_wrapHeader hw ht]

/-- The checksum bytes of a HEADER profile stand at `CK_OFF` (43_frame_parser.md R242). -/
theorem wrapHeader_checksum (hloc : p.ckLoc = .header) {w0 w1 : Byte} (hW : wrapChecksum p template pl = [w0, w1]) :
    (wrapHeader p template pl)[p.ckOff]? = some w0 ∧ (wrapHeader p template pl)[p.ckOff + 1]? = some w1 := by
  obtain ⟨-, hck⟩ := BinProfile.wf_ranges hw
  obtain ⟨hbefore, hstart, -⟩ := hck hloc
  have hL := wrapLengthHeader_length (pl := pl) hw ht
  have hget (i : Nat) (hi : i < 2) := getElem?_splice_add (off := p.ckOff) (k := i) (wrapLengthHeader p template pl) [w0, w1]
    (by rw [hL, List.length_cons, List.length_singleton]; omega) hi
  simp only [wrapHeader, hloc, hW]
  exact ⟨hget 0 (by omega), hget 1 (by omega)⟩

end Header

/-! #### The command -/

variable {start : Byte} {count : BitVec 32} {q : Profile} {r : Response} {e : Status}

theorem exec_fpWrap_done (hx : s.Runs x) (hp : s.cfg.instProfile? s.port = some q)
    (hq : wrapReply s.cfg start count x q = .done x r) : exec (.fpWrap start count) s = .next (s.after x r) :=
  exec_eq_after hx (by simp [Instr.reply, hp, hq])

theorem exec_fpWrap_error {info : Nat} (hx : s.Runs x) (hp : s.cfg.instProfile? s.port = some q)
    (hq : wrapReply s.cfg start count x q = .error e (zext64 info)) :
    exec (.fpWrap start count) s = .next (s.failed e info) :=
  exec_eq_failed hx (by simp [Instr.reply, hp, hq])

/-- The framed bytes of a TEXT payload, written out (43_frame_parser.md R241). -/
theorem wrapText_eq (st : Byte) (pl : List Byte) : wrapText st pl =
    [st] ++ pl ++ [0x2A, hexu (BitVec.ofNat 4 ((xor8 pl).toNat / 16)), hexu (BitVec.ofNat 4 (xor8 pl).toNat), 0x0D, 0x0A] := by
  simp [wrapText, formatXor8_eq, chStar, chCr, chLf]

theorem wrapReply_text (hstart : isStart start = true) (hcap : count.toNat ≤ c.hbCap) (hbuf : count.toNat ≤ c.bufCap) :
    wrapReply c start count x .text = .done x (framedResponse (wrapText start (x.hb.readBytes 0 count.toNat))) := by
  simp [wrapReply, wrapTextReply, hstart, Nat.not_lt.mpr hcap, Nat.not_lt.mpr hbuf]

/-- The word of FP.WRAP with a start byte (30_encoding.md R87, R90). -/
theorem commandInfo_fpWrap (start : Byte) (count : BitVec 32) :
    commandInfo (.fpWrap start count) = zext64 (0x42000000 + start.toNat * 2 ^ 16) := by
  rw [commandInfo_eq (o := 0x42) (w := start) (imm := 0) rfl]
  congr 1
  simp only [BitVec.reduceToNat]
  omega

section Range

variable (hin : ¬(c.hbCap < count.toNat ∨ count.toNat < p.hlen ∨ c.bufCap < count.toNat - p.hlen))
include hin

theorem wrapReply_binary_of_some {out : List Byte}
    (h : wrapBin p (x.hb.readBytes 0 p.hlen) (x.hb.readBytes p.hlen (count.toNat - p.hlen)) = some out) :
    wrapReply c 0 count x (.binary p) = .done x (framedResponse out) := by
  simp [wrapReply, wrapBinReply, hin, h]

theorem wrapReply_binary_of_none
    (h : wrapBin p (x.hb.readBytes 0 p.hlen) (x.hb.readBytes p.hlen (count.toNat - p.hlen)) = none) :
    wrapReply c 0 count x (.binary p) =
      .error .eWrapLength (zext64 (wrapRaw p (x.hb.readBytes p.hlen (count.toNat - p.hlen)))) := by
  simp [wrapReply, wrapBinReply, hin, h]

end Range

/-- The raw length a length field cannot hold (43_frame_parser.md R242). -/
theorem wrapBin_eq_none (h : 2 ^ (8 * p.lenBytes) ≤ wrapRaw p pl ∨ wrapRaw p pl % p.lenMult ≠ 0) :
    wrapBin p template pl = none := if_pos h

theorem wrapBin_eq_some_iff {out : List Byte} : wrapBin p template pl = some out ↔
    (wrapRaw p pl < 2 ^ (8 * p.lenBytes) ∧ wrapRaw p pl % p.lenMult = 0)
      ∧ p.sync ++ wrapHeader p template pl ++ pl ++ wrapTrailer p template pl = out := by
  simp [wrapBin]

theorem framedResponse_eq {out : List Byte} {n : Nat} (h : out.length = n) : framedResponse out =
    { status := .sOk, value := zext64 n, bytes := out, frame := none } := by
  rw [← h]
  rfl

/-- The checksum bytes stand in the header at `CK_OFF`, or they are the trailer (43_frame_parser.md R220, R242). -/
def ChecksumPlaced (p : BinProfile) (hdr trl : List Byte) (w0 w1 : Byte) : Prop :=
  if p.ckLoc = .header then trl = [] ∧ hdr[p.ckOff]? = some w0 ∧ hdr[p.ckOff + 1]? = some w1 else trl = [w0, w1]

theorem checksumPlaced_wrap {w0 w1 : Byte} (hw : p.wf = true) (ht : template.length = p.hlen)
    (hW : wrapChecksum p template pl = [w0, w1]) :
    ChecksumPlaced p (wrapHeader p template pl) (wrapTrailer p template pl) w0 w1 := by
  rw [ChecksumPlaced, wrapTrailer]
  cases hloc : p.ckLoc with
  | header => exact ⟨rfl, wrapHeader_checksum hw ht hloc hW⟩
  | trailer => exact hW

/-- Settles O37: the checks of R240 in order, then `wrapText_eq` for TEXT and the header lemmas for BINARY. -/
theorem fpWrapFramesThePayload : Obligations.FpWrapFramesThePayload := by
  intro s x start count hx
  refine ⟨fun hp => ?_, fun p hp hw => ?_⟩
  · split
    case isTrue hno =>
      have hstart : isStart start = false := isStart_eq_false hno.1 hno.2
      exact exec_fpWrap_error hx hp (by simp [wrapReply, wrapTextReply, hstart, setWidth_eq_zext64])
    case isFalse hyes =>
      have hstart : isStart start = true := isStart_iff.mpr (by tauto)
      split
      case isTrue hrange => exact exec_fpWrap_error hx hp (by simp [wrapReply, wrapTextReply, hstart, hrange])
      case isFalse hrange =>
        refine ⟨_, Memory.holds_readBytes x.hb 0 count.toNat, ?_⟩
        rw [← wrapText_eq, ← framedResponse_eq (by simp [wrapText_eq])]
        exact exec_fpWrap_done hx hp (wrapReply_text hstart (by omega) (by omega))
  · split
    case isTrue hstart =>
      refine exec_fpWrap_error hx hp ?_
      rw [← commandInfo_fpWrap start count]
      exact if_pos (bne_iff_ne.mpr hstart)
    case isFalse hstart =>
      obtain rfl : start = 0 := not_not.mp hstart
      split
      case isTrue hrange => exact exec_fpWrap_error hx hp (by simp [wrapReply, wrapBinReply, hrange])
      case isFalse hrange =>
        have ht := Memory.readBytes_length x.hb 0 p.hlen
        have hraw : wrapRaw p (x.hb.readBytes p.hlen (count.toNat - p.hlen)) = count.toNat - p.hlen + p.lenAdj :=
          congrArg (· + p.lenAdj) (Memory.readBytes_length ..)
        rw [← hraw]
        split
        case isTrue hlength =>
          exact exec_fpWrap_error hx hp (wrapReply_binary_of_none hrange (wrapBin_eq_none hlength))
        case isFalse hlength =>
          obtain ⟨hfits, hmultiple⟩ := not_or.mp hlength
          obtain ⟨w0, w1, hW, hrx⟩ := exists_wrapChecksum_bytes hw ht
          refine ⟨_, _, wrapHeader p _ _, wrapTrailer p _ _, w0, w1, Memory.holds_readBytes .., Memory.holds_readBytes .., ?_,
            wrapHeader_length hw ht, rawLength_wrapHeader hw ht (Nat.not_le.mp hfits),
            fun k => wrapHeader_getElem?_template hw ht, hrx, checksumPlaced_wrap hw ht hW⟩
          rw [← framedResponse_eq (by simp [wrapHeader_length hw ht]; omega)]
          exact exec_fpWrap_done hx hp (wrapReply_binary_of_some hrange
            (wrapBin_eq_some_iff.mpr ⟨⟨Nat.not_le.mp hfits, not_not.mp hmultiple⟩, rfl⟩))

end Sys2Proof.Machine
end

section
/-! ### Streams of bytes

`Feeds` runs the parser unit alone over a stream; a feed of the port in use gives its answers (30_encoding.md R93,
43_frame_parser.md R210). -/

namespace Sys2Proof.Machine

variable {c : Config} {p : Profile} {s t : State} {x y : Instance} {fp fp' fp'' : ParserUnit} {b : Byte}
  {bytes more : List Byte} {as as' : List (DataWord × Option Frame)} {r : PushStep}

theorem parserStep_text (c : Config) (fp : ParserUnit) (b : Byte) : parserStep c .text fp b = textStep c fp b := rfl

theorem parserStep_binary (c : Config) (bp : BinProfile) (fp : ParserUnit) (b : Byte) :
    parserStep c (.binary bp) fp b = binStep c bp fp b := rfl

/-- The push result and the emitted frame of one step (43_frame_parser.md R210). -/
def PushStep.answer (r : PushStep) : DataWord × Option Frame := (bit01 r.ok, r.frame)

/-- The answers of `n` pushes that emit nothing. -/
def quietAnswers (n : Nat) : List (DataWord × Option Frame) := List.replicate n (0, none)

theorem quietAnswers_append (m n : Nat) : quietAnswers m ++ quietAnswers n = quietAnswers (m + n) :=
  List.replicate_append_replicate

/-- The parser steps over a stream of bytes take the unit from the first to the last, with the answer of each. -/
inductive Feeds (c : Config) (p : Profile) :
    ParserUnit → List Byte → List (DataWord × Option Frame) → ParserUnit → Prop where
  | nil (fp : ParserUnit) : Feeds c p fp [] [] fp
  | cons {fp fp' : ParserUnit} {b : Byte} {bytes : List Byte} {r : PushStep} {as : List (DataWord × Option Frame)}
      (step : parserStep c p fp b = some r) (rest : Feeds c p r.fp bytes as fp') :
      Feeds c p fp (b :: bytes) (r.answer :: as) fp'

theorem Feeds.append (h : Feeds c p fp bytes as fp') (h' : Feeds c p fp' more as' fp'') :
    Feeds c p fp (bytes ++ more) (as ++ as') fp'' := by
  induction h with
  | nil => exact h'
  | cons step _ ih => exact .cons step (ih h')

theorem Feeds.single (step : parserStep c p fp b = some r) : Feeds c p fp [b] [r.answer] r.fp := .cons step (.nil _)

/-- One more byte at the end of a stream. -/
theorem Feeds.concat (h : Feeds c p fp bytes as fp') (step : parserStep c p fp' b = some r) :
    Feeds c p fp (bytes ++ [b]) (as ++ [r.answer]) r.fp := h.append (.single step)

/-- One more byte that emits nothing, at the end of such a stream. -/
theorem Feeds.concat_quiet {n : Nat} (h : Feeds c p fp bytes (quietAnswers n) fp')
    (step : parserStep c p fp' b = some (PushStep.quiet fp'')) :
    Feeds c p fp (bytes ++ [b]) (quietAnswers (n + 1)) fp'' := by
  rw [quietAnswers, List.replicate_succ']
  exact h.concat step

theorem Feeds.inv (hw : p.wf = true) (h : Feeds c p fp bytes as fp') (hfp : fp.Inv c p) : fp'.Inv c p := by
  induction h with
  | nil => exact hfp
  | cons step _ ih =>
    obtain ⟨_, hstep, ⟨hkeep, -⟩, -⟩ := parserStep_keeps hw hfp _
    obtain rfl := Option.some.inj (step.symm.trans hstep)
    exact ih hkeep

/-- A feed after its first byte was pushed. -/
theorem runAll_feed_cons {rs : List Response} {u : State} (push : exec (.fpPush b) s = .next t)
    (hrun : runAll (feed bytes) t = some (rs, u)) : runAll (feed (b :: bytes)) s = some (t.rsp :: rs, u) := by
  rw [feed, List.map_cons, runAll_cons_of_next push, ← feed, hrun]
  rfl

/-- A feed of the port in use answers what the parser unit answers, and leaves the parser as the unit is left. -/
theorem Feeds.exists_runAll (h : Feeds c p fp bytes as fp') (hx : s.Runs x) (hfp : x.fp = fp) (hc : s.cfg = c)
    (hp : c.instProfile? s.port = some p) :
    ∃ rs t y, runAll (feed bytes) s = some (rs, t) ∧ pushAnswers rs = as ∧ t.Runs y ∧ y.fp = fp' ∧ t.cfg = c
      ∧ t.port = s.port := by
  induction h generalizing s x with
  | nil => exact ⟨[], s, x, rfl, rfl, hx, hfp, hc, rfl⟩
  | @cons _ _ b bytes r as step _ ih =>
    subst hc hfp
    have push := exec_fpPush hx hp step
    obtain ⟨rs, t, y, hrun, rfl, hlast⟩ := ih (s := s.pushed x r.fp r.ok r.frame) (State.after_runs hx _ _) rfl rfl hp
    exact ⟨_, t, y, runAll_feed_cons push hrun, rfl, hlast⟩

end Sys2Proof.Machine
end

section
/-! ### Payload bytes stored one after another

FP_BUF after the first bytes of a payload (43_frame_parser.md R202, R224). -/

namespace Sys2Proof.Machine

variable {fp : ParserUnit} {pl : List Byte}

/-- The parser unit with exactly the bytes `pl` accumulated. -/
def ParserUnit.holding (fp : ParserUnit) (pl : List Byte) : ParserUnit :=
  { fp with buf := pl ++ fp.buf.drop pl.length, cnt := pl.length }

@[simp] theorem ParserUnit.holding_cnt (fp : ParserUnit) (pl : List Byte) : (fp.holding pl).cnt = pl.length := rfl

theorem ParserUnit.holding_nil (h : fp.cnt = 0) : fp.holding [] = fp := by
  cases fp
  cases h
  rfl

theorem ParserUnit.holding_accumulated (fp : ParserUnit) (pl : List Byte) : (fp.holding pl).accumulated = pl :=
  List.take_left

/-- Bytes over the front of a list, and one more after them. -/
theorem set_length_append_drop {α : Type} {l s : List α} (h : l.length < s.length) (a : α) :
    (l ++ s.drop l.length).set l.length a = (l ++ [a]) ++ s.drop (l ++ [a]).length := by
  rw [List.set_append_right _ _ (Nat.le_refl _), Nat.sub_self, List.drop_eq_getElem_cons h, List.set_cons_zero,
    List.append_assoc, List.length_append]
  rfl

theorem ParserUnit.holding_storePayload (h : pl.length < fp.buf.length) (b : Byte) :
    (fp.holding pl).storePayload b = fp.holding (pl ++ [b]) := by
  have hbuf := set_length_append_drop h b
  simp only [ParserUnit.storePayload, ParserUnit.holding, hbuf, List.length_append, List.length_singleton]

end Sys2Proof.Machine
end

section
/-! ### A TEXT wire frame

What a TEXT wire frame answers from any TEXT state (43_frame_parser.md R213, R243). -/

namespace Sys2Proof.Machine

variable {c : Config} {s t : State} {x y : Instance} {fp : ParserUnit} {b st h1 h2 : Byte} {pl : List Byte} {d d' : Nat}

/-- A byte that a TEXT payload may hold: no start byte, `'*'` or CR (43_frame_parser.md R202, R213). -/
def IsOrdinary (b : Byte) : Prop := isStart b = false ∧ b ≠ chStar ∧ b ≠ chCr

theorem hexval_lt (h : hexval b = some d) : d < 16 := by
  unfold hexval at h
  split_ifs at h <;> simp only [Option.some.injEq] at h <;> omega

theorem isStart_of_hexval (h : hexval b = some d) : isStart b = false := by
  refine isStart_eq_false ?_ ?_ <;> (rintro rfl; revert h; decide +revert)

/-- The two checksum characters hold the received checksum (43_frame_parser.md R203, R204). -/
theorem received_eq_iff (v : BitVec 8) (hd : d < 16) (hd' : d' < 16) :
    v = BitVec.ofNat 8 (d * 16) + BitVec.ofNat 8 d' ↔ v.toNat = 16 * d + d' := by
  rw [← BitVec.ofNat_add, ← BitVec.toNat_inj, BitVec.toNat_ofNat, Nat.mod_eq_of_lt (by omega), Nat.mul_comm]

theorem isTextWire_iff : isTextWire c st pl h1 h2 = true ↔
    isStart st = true ∧ (∀ b ∈ pl, IsOrdinary b) ∧ pl.length ≤ c.bufCap
      ∧ ∃ d d', hexval h1 = some d ∧ hexval h2 = some d' ∧ (xor8 pl).toNat = 16 * d + d' := by
  unfold isTextWire IsOrdinary
  cases hexval h1 <;> cases hexval h2 <;> simp [and_assoc]

/-- The payload bytes of a frame are stored one after another (43_frame_parser.md R202). -/
theorem feeds_text_payload (hst : fp.st = .accumulating) (hcnt : fp.cnt = 0) (hbuf : fp.buf.length = c.bufCap)
    (hpl : ∀ b ∈ pl, IsOrdinary b) (hfit : pl.length ≤ c.bufCap) :
    Feeds c .text fp pl (quietAnswers pl.length) (fp.holding pl) := by
  induction pl using List.reverseRecOn with
  | nil =>
    rw [ParserUnit.holding_nil hcnt]
    exact .nil fp
  | append_singleton pl b ih =>
    rw [List.length_append, List.length_singleton] at hfit
    obtain ⟨hstart, hstar, hcr⟩ := hpl b (by simp)
    have before := ih (fun b hb => hpl b (List.mem_append_left _ hb)) (by omega)
    have hst' : (fp.holding pl).st = .accumulating := hst
    have hroom : (fp.holding pl).cnt ≠ c.bufCap := by rw [ParserUnit.holding_cnt]; omega
    have step : parserStep c .text (fp.holding pl) b = some (PushStep.quiet ((fp.holding pl).storePayload b)) := by
      rw [parserStep_text, textStep_accumulating hst' hstart, textAccumulate_room hstar hcr hroom]
      rfl
    rw [ParserUnit.holding_storePayload (by omega)] at step
    rw [List.length_append, List.length_singleton]
    exact before.concat_quiet step

/-- The five bytes that end a frame with a correct checksum (43_frame_parser.md R203, R204). -/
theorem feeds_text_tail (hst : fp.st = .accumulating) (hd : hexval h1 = some d) (hd' : hexval h2 = some d')
    (hxor : (xor8 fp.accumulated).toNat = 16 * d + d') : ∃ fp', Feeds c .text fp [chStar, h1, h2, chCr, chLf]
      (quietAnswers 4 ++ [(1, some (textFrame c fp.accumulated true))]) fp' ∧ fp'.st = .sync := by
  let received : BitVec 8 := BitVec.ofNat 8 (d * 16) + BitVec.ofNat 8 d'
  have star : parserStep c .text fp chStar = some (PushStep.quiet { fp with st := .checksum1 }) := by
    rw [parserStep_text, textStep_accumulating hst rfl, textAccumulate_star]
  have digit1 : parserStep c .text { fp with st := .checksum1 } h1 =
      some (PushStep.quiet { fp with st := .checksum2, ckrx := BitVec.ofNat 8 (d * 16) }) := by
    rw [parserStep_text, textStep_checksum1 rfl (isStart_of_hexval hd), textChecksum1_of_hexval hd]
  have digit2 : parserStep c .text { fp with st := .checksum2, ckrx := BitVec.ofNat 8 (d * 16) } h2 =
      some (PushStep.quiet { fp with st := .expectCr, ckrx := received }) := by
    rw [parserStep_text, textStep_checksum2 rfl (isStart_of_hexval hd'), textChecksum2_of_hexval hd']
  have cr : parserStep c .text { fp with st := .expectCr, ckrx := received } chCr =
      some (PushStep.quiet { fp with st := .expectLf, ckrx := received }) := by
    rw [parserStep_text, textStep_expectCr rfl rfl, textExpectCr_cr]
  have hvalid : xor8 fp.accumulated = received := (received_eq_iff _ (hexval_lt hd) (hexval_lt hd')).mpr hxor
  have lf : parserStep c .text { fp with st := .expectLf, ckrx := received } chLf = some
      { fp := textIdle { fp with st := .expectLf, ckrx := received }, ok := true,
        frame := some (textFrame c fp.accumulated true) } := by
    rw [parserStep_text, textStep_expectLf rfl rfl, textExpectLf_of_valid hvalid]
    rfl
  exact ⟨_, .cons star (.cons digit1 (.cons digit2 (.cons cr (.single lf)))), rfl⟩

/-- A wire frame fed in any TEXT state answers value 1 on its last byte only, with its frame, and leaves `Sync`. -/
theorem feeds_textWire (hfp : fp.Inv c .text) (hwire : isTextWire c st pl h1 h2 = true) :
    ∃ fp', Feeds c .text fp (textWire st pl h1 h2) (quietAnswers (pl.length + 5) ++ [(1, some (textFrame c pl true))]) fp'
      ∧ fp'.st = .sync := by
  obtain ⟨hfit, hbuf, -⟩ := hfp
  obtain ⟨hstart, hpl, hlength, d, d', hd, hd', hxor⟩ := isTextWire_iff.mp hwire
  have started : Feeds c .text fp [st] (quietAnswers 1) (textStart fp) :=
    .single (r := PushStep.quiet _) (textStep_of_isStart hfit hstart)
  have stored := feeds_text_payload (fp := textStart fp) rfl rfl hbuf hpl hlength
  have hacc := ParserUnit.holding_accumulated (textStart fp) pl
  obtain ⟨fp', ended, hsync⟩ := feeds_text_tail (c := c) (fp := (textStart fp).holding pl) rfl hd hd'
    (by rw [hacc]; exact hxor)
  have whole := (started.append stored).append ended
  rw [← List.append_assoc, quietAnswers_append, quietAnswers_append, hacc, show 1 + pl.length + 4 = pl.length + 5 by omega]
    at whole
  exact ⟨fp', whole, hsync⟩

/-! #### What FP.WRAP emits -/

variable {start : Byte} {n : BitVec 32}

/-- `P` is what a read of the range gives (00_scope.md R9). -/
theorem Holds.eq_readBytes {m : Memory} {a n : Nat} (h : Holds m a n pl) : pl = m.readBytes a n := by
  obtain ⟨hlength, hget⟩ := h
  apply List.ext_getElem?
  intro k
  by_cases hk : k < n
  · rw [hget k hk, Memory.getElem?_readBytes _ _ _ _ hk]
  · rw [List.getElem?_eq_none (by omega), List.getElem?_eq_none (by rw [Memory.readBytes_length]; omega)]

/-- Where FP.WRAP answered `S_OK` its reply completed (60_exceptions.md R300). -/
theorem exec_fpWrap_ok {q : Profile} (hx : s.Runs x) (hp : s.cfg.instProfile? s.port = some q)
    (h : exec (.fpWrap start n) s = .next t) (hok : t.rsp.status = .sOk) :
    ∃ y, wrapReply s.cfg start n x q = .done y t.rsp := by
  have hreply : Instr.reply s.cfg s.port x (.fpWrap start n) = some (wrapReply s.cfg start n x q) := by
    simp [Instr.reply, hp]
  rcases exec_next_reply hx rfl h with ⟨y, r, hq, rfl⟩ | ⟨e, info, hq, rfl⟩
  · exact ⟨y, Option.some.inj (hreply.symm.trans hq)⟩
  · exact absurd hok ((Status.isError_iff e).mp (reply_statusFits hq)).1

theorem wrapReply_text_done {r : Response} (h : wrapReply c start n x .text = .done y r) :
    isStart start = true ∧ n.toNat ≤ c.bufCap ∧ r.bytes = wrapText start (x.hb.readBytes 0 n.toNat) := by
  simp only [wrapReply, wrapTextReply] at h
  split at h
  · cases h
  · rename_i hstart
    split at h <;> cases h
    exact ⟨by simpa using hstart, by omega, rfl⟩

/-- FP.WRAP's two checksum characters are the XOR of the payload (43_frame_parser.md R241). -/
theorem wrapText_eq_textWire (st : Byte) (pl : List Byte) : ∃ h1 h2 d d', wrapText st pl = textWire st pl h1 h2
    ∧ hexval h1 = some d ∧ hexval h2 = some d' ∧ (xor8 pl).toNat = 16 * d + d' := by
  have := (xor8 pl).isLt
  refine ⟨_, _, _, _, by rw [wrapText_eq, textWire]; rfl, hexval_hexu _, hexval_hexu _, ?_⟩
  simp only [BitVec.toNat_ofNat]
  omega

/-- Settles O38: what FP.WRAP emits is a wire frame, and any TEXT state parses it as `feeds_textWire` says. -/
theorem wrapThenParseText : Obligations.WrapThenParseText := by
  intro s t u x y start n pl hx hp h hok hholds hpl hu hcfg hy hup hst
  obtain ⟨_, hdone⟩ := exec_fpWrap_ok hx hp h hok
  obtain ⟨hstart, hfit, hbytes⟩ := wrapReply_text_done hdone
  obtain ⟨h1, h2, d, d', hwire, hd, hd', hxor⟩ := wrapText_eq_textWire start pl
  rw [← hholds.eq_readBytes, hwire] at hbytes
  have hordinary : ∀ b ∈ pl, IsOrdinary b := fun b hb =>
    have ⟨hdollar, hbang, hstar, hcr⟩ := hpl b hb
    ⟨isStart_eq_false hdollar hbang, hstar, hcr⟩
  obtain ⟨q, hq, -, -, -, hfp, -⟩ := hu.exists_profile hy
  obtain rfl := Option.some.inj (hup.symm.trans hq)
  obtain ⟨fp', hfeed, -⟩ := feeds_textWire hfp
    (isTextWire_iff.mpr ⟨hstart, hordinary, by rw [hholds.1, hcfg]; exact hfit, d, d', hd, hd', hxor⟩)
  obtain ⟨rs, v, -, hrun, hanswers, -⟩ := hfeed.exists_runAll hy rfl rfl hup
  rw [hbytes, ← hholds.1]
  exact ⟨rs, v, hrun, hanswers⟩

end Sys2Proof.Machine
end

section
/-! ### TEXT resynchronization

What the TEXT parser has taken of a frame in progress is the end of the stream, so it validates a frame only where the
stream holds a wire frame; and a start byte gets it out of every state (43_frame_parser.md R206, R213). -/

namespace Sys2Proof.Machine

variable {c : Config} {fp fp' : ParserUnit} {b : Byte} {h j w : List Byte} {r : PushStep}
  {as : List (DataWord × Option Frame)}

/-- `w` is what the parser has taken of the frame in progress after its start byte (43_frame_parser.md R202 to R204). -/
inductive ParserUnit.Received (fp : ParserUnit) : List Byte → Prop where
  | payload (hst : fp.st = .accumulating) : fp.Received fp.accumulated
  | star (hst : fp.st = .checksum1) : fp.Received (fp.accumulated ++ [chStar])
  | digit {h1 : Byte} {d : Nat} (hst : fp.st = .checksum2) (hd : hexval h1 = some d)
      (hckrx : fp.ckrx = BitVec.ofNat 8 (d * 16)) : fp.Received (fp.accumulated ++ [chStar, h1])
  | digits {h1 h2 : Byte} {d d' : Nat} (hst : fp.st = .expectCr) (hd : hexval h1 = some d) (hd' : hexval h2 = some d')
      (hckrx : fp.ckrx = BitVec.ofNat 8 (d * 16) + BitVec.ofNat 8 d') : fp.Received (fp.accumulated ++ [chStar, h1, h2])
  | cr {h1 h2 : Byte} {d d' : Nat} (hst : fp.st = .expectLf) (hd : hexval h1 = some d) (hd' : hexval h2 = some d')
      (hckrx : fp.ckrx = BitVec.ofNat 8 (d * 16) + BitVec.ofNat 8 d') :
      fp.Received (fp.accumulated ++ [chStar, h1, h2, chCr])

/-- After the stream `h` the parser waits for a start byte, or `h` ends with the frame in progress. -/
inductive TextTrace (fp : ParserUnit) (h : List Byte) : Prop where
  | idle (hst : fp.st = .sync)
  | inFrame {st : Byte} {w : List Byte} (hstart : isStart st = true) (hacc : ∀ b ∈ fp.accumulated, IsOrdinary b)
      (hw : fp.Received w) (hin : st :: w <:+ h)

theorem suffix_concat (hin : w <:+ h) (b : Byte) : w ++ [b] <:+ h ++ [b] := by
  obtain ⟨front, rfl⟩ := hin
  exact ⟨front, by simp⟩

/-- A frame in progress that took the byte. -/
theorem TextTrace.extend {st : Byte} {fp' : ParserUnit} (hstart : isStart st = true)
    (hacc : ∀ b ∈ fp'.accumulated, IsOrdinary b) (hin : st :: w <:+ h) (hw : fp'.Received (w ++ [b])) :
    TextTrace fp' (h ++ [b]) :=
  .inFrame hstart hacc hw (suffix_concat hin b)

/-- In `ExpectLf` an LF after a correct checksum would end a wire frame (43_frame_parser.md R213). -/
theorem xor8_ne_of_noTextWire {st h1 h2 : Byte} {d d' : Nat} {pl : List Byte} (hj : NoTextWire c j)
    (hstart : isStart st = true) (hpl : ∀ b ∈ pl, IsOrdinary b) (hfit : pl.length ≤ c.bufCap) (hd : hexval h1 = some d)
    (hd' : hexval h2 = some d') (hin : st :: (pl ++ [chStar, h1, h2, chCr]) <:+ h) (hpre : h ++ [chLf] <+: j) :
    xor8 pl ≠ BitVec.ofNat 8 (d * 16) + BitVec.ofNat 8 d' := by
  intro hxor
  have hwire : isTextWire c st pl h1 h2 = true := isTextWire_iff.mpr
    ⟨hstart, hpl, hfit, d, d', hd, hd', (received_eq_iff _ (hexval_lt hd) (hexval_lt hd')).mp hxor⟩
  have hend : textWire st pl h1 h2 <:+ h ++ [chLf] := by
    simpa [textWire] using suffix_concat hin chLf
  exact hj st pl h1 h2 hwire (hend.isInfix.trans hpre.isInfix)

theorem accumulated_storePayload (hroom : fp.cnt < fp.buf.length) (b : Byte) :
    (fp.storePayload b).accumulated = fp.accumulated ++ [b] := take_succ_set hroom b

/-- A push keeps the trace and answers value 0. -/
def PushStep.KeepsTrace (r : PushStep) (h : List Byte) (b : Byte) : Prop := TextTrace r.fp (h ++ [b]) ∧ r.ok = false

theorem PushStep.keepsTrace_of_sync (hst : r.fp.st = .sync) (hok : r.ok = false) : r.KeepsTrace h b := ⟨.idle hst, hok⟩

section InFrame

variable {st : Byte} (hfp : fp.Inv c .text) (hb : isStart b = false) (hstart : isStart st = true)
  (hacc : ∀ b ∈ fp.accumulated, IsOrdinary b)
include hfp hb hstart hacc

/-- An ordinary byte that is stored lengthens the frame in progress, every other byte ends or aborts the payload
(43_frame_parser.md R202, R205, R208). -/
theorem textAccumulate_keepsTrace (hst : fp.st = .accumulating) (hin : st :: fp.accumulated <:+ h) :
    (textAccumulate c fp b).KeepsTrace h b := by
  obtain ⟨-, hbuf, hcnt, -⟩ := hfp
  by_cases hstar : b = chStar
  · subst hstar
    rw [textAccumulate_star]
    exact ⟨.extend hstart hacc hin (.star rfl), rfl⟩
  by_cases hcr : b = chCr
  · subst hcr
    rw [textAccumulate_cr]
    exact PushStep.keepsTrace_of_sync rfl rfl
  by_cases hfull : fp.cnt = c.bufCap
  · rw [textAccumulate_full hstar hcr hfull]
    exact PushStep.keepsTrace_of_sync rfl rfl
  rw [textAccumulate_room hstar hcr hfull]
  have hstored := accumulated_storePayload (fp := fp) (by omega) b
  refine ⟨.extend (fp' := fp.storePayload b) hstart ?_ hin ?_, rfl⟩
  · rw [hstored]
    intro a ha
    rcases List.mem_append.mp ha with ha | ha
    · exact hacc a ha
    · exact List.mem_singleton.mp ha ▸ ⟨hb, hstar, hcr⟩
  · rw [← hstored]
    exact .payload hst

/-- Each state of a frame in progress takes the byte it expects or leaves for `Sync`; within a stream that holds no wire
frame none validates (43_frame_parser.md R202 to R204). -/
theorem textStep_keepsTrace_inFrame (hj : NoTextWire c j) (hw : fp.Received w) (hin : st :: w <:+ h) (hpre : h ++ [b] <+: j)
    (step : textStep c fp b = some r) : r.KeepsTrace h b := by
  cases hw with
  | payload hst =>
    obtain rfl := Option.some.inj ((textStep_accumulating hst hb).symm.trans step)
    exact textAccumulate_keepsTrace hfp hb hstart hacc hst hin
  | star hst =>
    obtain rfl := Option.some.inj ((textStep_checksum1 hst hb).symm.trans step)
    cases hd : hexval b with
    | none =>
      rw [textChecksum1_of_not_hex hd]
      exact PushStep.keepsTrace_of_sync rfl rfl
    | some d =>
      rw [textChecksum1_of_hexval hd]
      exact ⟨.extend hstart hacc hin (by simpa using .digit rfl hd rfl), rfl⟩
  | digit hst hd hckrx =>
    obtain rfl := Option.some.inj ((textStep_checksum2 hst hb).symm.trans step)
    cases hd' : hexval b with
    | none =>
      rw [textChecksum2_of_not_hex hd']
      exact PushStep.keepsTrace_of_sync rfl rfl
    | some d' =>
      rw [textChecksum2_of_hexval hd', hckrx]
      exact ⟨.extend hstart hacc hin (by simpa using .digits rfl hd hd' rfl), rfl⟩
  | digits hst hd hd' hckrx =>
    obtain rfl := Option.some.inj ((textStep_expectCr hst hb).symm.trans step)
    by_cases hcr : b = chCr
    · subst hcr
      rw [textExpectCr_cr]
      exact ⟨.extend hstart hacc hin (by simpa using .cr rfl hd hd' hckrx), rfl⟩
    · rw [textExpectCr_of_ne hcr]
      exact PushStep.keepsTrace_of_sync rfl rfl
  | cr hst hd hd' hckrx =>
    obtain rfl := Option.some.inj ((textStep_expectLf hst hb).symm.trans step)
    rw [textExpectLf_of_not_valid]
    · exact PushStep.keepsTrace_of_sync rfl rfl
    · obtain ⟨-, -, hcnt, -⟩ := hfp
      rintro ⟨rfl, hxor⟩
      refine xor8_ne_of_noTextWire hj hstart hacc ?_ hd hd' hin hpre (hxor.trans hckrx)
      exact (List.length_take_le _ _).trans hcnt

end InFrame

/-- One push within a stream that holds no wire frame keeps the trace and answers value 0. -/
theorem textStep_keepsTrace (hfp : fp.Inv c .text) (hj : NoTextWire c j) (htrace : TextTrace fp h) (hpre : h ++ [b] <+: j)
    (step : textStep c fp b = some r) : r.KeepsTrace h b := by
  cases hb : isStart b with
  | true =>
    obtain rfl := Option.some.inj ((textStep_of_isStart hfp.1 hb).symm.trans step)
    exact ⟨.inFrame hb (by simp [textStart, ParserUnit.accumulated]) (.payload rfl) (List.suffix_append h [b]), rfl⟩
  | false =>
    cases htrace with
    | idle hst =>
      obtain rfl := Option.some.inj ((textStep_sync hst hb).symm.trans step)
      exact PushStep.keepsTrace_of_sync hst rfl
    | inFrame hstart hacc hw hin => exact textStep_keepsTrace_inFrame hfp hb hstart hacc hj hw hin hpre step

/-- Bytes that hold no wire frame answer value 0 (43_frame_parser.md R213). -/
theorem feeds_of_noTextWire (hj : NoTextWire c j) (hfp : fp.Inv c .text) (htrace : TextTrace fp h) {rest : List Byte}
    (heq : h ++ rest = j) :
    ∃ as fp', Feeds c .text fp rest as fp' ∧ as.map Prod.fst = List.replicate rest.length 0 := by
  induction rest generalizing fp h with
  | nil => exact ⟨[], fp, .nil fp, rfl⟩
  | cons b rest ih =>
    have heq' : h ++ [b] ++ rest = j := by rw [← heq]; simp
    obtain ⟨r, step, ⟨hkeep, -⟩, -⟩ := parserStep_keeps (p := .text) rfl hfp b
    obtain ⟨htrace', hok⟩ := textStep_keepsTrace hfp hj htrace ⟨rest, heq'⟩ step
    obtain ⟨as, fp', hfeed, has⟩ := ih hkeep htrace' heq'
    refine ⟨_, fp', .cons step hfeed, ?_⟩
    rw [List.map_cons, has, PushStep.answer, hok]
    rfl

/-- Settles O40: the first frame leaves `Sync`, the bytes between answer 0, and the second frame's start byte restarts the
parser whatever state they left. -/
theorem textResynchronization : Obligations.TextResynchronization := by
  intro s x st1 st2 h1 h2 h3 h4 p1 p2 j hs hx hp hst hwire1 hwire2 hj
  obtain ⟨q, hq, -, -, -, hfp, -⟩ := hs.exists_profile hx
  obtain rfl := Option.some.inj (hp.symm.trans hq)
  obtain ⟨fp1, feed1, hsync⟩ := feeds_textWire hfp hwire1
  have hfp1 := feed1.inv rfl hfp
  obtain ⟨asj, fpj, feedj, hasj⟩ := feeds_of_noTextWire hj hfp1 (.idle (h := []) hsync) rfl
  obtain ⟨fp2, feed2, -⟩ := feeds_textWire (feedj.inv rfl hfp1) hwire2
  obtain ⟨rs, t, -, hrun, hanswers, -⟩ := ((feed1.append feedj).append feed2).exists_runAll hx rfl rfl hp
  obtain ⟨rs', rs2, rfl, hanswers', hanswers2⟩ := List.map_eq_append_iff.mp hanswers
  obtain ⟨rs1, rsj, rfl, hanswers1, hanswersj⟩ := List.map_eq_append_iff.mp hanswers'
  refine ⟨rs1, rsj, rs2, t, hrun, hanswers1, ?_, hanswers2⟩
  rw [← hasj, ← hanswersj, List.map_map]
  rfl

end Sys2Proof.Machine
end

section
/-! ### A BINARY wire frame

What a BINARY wire frame answers from a state that hunts for a sync sequence (43_frame_parser.md R214, R243). -/

namespace Sys2Proof.Machine

variable {c : Config} {p : BinProfile} {fp : ParserUnit} {b w0 w1 : Byte} {hdr pl f template rest : List Byte} {k : Nat}

/-! #### The sync sequence -/

/-- The parser unit at the start of a header (43_frame_parser.md R222). -/
def ParserUnit.atHeader (fp : ParserUnit) : ParserUnit := { fp with st := .bHeader, hcnt := 0, cnt := 0, tcnt := 0 }

/-- The rest of the sync sequence, from `BSync(k)` (43_frame_parser.md R222). -/
theorem feeds_sync_rest (hst : fp.st = .bSync k) (hrest : p.sync.drop k = rest) (hne : rest ≠ []) :
    Feeds c (.binary p) fp rest (quietAnswers rest.length) fp.atHeader := by
  induction rest generalizing fp k with
  | nil => exact absurd rfl hne
  | cons b rest ih =>
    have hmatch : p.sync[k]? = some b := by rw [← List.head?_drop, hrest]; rfl
    have hrest' : p.sync.drop (k + 1) = rest := by rw [← List.tail_drop, hrest]; rfl
    have hlength : p.sync.length - (k + 1) = rest.length := by rw [← List.length_drop, hrest']
    have hk : k < p.sync.length := (List.getElem?_eq_some_iff.mp hmatch).1
    cases rest with
    | nil =>
      have hlast : k + 1 = p.sync.length := by rw [List.length_nil] at hlength; omega
      refine .single (r := PushStep.quiet fp.atHeader) ?_
      rw [parserStep_binary, binStep_bSync b hst, binSync_of_last hmatch hlast]
      rfl
    | cons b' rest =>
      have hmore : k + 1 ≠ p.sync.length := by rw [List.length_cons] at hlength; omega
      have step : parserStep c (.binary p) fp b = some (PushStep.quiet { fp with st := .bSync (k + 1) }) := by
        rw [parserStep_binary, binStep_bSync b hst, binSync_of_match hmatch hmore]
      exact .cons step (ih (fp := { fp with st := .bSync (k + 1) }) rfl hrest' (by simp))

/-- A whole sync sequence, from `BSync(0)` or from a partial match whose first byte does not occur in `SYNC` again. -/
theorem feeds_sync (hst : fp.st = .bSync k) (hk : k < p.sync.length)
    (h0 : k = 0 ∨ ∀ i, 0 < i → p.sync[i]? ≠ p.sync[0]?) :
    Feeds c (.binary p) fp p.sync (quietAnswers p.sync.length) fp.atHeader := by
  have hne : p.sync ≠ [] := List.ne_nil_of_length_pos (by omega)
  by_cases hzero : k = 0
  · exact feeds_sync_rest (hzero ▸ hst) rfl hne
  have honce := h0.resolve_left hzero
  obtain ⟨b, rest, hsync⟩ := List.exists_cons_of_ne_nil hne
  have hfirst : p.sync[0]? = some b := by rw [hsync]; rfl
  have step : parserStep c (.binary p) fp b = some (PushStep.quiet { fp with st := .bSync 1 }) := by
    rw [parserStep_binary, binStep_bSync b hst,
      binSync_of_restart (fun h => honce k (by omega) (h.trans hfirst.symm)) ⟨by omega, hfirst⟩]
  have hrest : p.sync.drop 1 = rest := by rw [hsync]; rfl
  have hmore : rest ≠ [] := List.ne_nil_of_length_pos (by rw [← hrest, List.length_drop]; omega)
  have tail := feeds_sync_rest (c := c) (fp := { fp with st := .bSync 1 }) rfl hrest hmore
  rw [hsync]
  exact .cons step tail

/-! #### The header and the payload -/

/-- The parser unit with exactly the header bytes `hdr` received. -/
def ParserUnit.headed (fp : ParserUnit) (hdr : List Byte) : ParserUnit :=
  { fp with hdr := hdr ++ fp.hdr.drop hdr.length, hcnt := hdr.length }

theorem ParserUnit.headed_nil (h : fp.hcnt = 0) : fp.headed [] = fp := by
  cases fp
  cases h
  rfl

theorem ParserUnit.headed_storeHeader (h : hdr.length < fp.hdr.length) (b : Byte) :
    (fp.headed hdr).storeHeader b = fp.headed (hdr ++ [b]) := by
  have hstored := set_length_append_drop h b
  simp only [ParserUnit.storeHeader, ParserUnit.headed, hstored, List.length_append, List.length_singleton]

/-- A header that is not complete is stored byte by byte (43_frame_parser.md R223). -/
theorem feeds_header_front (hst : fp.st = .bHeader) (hcnt : fp.hcnt = 0) (hfp : fp.hdr.length = p.hlen)
    (hfit : hdr.length < p.hlen) : Feeds c (.binary p) fp hdr (quietAnswers hdr.length) (fp.headed hdr) := by
  induction hdr using List.reverseRecOn with
  | nil =>
    rw [ParserUnit.headed_nil hcnt]
    exact .nil fp
  | append_singleton hdr b ih =>
    rw [List.length_append, List.length_singleton] at hfit
    have hst' : (fp.headed hdr).st = .bHeader := hst
    have step : parserStep c (.binary p) (fp.headed hdr) b = some (PushStep.quiet ((fp.headed hdr).storeHeader b)) := by
      rw [parserStep_binary, binStep_bHeader b hst', binHeader_of_more (Nat.ne_of_lt hfit)]
    rw [ParserUnit.headed_storeHeader (by omega)] at step
    rw [List.length_append, List.length_singleton]
    exact (ih (by omega)).concat_quiet step

/-- The last header byte completes the header (43_frame_parser.md R223). -/
theorem feeds_header (hst : fp.st = .bHeader) (hcnt : fp.hcnt = 0) (hfp : fp.hdr.length = p.hlen)
    (hhdr : hdr.length = p.hlen) (hpos : 1 ≤ p.hlen) : Feeds c (.binary p) fp hdr
      (quietAnswers (hdr.length - 1) ++ [(binHeaderDone c p (fp.headed hdr)).answer])
      (binHeaderDone c p (fp.headed hdr)).fp := by
  obtain ⟨front, b, rfl⟩ := List.eq_nil_or_concat' hdr |>.resolve_left (List.ne_nil_of_length_pos (by omega))
  rw [List.length_append, List.length_singleton] at hhdr ⊢
  have hst' : (fp.headed front).st = .bHeader := hst
  have step : parserStep c (.binary p) (fp.headed front) b = some (binHeaderDone c p ((fp.headed front).storeHeader b)) := by
    rw [parserStep_binary, binStep_bHeader b hst', binHeader_of_last hhdr]
  rw [ParserUnit.headed_storeHeader (by omega)] at step
  exact (feeds_header_front hst hcnt hfp (by omega)).concat step

/-- A payload that is not complete is stored byte by byte, whatever the bytes (43_frame_parser.md R224). -/
theorem feeds_payload_front (hst : fp.st = .bPayload) (hcnt : fp.cnt = 0) (hbuf : pl.length ≤ fp.buf.length)
    (hfit : pl.length < fp.plen) : Feeds c (.binary p) fp pl (quietAnswers pl.length) (fp.holding pl) := by
  induction pl using List.reverseRecOn with
  | nil =>
    rw [ParserUnit.holding_nil hcnt]
    exact .nil fp
  | append_singleton pl b ih =>
    rw [List.length_append, List.length_singleton] at hfit hbuf
    have hst' : (fp.holding pl).st = .bPayload := hst
    have step : parserStep c (.binary p) (fp.holding pl) b = some (PushStep.quiet ((fp.holding pl).storePayload b)) := by
      rw [parserStep_binary, binStep_bPayload b hst', binPayload_of_more (Nat.ne_of_lt hfit)]
    rw [ParserUnit.holding_storePayload (by omega)] at step
    rw [List.length_append, List.length_singleton]
    exact (ih (by omega) (by omega)).concat_quiet step

/-- The last payload byte ends the payload (43_frame_parser.md R224). -/
theorem feeds_payload (hst : fp.st = .bPayload) (hcnt : fp.cnt = 0) (hbuf : pl.length ≤ fp.buf.length)
    (hpl : pl.length = fp.plen) (hpos : 1 ≤ pl.length) : Feeds c (.binary p) fp pl
      (quietAnswers (pl.length - 1) ++ [(binEndPayload p (fp.holding pl)).answer]) (binEndPayload p (fp.holding pl)).fp := by
  obtain ⟨front, b, rfl⟩ := List.eq_nil_or_concat' pl |>.resolve_left (List.ne_nil_of_length_pos hpos)
  rw [List.length_append, List.length_singleton] at hbuf hpl ⊢
  have hst' : (fp.holding front).st = .bPayload := hst
  have step : parserStep c (.binary p) (fp.holding front) b = some (binEndPayload p ((fp.holding front).storePayload b)) := by
    rw [parserStep_binary, binStep_bPayload b hst', binPayload_of_last hpl]
  rw [ParserUnit.holding_storePayload (by omega)] at step
  exact (feeds_payload_front hst hcnt (by omega) (by omega)).concat step

theorem quiet_answer (fp : ParserUnit) : [(PushStep.quiet fp).answer] = quietAnswers 1 := rfl

theorem quietAnswers_append_oneAtEnd (m : Nat) {n : Nat} (hn : 1 ≤ n) (fr : Frame) :
    quietAnswers m ++ oneAtEnd n fr = oneAtEnd (m + n) fr := by
  rw [oneAtEnd, ← quietAnswers, ← List.append_assoc, quietAnswers_append, ← Nat.add_sub_assoc hn]
  rfl

/-- What the parser unit holds where a payload ended: the header, the payload and room for a trailer. -/
structure ParserUnit.Framed (fp : ParserUnit) (p : BinProfile) (hdr pl : List Byte) : Prop where
  hdr_eq : fp.hdr = hdr
  hdr_length : hdr.length = p.hlen
  payload_eq : fp.buf.take fp.plen = pl
  trl_length : fp.trl.length = 2

/-- A header whose length field is right and its payload, from the start of the header to `end_payload()`
(43_frame_parser.md R223, R224). -/
theorem feeds_body (hw : p.wf = true) (hfp : fp.Inv c (.binary p)) (hhdr : hdr.length = p.hlen)
    (hraw : rawLength p hdr = pl.length + p.lenAdj) (hmul : (pl.length + p.lenAdj) % p.lenMult = 0)
    (hfit : pl.length ≤ c.bufCap) : ∃ fp', fp'.Framed p hdr pl ∧ Feeds c (.binary p) fp.atHeader (hdr ++ pl)
      (quietAnswers (hdr.length + pl.length - 1) ++ [(binEndPayload p fp').answer]) (binEndPayload p fp').fp := by
  obtain ⟨-, hbuf, -, hroom, -, -, htrl, -⟩ := hfp
  obtain ⟨-, ⟨hpos, -⟩, -⟩ := (BinProfile.wf_iff_constraints p).mp hw
  have hroom : fp.hdr.length = p.hlen := hroom
  let headed : ParserUnit := fp.atHeader.headed hdr
  have hstored : headed.hdr = hdr := by
    have hrest : fp.atHeader.hdr.drop hdr.length = [] := List.drop_eq_nil_of_le (hroom.trans hhdr.symm).le
    exact (congrArg (hdr ++ ·) hrest).trans (List.append_nil hdr)
  have hraw' : rawLength p headed.hdr = pl.length + p.lenAdj := by rw [hstored, hraw]
  have hgood : ¬BadLength c p (rawLength p headed.hdr) := by
    simp only [hraw', BadLength]
    omega
  have head := feeds_header (c := c) (fp := fp.atHeader) rfl rfl hroom hhdr hpos
  rcases Nat.eq_zero_or_pos pl.length with hempty | hpl
  · obtain rfl := List.eq_nil_of_length_eq_zero hempty
    rw [binHeaderDone_of_empty hgood (hraw'.trans (by rw [hempty, Nat.zero_add]))] at head
    refine ⟨{ headed with plen := 0 }, ⟨hstored, hhdr, rfl, htrl⟩, ?_⟩
    rw [List.append_nil]
    exact head
  · rw [binHeaderDone_of_payload hgood (by omega), hraw', Nat.add_sub_cancel, quiet_answer, quietAnswers_append,
      Nat.sub_add_cancel (by omega)] at head
    let opened : ParserUnit := { headed with plen := pl.length, st := .bPayload }
    have body := feeds_payload (c := c) (p := p) (fp := opened) rfl rfl (hbuf ▸ hfit) rfl hpl
    refine ⟨opened.holding pl, ⟨hstored, hhdr, ParserUnit.holding_accumulated opened pl, htrl⟩, ?_⟩
    have whole := head.append body
    rwa [← List.append_assoc, quietAnswers_append, ← Nat.add_sub_assoc hpl] at whole

/-! #### The checksum -/

/-- Validation of a correct checksum emits the frame (43_frame_parser.md R226). -/
theorem binValidate_of_valid (hfp : fp.Framed p hdr pl) (hrx : receivedChecksum p fp = [w0, w1])
    (hvalid : receivedValue p w0 w1 = (frameChecksum p hdr pl).toNat) : binValidate p fp =
      { fp := binIdle fp, ok := true, frame := some { id := binId p hdr, payload := pl, checksumValid := true } } := by
  obtain ⟨rfl, hlength, rfl, -⟩ := hfp
  rw [binValidate_eq hlength hrx, if_pos hvalid.symm]

/-- The bytes after the payload of a frame with a correct checksum: none for a HEADER profile, the checksum for a TRAILER
profile (43_frame_parser.md R224, R225). -/
theorem feeds_trailer {trl bytes : List Byte} {n : Nat} (hfp : fp.Framed p hdr pl)
    (hvalid : receivedValue p w0 w1 = (frameChecksum p hdr pl).toNat) (htrl : ChecksumPlaced p hdr trl w0 w1)
    {fp0 : ParserUnit} (before : Feeds c (.binary p) fp0 bytes (quietAnswers n ++ [(binEndPayload p fp).answer])
      (binEndPayload p fp).fp) : ∃ fp', Feeds c (.binary p) fp0 (bytes ++ trl)
      (oneAtEnd (n + trl.length + 1) { id := binId p hdr, payload := pl, checksumValid := true }) fp'
      ∧ fp'.st = .bSync 0 := by
  unfold ChecksumPlaced at htrl
  cases hloc : p.ckLoc with
  | header =>
    rw [if_pos hloc] at htrl
    obtain ⟨rfl, h0, h1⟩ := htrl
    rw [binEndPayload_header hloc, binValidate_of_valid hfp
      (receivedChecksum_header hloc (hfp.hdr_eq.symm ▸ h0) (hfp.hdr_eq.symm ▸ h1)) hvalid] at before
    rw [List.append_nil]
    exact ⟨_, before, rfl⟩
  | trailer =>
    rw [if_neg (by rw [hloc]; decide)] at htrl
    subst htrl
    obtain ⟨hhdr, hlength, hpl, htrl⟩ := hfp
    obtain ⟨t0, t1, htrl⟩ := List.length_eq_two.mp htrl
    rw [binEndPayload_trailer hloc, quiet_answer, quietAnswers_append] at before
    have first : parserStep c (.binary p) { fp with st := .bTrailer, tcnt := 0 } w0 =
        some (PushStep.quiet { fp with st := .bTrailer, trl := [w0, t1], tcnt := 1 }) := by
      rw [parserStep_binary, binStep_bTrailer _ rfl, binTrailer_first rfl, htrl]
      rfl
    let received : ParserUnit := { fp with st := .bTrailer, trl := [w0, w1], tcnt := 2 }
    have second : parserStep c (.binary p) { fp with st := .bTrailer, trl := [w0, t1], tcnt := 1 } w1 = some
        { fp := binIdle received, ok := true,
          frame := some { id := binId p hdr, payload := pl, checksumValid := true } } := by
      rw [parserStep_binary, binStep_bTrailer _ rfl, binTrailer_second rfl]
      exact congrArg some (binValidate_of_valid (fp := received) ⟨hhdr, hlength, hpl, rfl⟩
        (receivedChecksum_trailer hloc rfl) hvalid)
    have whole := (before.concat_quiet first).concat second
    rw [List.append_assoc] at whole
    exact ⟨binIdle received, whole, rfl⟩

/-! #### The whole frame -/

theorem IsBinWire.length_pos (hw : p.wf = true) (h : IsBinWire c p pl f) : 1 ≤ f.length := by
  obtain ⟨template, -, -, hwrap⟩ := h
  obtain ⟨-, rfl⟩ := wrapBin_eq_some_iff.mp hwrap
  obtain ⟨⟨hpos, -⟩, -⟩ := (BinProfile.wf_iff_constraints p).mp hw
  simp only [List.length_append]
  omega

/-- A wire frame answers value 1 on its last byte only, with its frame, and the parser hunts for the next sync sequence. -/
theorem feeds_binWire (hw : p.wf = true) (hfp : fp.Inv c (.binary p)) (hst : fp.st = .bSync k)
    (h0 : k = 0 ∨ ∀ i, 0 < i → p.sync[i]? ≠ p.sync[0]?) (hwire : IsBinWire c p pl f) :
    ∃ fp', Feeds c (.binary p) fp f (oneAtEnd f.length (wireFrame p pl f)) fp' ∧ fp'.st = .bSync 0 := by
  obtain ⟨template, ht, hfit, hwrap⟩ := hwire
  obtain ⟨⟨hraw, hmul⟩, rfl⟩ := wrapBin_eq_some_iff.mp hwrap
  have hfits := hfp.1
  have hk : k < p.sync.length := by
    rw [hst] at hfits
    simpa [ParserState.fits] using hfits
  obtain ⟨-, ⟨hpos, -⟩, -⟩ := (BinProfile.wf_iff_constraints p).mp hw
  have hH : (wrapHeader p template pl).length = p.hlen := wrapHeader_length hw ht
  obtain ⟨w0, w1, hW, hrx⟩ := exists_wrapChecksum_bytes (pl := pl) hw ht
  obtain ⟨fp1, hframed, body⟩ := feeds_body hw hfp hH (rawLength_wrapHeader hw ht hraw) hmul hfit
  obtain ⟨fp', tail, hlast⟩ := feeds_trailer hframed hrx (checksumPlaced_wrap hw ht hW) body
  have whole := (feeds_sync (c := c) hst hk h0).append tail
  have hframe : wireFrame p pl (p.sync ++ wrapHeader p template pl ++ pl ++ wrapTrailer p template pl) =
      { id := binId p (wrapHeader p template pl), payload := pl, checksumValid := true } := by
    simp [wireFrame, ← hH]
  have hlength : (p.sync ++ wrapHeader p template pl ++ pl ++ wrapTrailer p template pl).length = p.sync.length +
      ((wrapHeader p template pl).length + pl.length - 1 + (wrapTrailer p template pl).length + 1) := by
    simp only [List.length_append]
    omega
  refine ⟨fp', ?_, hlast⟩
  rw [hframe, hlength, ← quietAnswers_append_oneAtEnd _ (by omega)]
  simpa only [List.append_assoc] using whole

/-! #### What FP.WRAP emits -/

theorem wrapReply_binary_done {x y : Instance} {n : BitVec 32} {r : Response}
    (h : wrapReply c 0 n x (.binary p) = .done y r) :
    IsBinWire c p (x.hb.readBytes p.hlen (n.toNat - p.hlen)) r.bytes := by
  by_cases hin : c.hbCap < n.toNat ∨ n.toNat < p.hlen ∨ c.bufCap < n.toNat - p.hlen
  · simp [wrapReply, wrapBinReply, hin] at h
  · cases hout : wrapBin p (x.hb.readBytes 0 p.hlen) (x.hb.readBytes p.hlen (n.toNat - p.hlen)) with
    | none => rw [wrapReply_binary_of_none hin hout] at h; cases h
    | some out =>
      rw [wrapReply_binary_of_some hin hout] at h
      cases h
      exact ⟨_, Memory.readBytes_length .., by rw [Memory.readBytes_length]; omega, hout⟩

/-- Settles O39: what FP.WRAP emits is a wire frame, and `BSync(0)` parses it as `feeds_binWire` says. -/
theorem wrapThenParseBinary : Obligations.WrapThenParseBinary := by
  intro s t u x y p n pl hx hp h hok hholds hu hcfg hy hup hst
  obtain ⟨_, hdone⟩ := exec_fpWrap_ok hx hp h hok
  have hwire := wrapReply_binary_done hdone
  rw [← hholds.eq_readBytes, ← hcfg] at hwire
  obtain ⟨q, hq, hw, -, -, hfp, -⟩ := hu.exists_profile hy
  obtain rfl := Option.some.inj (hup.symm.trans hq)
  obtain ⟨fp', hfeed, -⟩ := feeds_binWire hw hfp hst (.inl rfl) hwire
  obtain ⟨rs, v, -, hrun, hanswers, -⟩ := hfeed.exists_runAll hy rfl rfl hup
  exact ⟨rs, v, hrun, hanswers⟩

end Sys2Proof.Machine
end

section
/-! ### BINARY resynchronization

Bytes that keep the parser hunting emit nothing and leave it in some `BSync(k)`; the next frame is found from there where
R222 loses no byte of its sync sequence (43_frame_parser.md R214, R222; log 16). -/

namespace Sys2Proof.Machine

variable {c : Config} {p : BinProfile} {s t u : State} {x y : Instance} {fp : ParserUnit} {b : Byte} {j : List Byte} {k : Nat}
  {i : Instr} {is : List Instr} {rs : List Response}

theorem binSync_quiet (p : BinProfile) (k : Nat) (fp : ParserUnit) (b : Byte) :
    ∃ fp', binSync p k fp b = PushStep.quiet fp' := by
  unfold binSync
  split_ifs <;> exact ⟨_, rfl⟩

/-- The run after the first command of a sequence that ran. -/
theorem runAll_tail (h : exec i s = .next t) (hrun : runAll (i :: is) s = some (rs, u)) :
    ∃ rs', runAll is t = some (rs', u) := by
  rw [runAll_cons_of_next h, Option.map_eq_some_iff] at hrun
  obtain ⟨⟨rs', v⟩, hrun, heq⟩ := hrun
  obtain ⟨-, rfl⟩ := Prod.mk.inj heq
  exact ⟨rs', hrun⟩

theorem HuntsTo.nil (hx : s.Runs x) (hst : x.fp.st = .bSync k) : HuntsTo s [] k :=
  ⟨fun i _ => ⟨[], s, x, k, by rw [List.take_nil]; rfl, hx, hst⟩, [], s, x, rfl, hx, hst⟩

/-- A hunt with one more byte in front. -/
theorem HuntsTo.cons {n : Nat} (hx : s.Runs x) (hst : x.fp.st = .bSync n) (push : exec (.fpPush b) s = .next t)
    (h : HuntsTo t j k) : HuntsTo s (b :: j) k := by
  obtain ⟨hall, rs, u, y, hrun, hlast⟩ := h
  refine ⟨fun i hi => ?_, _, u, y, runAll_feed_cons push hrun, hlast⟩
  cases i with
  | zero => exact ⟨[], s, x, n, rfl, hx, hst⟩
  | succ i =>
    obtain ⟨rs, u, y, n, hrun, hlast⟩ := hall i (Nat.le_of_succ_le_succ hi)
    exact ⟨_, u, y, n, runAll_feed_cons push hrun, hlast⟩

/-- A hunt goes on after its first byte. -/
theorem HuntsTo.tail (h : HuntsTo s (b :: j) k) (push : exec (.fpPush b) s = .next t) : HuntsTo t j k := by
  obtain ⟨hall, rs, u, y, hrun, hy, hst⟩ := h
  refine ⟨fun i hi => ?_, ?_⟩
  · obtain ⟨rs, u, y, n, hrun, hy, hst⟩ := hall (i + 1) (Nat.succ_le_succ hi)
    obtain ⟨rs', hrun'⟩ := runAll_tail push hrun
    exact ⟨rs', u, y, n, hrun', hy, hst⟩
  · obtain ⟨rs', hrun'⟩ := runAll_tail push hrun
    exact ⟨rs', u, y, hrun', hy, hst⟩

/-- A hunt starts in some `BSync(n)`. -/
theorem HuntsTo.bSync (h : HuntsTo s j k) (hx : s.Runs x) : ∃ n, x.fp.st = .bSync n := by
  obtain ⟨hall, -⟩ := h
  obtain ⟨rs, u, y, n, hrun, hy, hst⟩ := hall 0 (Nat.zero_le _)
  obtain ⟨-, rfl⟩ := Prod.mk.inj (Option.some.inj hrun)
  obtain rfl := Option.some.inj (hx.symm.trans hy)
  exact ⟨n, hst⟩

/-- A hunt emits nothing (43_frame_parser.md R222). -/
theorem HuntsTo.feeds (h : HuntsTo s j k) (hx : s.Runs x) (hp : s.cfg.instProfile? s.port = some (.binary p)) :
    ∃ fp', Feeds s.cfg (.binary p) x.fp j (quietAnswers j.length) fp' ∧ fp'.st = .bSync k := by
  induction j generalizing s x with
  | nil =>
    obtain ⟨-, rs, u, y, hrun, hy, hst⟩ := h
    obtain ⟨-, rfl⟩ := Prod.mk.inj (Option.some.inj hrun)
    obtain rfl := Option.some.inj (hx.symm.trans hy)
    exact ⟨x.fp, .nil _, hst⟩
  | cons b j ih =>
    obtain ⟨n, hst⟩ := h.bSync hx
    obtain ⟨fp1, hquiet⟩ := binSync_quiet p n x.fp b
    have step : parserStep s.cfg (.binary p) x.fp b = some (PushStep.quiet fp1) := by
      rw [parserStep_binary, binStep_bSync b hst, hquiet]
    have push := exec_fpPush hx hp step
    obtain ⟨fp', hfeed, hlast⟩ := ih (h.tail push) (State.after_runs hx _ _) hp
    exact ⟨fp', .cons step hfeed, hlast⟩

/-- Settles O41: the frame, the hunt and the frame again, on the parser unit alone; the hunt ends in a state from which
`feeds_sync` finds the second sync sequence. -/
theorem binaryResynchronization : Obligations.BinaryResynchronization := by
  intro s t x p pl1 f1 j pl2 f2 k rs1 hs hx hp hst hwire1 hwire2 hrun hhunts h0
  obtain ⟨q, hq, hw, -, -, hfp, -⟩ := hs.exists_profile hx
  obtain rfl := Option.some.inj (hp.symm.trans hq)
  obtain ⟨fp1, feed1, -⟩ := feeds_binWire hw hfp hst (.inl rfl) hwire1
  have hfp1 := feed1.inv hw hfp
  obtain ⟨rs, t', y, hrun', -, hy, rfl, hcfg, hport⟩ := feed1.exists_runAll hx rfl rfl hp
  obtain ⟨-, rfl⟩ := Prod.mk.inj (Option.some.inj (hrun.symm.trans hrun'))
  obtain ⟨fpj, feedj, hstj⟩ := hhunts.feeds hy (by rw [hcfg, hport]; exact hp)
  rw [hcfg] at feedj
  obtain ⟨fp2, feed2, -⟩ := feeds_binWire hw (feedj.inv hw hfp1) hstj h0 hwire2
  obtain ⟨rs, u, -, hall, hanswers, -⟩ := ((feed1.append feedj).append feed2).exists_runAll hx rfl rfl hp
  refine ⟨rs, u, hall, hanswers.trans ?_⟩
  rw [List.append_assoc, quietAnswers_append_oneAtEnd _ (hwire2.length_pos hw)]

/-! #### A sync sequence whose first byte repeats -/

/-- A TRAILER profile with the sync sequence `[1, 1, 2]`, a header of an id byte and a length byte. -/
def repeatedSync : BinProfile :=
  { sync := [1, 1, 2], hlen := 2, lenOff := 1, lenBytes := 1, lenOrder := .le, lenAdj := 0, lenMult := 1, idOff := 0,
    idBytes := 1, idOrder := .le, idMask := 255, ckKind := .fletcher8, ckOrder := .le, ckLoc := .trailer, ckOff := 0,
    ckStart := 0 }

/-- A parameter set of one such protocol. -/
def repeatedSyncConfig : Config :=
  { hbCap := 4, fxMax := 1, bufCap := 4, nockEmit := false, idSkip := 0, regCap := 1,
    profiles := [some (.binary repeatedSync)], protoId := [0] }

/-- The wire frame of id 5 and no payload: the FLETCHER8 of `05 00` is `05 0A`. -/
def repeatedSyncWire : List Byte := [1, 1, 2, 5, 0, 5, 10]

/-- Between the two frames a lone 1: the parser takes it and the second frame's first 1 for the two of a sync sequence, and
misses the 2 after the next (43_frame_parser.md R222). -/
theorem repeatedSync_misses_second_frame :
    ((runAll (feed (repeatedSyncWire ++ [1] ++ repeatedSyncWire)) (State.launch repeatedSyncConfig [])).map
      fun r => pushAnswers r.1) = some (oneAtEnd 7 (wireFrame repeatedSync [] repeatedSyncWire) ++ quietAnswers 8) := by
  decide

/-- Refutes O42: after the first frame a lone 1 leaves `BSync(1)`, and the second frame is missed. -/
theorem not_binaryResynchronizationFromPartialSync : ¬ Obligations.BinaryResynchronizationFromPartialSync := by
  intro h
  obtain ⟨rs, u, hrun, hanswers⟩ := h (State.launch repeatedSyncConfig []) _ _ repeatedSync [] repeatedSyncWire [1] []
    repeatedSyncWire 1 _ (State.launch_inv (by decide) nofun) rfl rfl rfl ⟨[5, 0], rfl, by decide, by decide⟩
    ⟨[5, 0], rfl, by decide, by decide⟩ rfl (.cons rfl rfl rfl (.nil rfl rfl))
  have hmissed := repeatedSync_misses_second_frame
  rw [hrun, Option.map_some, Option.some_inj, hanswers] at hmissed
  revert hmissed
  decide

end Sys2Proof.Machine
end

section
/-! ### Keys

Two ids match under a profile when they agree after its folding, byte by byte (44_registry_dispatch.md R261). -/

namespace Sys2Proof.Machine

/-- What a key match does to a byte of an id under a profile: TEXT folds ASCII letters, BINARY takes the byte as it is
(44_registry_dispatch.md R261). -/
def foldUnder : Profile → Byte → Byte
  | .text => foldCase
  | .binary _ => id

theorem idMatches_iff_map {p : Profile} {a b : List Byte} :
    idMatches p a b = true ↔ a.map (foldUnder p) = b.map (foldUnder p) := by
  cases p with
  | text => rw [idMatches_text, beq_iff_eq]; rfl
  | binary => rw [idMatches_binary, beq_iff_eq, foldUnder, List.map_id, List.map_id]

theorem keyMatches_iff {p : Profile} {proto : BitVec 8} {id : List Byte} {e : RegEntry} :
    keyMatches p proto id e = true ↔ e.proto = proto ∧ idMatches p e.id id = true := by
  rw [keyMatches, Bool.and_eq_true, beq_iff_eq]

/-- Two lists have the same image when they have the same length and their entries have the same images. -/
theorem map_eq_map_iff_getElem? {α β : Type} {f : α → β} {l l' : List α} :
    l.map f = l'.map f ↔
      l.length = l'.length ∧ ∀ (k : Nat) (a b : α), l[k]? = some a → l'[k]? = some b → f a = f b := by
  constructor
  · intro h
    refine ⟨by simpa using congrArg List.length h, fun k a b ha hb => ?_⟩
    have hk := congrArg (·[k]?) h
    simpa [ha, hb] using hk
  · rintro ⟨hlength, h⟩
    refine List.ext_getElem (by simpa using hlength) fun k hk hk' => ?_
    rw [List.getElem_map, List.getElem_map]
    exact h k _ _ (List.getElem?_eq_getElem _) (List.getElem?_eq_getElem _)

/-- The fold moves `a` to `z` down to `A` to `Z`; the subtraction does not wrap. -/
theorem foldCase_toNat (c : Byte) :
    (foldCase c).toNat = if 0x61 ≤ c.toNat ∧ c.toNat ≤ 0x7A then c.toNat - 0x20 else c.toNat := by
  unfold foldCase
  split_ifs with h
  · exact BitVec.toNat_sub_of_le (BitVec.le_def.mpr (show 0x20 ≤ c.toNat by omega))
  · rfl

/-- Settles O44: ids that match have equal images under the fold of the profile. -/
theorem keysMatchByFoldedBytes : Obligations.KeysMatchByFoldedBytes := by
  refine ⟨fun p proto id e => ?_, foldCase_toNat⟩
  rw [keyMatches_iff, idMatches_iff_map, map_eq_map_iff_getElem?]
  cases p <;> rfl

end Sys2Proof.Machine
end

section
/-! ### Registry search and the commands of the registry unit

By the invariant at most one entry in use matches a key, so a search answers the one that does; then an equation for each
branch of REG.ADD, REG.LOOKUP and REG.DISPATCH, and the statements about them (44_registry_dispatch.md R263 to R266). -/

namespace Sys2Proof.Machine

variable {c : Config} {s : State} {x : Instance} {g : Registry} {p : Profile} {proto handle : BitVec 8} {id : List Byte}
  {m : BitVec 4} {data : DataWord} {j : Nat} {e : RegEntry}

/-! #### The search -/

theorem MatchesAt.used_getElem? (h : MatchesAt g p proto id j e) : g.used[j]? = some e := by
  obtain ⟨hj, he, -⟩ := h
  rw [Registry.used, List.getElem?_take_of_lt hj, he]

/-- No key is registered twice, so the entry that matches is the first that does (44_registry_dispatch.md R263). -/
theorem Registry.find_of_matchesAt (hg : g.Inv c) (hp : c.profile? proto = some p) (h : MatchesAt g p proto id j e) :
    g.find p proto id = some (j, e) := by
  obtain ⟨-, -, -, -, hkeys⟩ := hg
  have hj := h.used_getElem?
  obtain ⟨-, -, hkey⟩ := h
  obtain ⟨rfl, hid⟩ := keyMatches_iff.mp hkey
  have hbefore : ∀ k, k < j → ∀ d, g.used[k]? = some d → keyMatches p e.proto id d = false := by
    intro k hk d hd
    refine Bool.eq_false_iff.mpr fun hmatch => ?_
    obtain ⟨hproto, hdid⟩ := keyMatches_iff.mp hmatch
    have hsame : keyMatches p e.proto e.id d = true :=
      keyMatches_iff.mpr ⟨hproto, idMatches_trans hdid (idMatches_symm p id e.id ▸ hid)⟩
    obtain ⟨hlk, rfl⟩ := List.getElem?_eq_some_iff.mp hd
    obtain ⟨hlj, rfl⟩ := List.getElem?_eq_some_iff.mp hj
    have hdistinct := List.pairwise_iff_getElem.mp hkeys k j hlk hlj hk p hp
    exact Bool.false_ne_true (hdistinct.symm.trans hsame)
  simpa [Registry.find] using findFrom_of_first (j := 0) hj hkey hbefore

theorem lookupResponse_of_matchesAt (hg : g.Inv c) (hp : c.profile? proto = some p) (h : MatchesAt g p proto id j e) :
    lookupResponse (g.find p proto id) = Response.ok (zext64 (e.handle.toNat + 256 * j)) := by
  rw [Registry.find_of_matchesAt hg hp h]
  rfl

theorem lookupResponse_of_unmatched (h : Unmatched g p proto id) :
    lookupResponse (g.find p proto id) = Response.unrecognized := by
  rw [Registry.find_eq_none_iff.mpr h]
  rfl

/-- The id operand of a command is the first `m` bytes of DATA (30_encoding.md R86). -/
theorem IdBytes.eq_idOperand (h : IdBytes data m.toNat id) : id = idOperand m data := by
  obtain ⟨hlength, hbytes⟩ := h
  refine List.ext_getElem? fun k => ?_
  by_cases hk : k < m.toNat
  · rw [hbytes k hk, idOperand, List.getElem?_map, List.getElem?_range hk, Option.map_some, idByte, BitVec.extractLsb',
      Nat.shiftRight_eq_div_pow]
  · rw [List.getElem?_eq_none (by omega), List.getElem?_eq_none (by simp [idOperand]; omega)]

/-! #### REG.ADD -/

theorem exec_regAdd_of_sealed (hs : s.reg.isSealed = true) :
    exec (.regAdd proto handle m data) s = .next (s.failed .eRegSealed 0) := by
  simp only [exec, execRegAdd, hs, if_true]
  rfl

theorem exec_regAdd_of_no_profile (hs : ¬ s.reg.isSealed = true) (hp : s.cfg.profile? proto = none) :
    exec (.regAdd proto handle m data) s = .next (s.failed .eBadKind proto.toNat) := by
  simp only [exec, execRegAdd, if_neg hs, hp, setWidth_eq_zext64, State.raise_zext64]

theorem exec_regAdd_of_long_id (hs : ¬ s.reg.isSealed = true) (hp : s.cfg.profile? proto = some p) (hm : idMax < m.toNat) :
    exec (.regAdd proto handle m data) s = .next (s.failed .eBadId m.toNat) := by
  simp only [exec, execRegAdd, if_neg hs, hp, if_pos hm, setWidth_eq_zext64, State.raise_zext64]

theorem exec_regAdd_of_found (hs : ¬ s.reg.isSealed = true) (hp : s.cfg.profile? proto = some p) (hm : ¬ idMax < m.toNat)
    (hfind : s.reg.find p proto (idOperand m data) = some (j, e)) :
    exec (.regAdd proto handle m data) s = .next (s.failed .eRegDuplicate j) := by
  simp only [exec, execRegAdd, if_neg hs, hp, if_neg hm, hfind, State.raise_zext64]

theorem exec_regAdd_of_full (hs : ¬ s.reg.isSealed = true) (hp : s.cfg.profile? proto = some p) (hm : ¬ idMax < m.toNat)
    (hnew : Unmatched s.reg p proto (idOperand m data)) (hfull : s.reg.n = s.cfg.regCap) :
    exec (.regAdd proto handle m data) s = .next (s.failed .eRegFull s.reg.n) := by
  simp only [exec, execRegAdd, if_neg hs, hp, if_neg hm, Registry.find_eq_none_iff.mpr hnew, if_pos hfull,
    State.raise_zext64]

theorem exec_regAdd_of_room (hs : ¬ s.reg.isSealed = true) (hp : s.cfg.profile? proto = some p) (hm : ¬ idMax < m.toNat)
    (hnew : Unmatched s.reg p proto (idOperand m data)) (hroom : s.reg.n ≠ s.cfg.regCap) :
    exec (.regAdd proto handle m data) s =
      .next { s with reg := s.reg.append { proto := proto, id := idOperand m data, handle := handle },
                     rsp := Response.ok (zext64 s.reg.n) } := by
  simp only [exec, execRegAdd, if_neg hs, hp, if_neg hm, Registry.find_eq_none_iff.mpr hnew, if_neg hroom]
  rfl

/-- Settles O45: an equation for each branch; a key with an entry that matches is found, by the invariant, at its index. -/
theorem regAddAppendsAnEntry : Obligations.RegAddAppendsAnEntry := by
  intro s proto handle m data id hg hid
  obtain rfl := hid.eq_idOperand
  by_cases hs : s.reg.isSealed = true
  · rw [if_pos hs]
    exact exec_regAdd_of_sealed hs
  · rw [if_neg hs]
    cases hp : s.cfg.profile? proto with
    | none => exact exec_regAdd_of_no_profile hs hp
    | some p =>
      by_cases hm : 8 < m.toNat
      · exact (if_pos hm).mpr (exec_regAdd_of_long_id hs hp hm)
      · refine (if_neg hm).mpr
          ⟨fun j e h => exec_regAdd_of_found hs hp hm (Registry.find_of_matchesAt hg hp h), fun hnew => ?_⟩
        split_ifs with hfull
        · exact exec_regAdd_of_full hs hp hm hnew hfull
        obtain ⟨hle, hlength, -⟩ := hg
        refine ⟨_, replaced_set (by omega) _, ?_⟩
        rw [exec_regAdd_of_room hs hp hm hnew hfull, Registry.append, Bool.eq_false_iff.mpr hs]

/-! #### REG.SEAL and REG.LOOKUP -/

theorem exec_regSeal (s : State) :
    exec .regSeal s = .next { s with reg := s.reg.seal, rsp := Response.ok (zext64 s.reg.n) } := rfl

theorem exec_regLookup_of_unsealed (hs : s.reg.isSealed = false) :
    exec (.regLookup proto m data) s = .next (s.failed .eRegNotSealed 0) := by
  simp only [exec, execRegLookup, hs]
  rfl

theorem exec_regLookup_of_no_profile (hs : s.reg.isSealed = true) (hp : s.cfg.profile? proto = none) :
    exec (.regLookup proto m data) s = .next (s.failed .eBadKind proto.toNat) := by
  simp only [exec, execRegLookup, hs, hp, setWidth_eq_zext64, State.raise_zext64]
  rfl

theorem exec_regLookup_of_long_id (hs : s.reg.isSealed = true) (hp : s.cfg.profile? proto = some p)
    (hm : idMax < m.toNat) : exec (.regLookup proto m data) s = .next (s.failed .eBadId m.toNat) := by
  simp only [exec, execRegLookup, hs, hp, if_pos hm, setWidth_eq_zext64, State.raise_zext64]
  rfl

theorem exec_regLookup_of_key (hs : s.reg.isSealed = true) (hp : s.cfg.profile? proto = some p) (hm : ¬ idMax < m.toNat) :
    exec (.regLookup proto m data) s = .next { s with rsp := lookupResponse (s.reg.find p proto (idOperand m data)) } := by
  simp only [exec, execRegLookup, hs, hp, if_neg hm]
  rfl

/-- Settles O46: after the three checks of REG.LOOKUP the response is that of the search. -/
theorem regSealAndLookup : Obligations.RegSealAndLookup := by
  refine ⟨exec_regSeal, fun s proto m data id hg hid => ?_⟩
  obtain rfl := hid.eq_idOperand
  cases hs : s.reg.isSealed with
  | false => exact exec_regLookup_of_unsealed hs
  | true =>
    rw [if_neg Bool.true_eq_false.mp]
    cases hp : s.cfg.profile? proto with
    | none => exact exec_regLookup_of_no_profile hs hp
    | some p =>
      dsimp only
      split_ifs with hm
      · exact exec_regLookup_of_long_id hs hp hm
      · rw [exec_regLookup_of_key hs hp hm]
        refine ⟨fun j e h => ?_, fun h => ?_⟩
        · rw [lookupResponse_of_matchesAt hg hp h]
        · rw [lookupResponse_of_unmatched h]
          rfl

/-! #### REG.DISPATCH -/

theorem exec_regDispatch_of_unsealed (hx : s.Runs x) (hs : s.reg.isSealed = false) :
    exec .regDispatch s = .next (s.failed .eRegNotSealed 0) := by
  simp only [exec, execRegDispatch, State.withInst_of_some hx, hs]
  rfl

theorem dispatchResponse_of_short_id (h : id.length ≤ idMax) :
    dispatchResponse g p proto id = lookupResponse (g.find p proto id) := if_pos h

theorem dispatchResponse_of_long_id (h : idMax < id.length) : dispatchResponse g p proto id = Response.unrecognized :=
  if_neg (Nat.not_le.mpr h)

/-- Settles O47: with a frame held in the sealed phase the response is that of the search for its id, if at most `ID_MAX`
bytes long. -/
theorem regDispatchSelectsTheDecoder : Obligations.RegDispatchSelectsTheDecoder := by
  intro s x proto p hx hg hproto hp
  split_ifs with hs hv
  · exact exec_regDispatch_of_unsealed hx hs
  · exact exec_regDispatch_of_invalid hx hv (Bool.eq_true_of_not_eq_false hs)
  · rw [exec_regDispatch_of_held hx hproto hp (Bool.eq_true_of_not_eq_false hs) (Bool.eq_true_of_not_eq_false hv)]
    refine ⟨fun j e hshort h => ?_, fun h => ?_⟩
    · rw [dispatchResponse_of_short_id hshort, lookupResponse_of_matchesAt hg hp h]
    · rw [h.elim dispatchResponse_of_long_id dispatchResponse_of_unmatched]
      rfl

/-! #### Registration, sealing and lookup -/

/-- The entry of an append is in use and matches every id its own matches. -/
theorem Registry.append_matchesAt (hg : g.n < g.entries.length) (h : idMatches p e.id id = true) :
    MatchesAt (g.append e) p e.proto id g.n e :=
  ⟨Nat.lt_succ_self _, List.getElem?_set_self hg, keyMatches_iff.mpr ⟨rfl, h⟩⟩

/-- An entry that matches an id is found by it once the registry is sealed (44_registry_dispatch.md R264, R265). -/
theorem runAll_seal_lookup (hg : s.reg.Inv s.cfg) (hp : s.cfg.profile? proto = some p) (hm : m.toNat ≤ idMax)
    (h : MatchesAt s.reg p proto (idOperand m data) j e) : ∃ t, runAll [.regSeal, .regLookup proto m data] s =
      some ([Response.ok (zext64 s.reg.n), Response.ok (zext64 (e.handle.toNat + 256 * j))], t) := by
  have found : lookupResponse (s.reg.seal.find p proto (idOperand m data)) =
      Response.ok (zext64 (e.handle.toNat + 256 * j)) := lookupResponse_of_matchesAt (c := s.cfg) hg hp h
  have looked := exec_regLookup_of_key (s := { s with reg := s.reg.seal, rsp := Response.ok (zext64 s.reg.n) })
    (data := data) s.reg.seal_isSealed hp (Nat.not_lt.mpr hm)
  rw [found] at looked
  rw [runAll_cons_of_next (exec_regSeal s), runAll_cons_of_next looked]
  exact ⟨_, rfl⟩

/-- Settles O49: the entry REG.ADD appends matches the id looked up, and REG.ADD and REG.SEAL keep the invariant, so no
entry before it does. -/
theorem registeredIdIsFound : Obligations.RegisteredIdIsFound := by
  intro s proto handle m data data' id id' p hg hs hp hm hn hid hid' hnew hsame
  obtain rfl := hid.eq_idOperand
  obtain rfl := hid'.eq_idOperand
  have hmatch : idMatches p (idOperand m data) (idOperand m data') = true := by
    rw [idMatches_iff_map]
    cases p with
    | text => exact hsame
    | binary => exact congrArg _ hsame
  have hg' := (Registry.Update.newEntry (handle := handle) hs hp hm (Registry.find_eq_none_iff.mpr hnew) hn.ne).inv hg
  have hroom : s.reg.n < s.reg.entries.length := by
    obtain ⟨-, hlength, -⟩ := hg
    omega
  obtain ⟨t, hrun⟩ := runAll_seal_lookup (s := { s with reg := s.reg.append _, rsp := Response.ok (zext64 s.reg.n) })
    hg' hp hm (Registry.append_matchesAt hroom hmatch)
  have added := exec_regAdd_of_room (handle := handle) (Bool.eq_false_iff.mp hs) hp (Nat.not_lt.mpr hm) hnew hn.ne
  exact ⟨t, by rw [runAll_cons_of_next added, hrun]; rfl⟩

end Sys2Proof.Machine
end

section
/-! ### The statuses of a command

What each command may answer (60_exceptions.md R300) and that an error changes the response alone (R302): said together
of every command in every state, so that both statements about errors follow. -/

namespace Sys2Proof.Machine

variable {c : Config} {k : Nat} {x : Instance} {i : Instr} {s t : State} {e : Status} {es : List Status}

/-- `t` is an answer to a command in state `s` with a status of `es`: an error raised, or a success. -/
inductive State.Answers (s : State) (es : List Status) : State → Prop
  | error {e : Status} {info : DataWord} (listed : e ∈ es) : Answers s es { s with rsp := Response.error e info }
  | success {t : State} (listed : t.rsp.status ∈ es) (ok : Status.isError t.rsp.status = false) : Answers s es t

theorem State.Answers.status_mem (h : s.Answers es t) : t.rsp.status ∈ es := by
  cases h with
  | error listed => exact listed
  | success listed => exact listed

theorem State.Answers.eq_of_isError (h : s.Answers es t) (he : Status.isError t.rsp.status = true) :
    t = { s with rsp := t.rsp } ∧ t.rsp.bytes = [] ∧ t.rsp.frame = none := by
  cases h with
  | error => exact ⟨rfl, rfl, rfl⟩
  | success _ ok => exact absurd he (by simp [ok])

theorem State.Answers.of_raise {info : DataWord} (h : s.raise e info = .next t) (listed : e ∈ es) : s.Answers es t := by
  obtain rfl := (State.raise_next _ _ _ _).mp h
  exact .error listed

theorem State.Answers.of_respond {u : State} {r : Response} (h : u.respond r = .next t) (listed : r.status ∈ es)
    (ok : Status.isError r.status = false) : s.Answers es t := by
  obtain rfl := (State.respond_next _ _ _).mp h
  exact .success listed ok

theorem State.Answers.of_ok {u : State} {r : Response} (h : u.respond r = .next t) (hr : r.status = .sOk)
    (listed : .sOk ∈ es) : s.Answers es t :=
  .of_respond h (hr ▸ listed) (by rw [hr]; rfl)

/-- The status a reply answers. -/
def Reply.status : Reply → Status
  | .done _ r => r.status
  | .error e _ => e

theorem State.Answers.of_commit {q : Reply} (h : s.commit q = .next t) (fits : q.StatusFits) (listed : q.status ∈ es) :
    s.Answers es t := by
  cases q with
  | done y r =>
    have hr : r.status = .sOk := fits
    exact .of_ok h hr (hr ▸ listed)
  | error e info => exact .of_raise h listed

/-! #### The statuses of the replies -/

/-- The statuses of a cursor access: `E_INVALID_WIDTH` where the width is checked, `E_READ_ONLY` where it writes
(40_bitcursor.md R112). -/
def accessStatuses (wr ck : Bool) : List Status :=
  [.sOk, .eNoCursor] ++ (if ck then [.eInvalidWidth] else []) ++ (if wr then [.eReadOnly] else [])
    ++ [.eInsufficientBuffer]

theorem accessError_mem_accessStatuses {u : CursorUnit} {w : Nat} {wr ck : Bool} {e : Status × DataWord}
    (h : accessError u w wr ck = some e) : e.1 ∈ accessStatuses wr ck := by
  unfold accessError at h
  split_ifs at h with _ hwidth hmode <;> cases h
  · simp [accessStatuses]
  · have hck : ck = true := (Bool.and_eq_true_iff.mp hwidth).1
    simp [accessStatuses, hck]
  · have hwr : wr = true := (Bool.and_eq_true_iff.mp hmode).1
    simp [accessStatuses, hwr]
  · simp [accessStatuses]

theorem readField_status_mem (w : Nat) (ck : Bool) (result : Nat → DataWord) (x : Instance) :
    (readField w ck result x).status ∈ accessStatuses false ck := by
  rcases readField_cases w ck result x with ⟨e, he, h⟩ | ⟨-, h⟩ <;> rw [h]
  · exact accessError_mem_accessStatuses he
  · simp [Reply.status, accessStatuses]

theorem writeField_status_mem (w : Nat) (ck : Bool) (u : Nat) (x : Instance) :
    (writeField w ck u x).status ∈ accessStatuses true ck := by
  rcases writeField_cases w ck u x with ⟨e, he, h⟩ | ⟨-, h⟩ <;> rw [h]
  · exact accessError_mem_accessStatuses he
  · simp [Reply.status, accessStatuses]

theorem wrapReply_status_mem (c : Config) (start : Byte) (count : BitVec 32) (x : Instance) (p : Profile) :
    (wrapReply c start count x p).status ∈ Instr.mayAnswer (.fpWrap start count) := by
  cases p with
  | text =>
    simp only [wrapReply, wrapTextReply]
    split_ifs <;> simp [Reply.status, Instr.mayAnswer, framedResponse]
  | binary bp =>
    simp only [wrapReply, wrapBinReply]
    split_ifs
    · simp [Reply.status, Instr.mayAnswer]
    · simp [Reply.status, Instr.mayAnswer]
    · split <;> simp [Reply.status, Instr.mayAnswer, framedResponse]

theorem reply_status_mem {q : Reply} (h : Instr.reply c k x i = some q) : q.status ∈ Instr.mayAnswer i := by
  cases i with
  | curOpen mode src =>
    cases src with
    | hostBuffer len =>
      cases h
      unfold openHostBuffer
      split <;> simp [Reply.status, Instr.mayAnswer, Instance.openView]
    | frameOutput =>
      cases h
      unfold openFrameOutput
      split_ifs <;> simp [Reply.status, Instr.mayAnswer, Instance.openView]
  | curRdu | curRds => cases h; exact readField_status_mem _ true _ _
  | curRdb8 | curRdb16 | curRdb32 | curSkip => cases h; exact readField_status_mem _ false _ _
  | curWru | curWrs => cases h; exact writeField_status_mem _ true _ _
  | curWrb8 | curWrb16 | curWrb32 => cases h; exact writeField_status_mem _ false _ _
  | nop | curClose | fxClear | fxGet | fxSize => cases h; exact List.mem_singleton_self _
  | curTell | fxSet => cases h; split <;> simp [Reply.status, Instr.mayAnswer]
  | fxDeser =>
    cases h
    unfold deserialize
    split
    · simp [Reply.status, Instr.mayAnswer]
    · split <;> simp [Reply.status, Instr.mayAnswer]
  | fxSer => cases h; unfold serialize; split_ifs <;> simp [Reply.status, Instr.mayAnswer]
  | ckCompute kind | ckFormat _ kind | ckCheck kind =>
    cases h
    cases kindOfCode kind with
    | none => simp [Reply.status, Instr.mayAnswer]
    | some ck => simp only; split_ifs <;> simp [Reply.status, Instr.mayAnswer]
  | fpPush b =>
    obtain ⟨p, -, h⟩ := Option.bind_eq_some_iff.mp h
    obtain ⟨r, -, rfl⟩ := Option.map_eq_some_iff.mp h
    exact List.mem_singleton_self _
  | fpReset =>
    obtain ⟨p, -, rfl⟩ := Option.map_eq_some_iff.mp h
    exact List.mem_singleton_self _
  | fpWrap start count =>
    obtain ⟨p, -, rfl⟩ := Option.map_eq_some_iff.mp h
    exact wrapReply_status_mem c start count x p
  | regAdd | regSeal | regLookup | regDispatch => cases h

/-! #### The answers of the commands -/

theorem exec_answers_of_runs (hx : s.Runs x) (hi : Instr.isReg i = false) (h : exec i s = .next t) :
    s.Answers (Instr.mayAnswer i) t := by
  obtain ⟨q, hq⟩ := exists_reply_of_exec hx hi h
  rw [exec_of_reply hx hq] at h
  exact .of_commit h (reply_statusFits hq) (reply_status_mem hq)

/-- NOP and CK.FORMAT answer on a port without an `Instance` too; every other command outside REG.* has an issuing one. -/
theorem exec_answers_of_not_isReg (hi : Instr.isReg i = false) (h : exec i s = .next t) :
    s.Answers (Instr.mayAnswer i) t := by
  cases i with
  | nop => exact .of_ok h rfl (List.mem_singleton_self _)
  | ckFormat order kind value =>
    simp only [exec, execCkFormat] at h
    split at h
    · exact .of_raise h (by simp [Instr.mayAnswer])
    · split at h
      · exact .of_raise h (by simp [Instr.mayAnswer])
      · exact .of_ok h rfl (by simp [Instr.mayAnswer])
  | curOpen mode src =>
    cases src <;> (obtain ⟨x, hx, -⟩ := State.withInst_next h; exact exec_answers_of_runs hx rfl h)
  | regAdd | regSeal | regLookup | regDispatch => cases hi
  | _ =>
    obtain ⟨x, hx, -⟩ := State.withInst_next h
    exact exec_answers_of_runs hx rfl h

/-- A search answers `S_OK` or `S_UNRECOGNIZED`, neither an error (44_registry_dispatch.md R265). -/
theorem lookupResponse_status (found : Option (Nat × RegEntry)) :
    (lookupResponse found).status = .sOk ∨ (lookupResponse found).status = .sUnrecognized := by
  cases found with
  | none => exact .inr rfl
  | some => exact .inl rfl

theorem dispatchResponse_status (g : Registry) (p : Profile) (proto : BitVec 8) (id : List Byte) :
    (dispatchResponse g p proto id).status = .sOk ∨ (dispatchResponse g p proto id).status = .sUnrecognized := by
  unfold dispatchResponse
  split
  · exact lookupResponse_status _
  · exact .inr rfl

/-- The response of a search is an answer to a command that may answer both of its statuses. -/
theorem State.Answers.of_search {r : Response} (h : s.respond r = .next t)
    (hr : r.status = .sOk ∨ r.status = .sUnrecognized) (hok : .sOk ∈ es) (hno : .sUnrecognized ∈ es) :
    s.Answers es t := by
  rcases hr with hr | hr
  · exact .of_ok h hr hok
  · exact .of_respond h (hr ▸ hno) (by rw [hr]; rfl)

theorem exec_answers_of_isReg (hi : Instr.isReg i = true) (h : exec i s = .next t) :
    s.Answers (Instr.mayAnswer i) t := by
  cases i with
  | regAdd proto handle m data =>
    simp only [exec, execRegAdd] at h
    split at h
    · exact .of_raise h (by simp [Instr.mayAnswer])
    · split at h
      · exact .of_raise h (by simp [Instr.mayAnswer])
      · split at h
        · exact .of_raise h (by simp [Instr.mayAnswer])
        · split at h
          · exact .of_raise h (by simp [Instr.mayAnswer])
          · split at h
            · exact .of_raise h (by simp [Instr.mayAnswer])
            · exact .of_ok h rfl (by simp [Instr.mayAnswer])
  | regSeal => exact .of_ok h rfl (List.mem_singleton_self _)
  | regLookup proto m data =>
    simp only [exec, execRegLookup] at h
    split at h
    · exact .of_raise h (by simp [Instr.mayAnswer])
    · split at h
      · exact .of_raise h (by simp [Instr.mayAnswer])
      · split at h
        · exact .of_raise h (by simp [Instr.mayAnswer])
        · exact .of_search h (lookupResponse_status _) (by simp [Instr.mayAnswer]) (by simp [Instr.mayAnswer])
  | regDispatch =>
    obtain ⟨x, -, h⟩ := State.withInst_next h
    split at h
    · exact .of_raise h (by simp [Instr.mayAnswer])
    · split at h
      · exact .of_raise h (by simp [Instr.mayAnswer])
      · obtain ⟨p, -, h⟩ := State.withProfile_next h
        exact .of_search h (dispatchResponse_status _ _ _ _) (by simp [Instr.mayAnswer]) (by simp [Instr.mayAnswer])
  | _ => cases hi

/-- A command answers a status of its row of R300; with an error it changes the response alone. -/
theorem exec_answers (h : exec i s = .next t) : s.Answers (Instr.mayAnswer i) t := by
  cases hi : Instr.isReg i with
  | false => exact exec_answers_of_not_isReg hi h
  | true => exact exec_answers_of_isReg hi h

/-- Settles O52: a legal word runs its command, and an illegal one raises `E_ILLEGAL_COMMAND`. -/
theorem errorsChangeNothing : Obligations.ErrorsChangeNothing := by
  intro s t cmd data h he
  cases hd : decode cmd data with
  | ok i =>
    rw [State.runCommand_of_decode hd] at h
    exact (exec_answers h).eq_of_isError he
  | error reason =>
    rw [State.runCommand_of_illegal hd] at h
    exact (State.Answers.of_raise h (List.mem_singleton_self _)).eq_of_isError he

/-- Settles O53: the codes are computed, and each command answers by `exec_answers`. -/
theorem commandsAnswerTheirStatuses : Obligations.CommandsAnswerTheirStatuses :=
  ⟨by decide, fun _ _ _ h => (exec_answers h).status_mem⟩

end Sys2Proof.Machine
end
